-- ==== Sys2Proof/Word.lean ====
section
/-! DEFINITION. The word types of the engine's registers and channels (spec 00_scope R7, 30_encoding R90). -/

namespace Sys2Proof

/-- A data, mask, register-address, length, tag or buffer byte (R7). -/
abbrev Byte := BitVec 8

/-- A 7-bit device address (R7). -/
abbrev DevAddr := BitVec 7

/-- The 3-bit priority field of a host command (R6, R7). -/
abbrev Prio := BitVec 3

/-- The 40-bit header of a host command word, format HC (R91). -/
abbrev HostHeader := BitVec 40

/-- The 12-bit event word, format EV (R99). -/
abbrev EventWord := BitVec 12

/-- The 12-bit PHY command word, format PC (R100). -/
abbrev PhyWord := BitVec 12

end Sys2Proof
end

