-- ==== Sys2Proof/Config.lean ====
section
/-! DEFINITION. What an implementation fixes (R5, R6) and the free values of the model (U1, U5). -/

namespace Sys2Proof.Config

/-- Default buffer capacity `N` (R5). -/
def defaultN : Nat := 8

/-- Default number of priority levels `NPRIO` (R6). -/
def defaultNPRIO : Nat := 2

/-- The constraint of R5 on the buffer capacity. -/
abbrev LegalN (n : Nat) : Prop := 2 ≤ n ∧ n ≤ 255

/-- The constraint of R6 on the number of priority levels. -/
abbrev LegalNPRIO (n : Nat) : Prop := 1 ≤ n ∧ n ≤ 8

/-- FREE VALUE (U1, R140): whether the first start condition after an abandoned transfer meets a bus this master still
holds. The spec calls the wires undefined there, so nothing is known of this function. The argument is the draw counter. -/
opaque busStillHeld : Nat → Bool

/-- FREE VALUE (U5, R63, R95): a payload byte the spec leaves unspecified. The arguments are the draw counter and the byte's
place. -/
opaque unspecifiedByte : Nat → Nat → Byte

end Sys2Proof.Config
end

