-- ==== Sys2Proof/Syntax.lean ====
section
/-! DEFINITION. The operations of the block: one constructor per row of spec/opcode_table.json. -/

namespace Sys2Proof

/-- The 23 operations: nine host commands (R92), eight PHY events (R99), six PHY commands (R100). -/
inductive Instr where
  /-- INIT (R270). -/
  | init
  /-- WRITE (R191). `wdata` is the command's side payload `wdata[0 .. N-1]` (R93). -/
  | write (wait : Bool) (sla : DevAddr) (len : Byte) (wdata : List Byte)
  /-- READ_INTO (R192). -/
  | readInto (sla : DevAddr) (len dest : Byte)
  /-- NB_READ_INTO (R193). -/
  | nbReadInto (sla : DevAddr) (len dest : Byte)
  /-- NB_READ_REG (R194). -/
  | nbReadReg (sla : DevAddr) (reg len dest : Byte)
  /-- RMW_REG (R220). -/
  | rmwReg (sla : DevAddr) (reg data mask : Byte)
  /-- ENQ_READ (R240). -/
  | enqRead (prio : Prio) (sla : DevAddr) (reg len dest : Byte)
  /-- ENQ_MWRITE (R241). -/
  | enqMwrite (prio : Prio) (sla : DevAddr) (reg data mask : Byte)
  /-- POLL (R271). -/
  | poll
  /-- Event ADDR_ACK (R142). -/
  | addrAck
  /-- Event ADDR_NACK (R143). -/
  | addrNack
  /-- Event DATA_ACK (R144). -/
  | dataAck
  /-- Event DATA_NACK (R145). -/
  | dataNack
  /-- Event RX_ACK with the received byte (R146). -/
  | rxAck (data : Byte)
  /-- Event RX_NACK with the received byte (R147). -/
  | rxNack (data : Byte)
  /-- Event ARB_LOST (R148). -/
  | arbLost
  /-- Event BUS_ERROR (R149). -/
  | busError
  /-- PHY command START (R135); `dir` 0 = write, 1 = read (R28). -/
  | start (sla : DevAddr) (dir : BitVec 1)
  /-- PHY command SEND (R136). -/
  | send (byte : Byte)
  /-- PHY command RECV (R137); `ack` true = reply acknowledge. -/
  | recv (ack : Bool)
  /-- PHY command STOP (R138). -/
  | stop
  /-- PHY command RELEASE (R139). -/
  | release
  /-- PHY command ENABLE (R140). -/
  | enable
deriving DecidableEq, Repr

/-- The channel an operation travels on (R90). -/
inductive Channel where
  /-- Host to engine. -/
  | hc
  /-- PHY to engine. -/
  | ev
  /-- Engine to PHY. -/
  | pc
deriving DecidableEq, Repr

/-- The channel of each operation (R92, R99, R100). -/
def Instr.channel : Instr → Channel
  | .init => .hc
  | .write _ _ _ _ => .hc
  | .readInto _ _ _ => .hc
  | .nbReadInto _ _ _ => .hc
  | .nbReadReg _ _ _ _ => .hc
  | .rmwReg _ _ _ _ => .hc
  | .enqRead _ _ _ _ _ => .hc
  | .enqMwrite _ _ _ _ _ => .hc
  | .poll => .hc
  | .addrAck => .ev
  | .addrNack => .ev
  | .dataAck => .ev
  | .dataNack => .ev
  | .rxAck _ => .ev
  | .rxNack _ => .ev
  | .arbLost => .ev
  | .busError => .ev
  | .start _ _ => .pc
  | .send _ => .pc
  | .recv _ => .pc
  | .stop => .pc
  | .release => .pc
  | .enable => .pc

/-- The operation number of each row: `op` of R92, `code` of R99, `op` of R100. -/
def Instr.opNumber : Instr → BitVec 4
  | .init => 0x0#4
  | .write _ _ _ _ => 0x1#4
  | .readInto _ _ _ => 0x2#4
  | .nbReadInto _ _ _ => 0x3#4
  | .nbReadReg _ _ _ _ => 0x4#4
  | .rmwReg _ _ _ _ => 0x5#4
  | .enqRead _ _ _ _ _ => 0x6#4
  | .enqMwrite _ _ _ _ _ => 0x7#4
  | .poll => 0x8#4
  | .addrAck => 0x0#4
  | .addrNack => 0x1#4
  | .dataAck => 0x2#4
  | .dataNack => 0x3#4
  | .rxAck _ => 0x4#4
  | .rxNack _ => 0x5#4
  | .arbLost => 0x6#4
  | .busError => 0x7#4
  | .start _ _ => 0x0#4
  | .send _ => 0x1#4
  | .recv _ => 0x2#4
  | .stop => 0x3#4
  | .release => 0x4#4
  | .enable => 0x5#4

end Sys2Proof
end

