-- ==== Sys2Proof/WellFormed.lean ====
section
/-! DEFINITION. When an operation is well formed for a build with buffer capacity `n`. -/

namespace Sys2Proof

/-- R90, R93: a WRITE word is accompanied by exactly `N` payload bytes. Every other operand is bounded by its field's
width, and the range checks on `len` and `prio` are made by the commands themselves (R102, R195, R240). -/
def Instr.wellFormed (n : Nat) : Instr → Bool
  | .write _ _ _ wdata => wdata.length == n
  | _ => true

end Sys2Proof
end

