-- ==== Sys2Proof/Decode.lean ====
section
/-! DEFINITION. Decoding and encoding of the words of channels HC, EV and PC (spec 30_encoding R91 to R103). -/

namespace Sys2Proof

/-- One word of an input channel of an agent: a host command with its payload (R91, R93), an event (R99) or a PHY
command (R100). The channel is part of the word: EV and PC use the same numbers for different operations. -/
inductive ChannelWord where
  | hc (header : HostHeader) (wdata : List Byte)
  | ev (word : EventWord)
  | pc (word : PhyWord)
deriving DecidableEq, Repr

/-- The reserved encodings of R103, by name. -/
inductive Reserved where
  /-- Host `op` 0x9 to 0xF (R272). -/
  | hostCommand (op : BitVec 4)
  /-- Event `code` 0x8 to 0xF (R150). -/
  | event (code : BitVec 4)
  /-- PHY `op` 0x6 to 0xF, never issued (R100). -/
  | phyCommand (op : BitVec 4)
deriving DecidableEq, Repr

/-! ### Fields of the host command word (R91) -/

def HostHeader.op (w : HostHeader) : BitVec 4 := w.extractLsb' 36 4
def HostHeader.wait (w : HostHeader) : Bool := w.getLsbD 35
def HostHeader.prio (w : HostHeader) : Prio := w.extractLsb' 32 3
def HostHeader.sla (w : HostHeader) : DevAddr := w.extractLsb' 25 7
def HostHeader.reg (w : HostHeader) : Byte := w.extractLsb' 16 8
def HostHeader.a (w : HostHeader) : Byte := w.extractLsb' 8 8
def HostHeader.b (w : HostHeader) : Byte := w.extractLsb' 0 8

/-- The operation number of an event word (R99) or a PHY command word (R100). -/
def codeOf (w : BitVec 12) : BitVec 4 := w.extractLsb' 8 4

/-- The low byte of an event word (`data`, R99) or a PHY command word (`arg`, R100). -/
def argOf (w : BitVec 12) : Byte := w.extractLsb' 0 8

/-- R92: the host command a word names; fields the operation does not use are ignored (R103). -/
def decodeHost (w : HostHeader) (wdata : List Byte) : Except Reserved Instr :=
  match HostHeader.op w with
  | 0x0#4 => .ok .init
  | 0x1#4 => .ok (.write (HostHeader.wait w) (HostHeader.sla w) (HostHeader.a w) wdata)
  | 0x2#4 => .ok (.readInto (HostHeader.sla w) (HostHeader.a w) (HostHeader.b w))
  | 0x3#4 => .ok (.nbReadInto (HostHeader.sla w) (HostHeader.a w) (HostHeader.b w))
  | 0x4#4 => .ok (.nbReadReg (HostHeader.sla w) (HostHeader.reg w) (HostHeader.a w) (HostHeader.b w))
  | 0x5#4 => .ok (.rmwReg (HostHeader.sla w) (HostHeader.reg w) (HostHeader.a w) (HostHeader.b w))
  | 0x6#4 => .ok (.enqRead (HostHeader.prio w) (HostHeader.sla w) (HostHeader.reg w) (HostHeader.a w) (HostHeader.b w))
  | 0x7#4 => .ok (.enqMwrite (HostHeader.prio w) (HostHeader.sla w) (HostHeader.reg w) (HostHeader.a w) (HostHeader.b w))
  | 0x8#4 => .ok .poll
  | op => .error (.hostCommand op)

/-- R99: the event a word names; `data` is ignored except for RX_ACK and RX_NACK. -/
def decodeEvent (w : EventWord) : Except Reserved Instr :=
  match codeOf w with
  | 0x0#4 => .ok .addrAck
  | 0x1#4 => .ok .addrNack
  | 0x2#4 => .ok .dataAck
  | 0x3#4 => .ok .dataNack
  | 0x4#4 => .ok (.rxAck (argOf w))
  | 0x5#4 => .ok (.rxNack (argOf w))
  | 0x6#4 => .ok .arbLost
  | 0x7#4 => .ok .busError
  | code => .error (.event code)

/-- R100: the PHY command a word names. Argument bits an operation does not use are ignored
(DEDUCED from the table's mask 0xF00, log entry 9; the engine writes them 0, R103). -/
def decodePhy (w : PhyWord) : Except Reserved Instr :=
  match codeOf w with
  | 0x0#4 => .ok (.start ((argOf w).extractLsb' 1 7) ((argOf w).extractLsb' 0 1))
  | 0x1#4 => .ok (.send (argOf w))
  | 0x2#4 => .ok (.recv ((argOf w).getLsbD 0))
  | 0x3#4 => .ok .stop
  | 0x4#4 => .ok .release
  | 0x5#4 => .ok .enable
  | op => .error (.phyCommand op)

/-- The decoder, total on every word of every channel; a reserved encoding is rejected by name (R103). -/
def decode : ChannelWord → Except Reserved Instr
  | .hc w wdata => decodeHost w wdata
  | .ev w => decodeEvent w
  | .pc w => decodePhy w

/-! ### The encoder -/

/-- R91: the host command word from its fields; bit 24 is written 0. -/
def hostWord (op : BitVec 4) (wait : Bool) (prio : Prio) (sla : DevAddr) (reg a b : Byte) : HostHeader :=
  op ++ BitVec.ofBool wait ++ prio ++ sla ++ 0#1 ++ reg ++ a ++ b

/-- R99, R100: a 12-bit word from its operation number and its low byte. -/
def shortWord (code : BitVec 4) (arg : Byte) : BitVec 12 := code ++ arg

/-- R135: `arg = {sla, dir}`. -/
def startWord (sla : DevAddr) (dir : BitVec 1) : PhyWord := shortWord 0x0#4 (sla ++ dir)
/-- R136: `arg = byte`. -/
def sendWord (b : Byte) : PhyWord := shortWord 0x1#4 b
/-- R137: `arg = {0b0000000, ack}`. -/
def recvWord (ack : Bool) : PhyWord := shortWord 0x2#4 (0#7 ++ BitVec.ofBool ack)
/-- R138. -/
def stopWord : PhyWord := shortWord 0x3#4 0#8
/-- R139. -/
def releaseWord : PhyWord := shortWord 0x4#4 0#8
/-- R140. -/
def enableWord : PhyWord := shortWord 0x5#4 0#8

/-- The word of each operation, unused fields written 0 (R91, R103). -/
def encode : Instr → ChannelWord
  | .init => .hc (hostWord 0x0#4 false 0#3 0#7 0#8 0#8 0#8) []
  | .write wait sla len wdata => .hc (hostWord 0x1#4 wait 0#3 sla 0#8 len 0#8) wdata
  | .readInto sla len dest => .hc (hostWord 0x2#4 false 0#3 sla 0#8 len dest) []
  | .nbReadInto sla len dest => .hc (hostWord 0x3#4 false 0#3 sla 0#8 len dest) []
  | .nbReadReg sla reg len dest => .hc (hostWord 0x4#4 false 0#3 sla reg len dest) []
  | .rmwReg sla reg data mask => .hc (hostWord 0x5#4 false 0#3 sla reg data mask) []
  | .enqRead prio sla reg len dest => .hc (hostWord 0x6#4 false prio sla reg len dest) []
  | .enqMwrite prio sla reg data mask => .hc (hostWord 0x7#4 false prio sla reg data mask) []
  | .poll => .hc (hostWord 0x8#4 false 0#3 0#7 0#8 0#8 0#8) []
  | .addrAck => .ev (shortWord 0x0#4 0#8)
  | .addrNack => .ev (shortWord 0x1#4 0#8)
  | .dataAck => .ev (shortWord 0x2#4 0#8)
  | .dataNack => .ev (shortWord 0x3#4 0#8)
  | .rxAck data => .ev (shortWord 0x4#4 data)
  | .rxNack data => .ev (shortWord 0x5#4 data)
  | .arbLost => .ev (shortWord 0x6#4 0#8)
  | .busError => .ev (shortWord 0x7#4 0#8)
  | .start sla dir => .pc (startWord sla dir)
  | .send byte => .pc (sendWord byte)
  | .recv ack => .pc (recvWord ack)
  | .stop => .pc stopWord
  | .release => .pc releaseWord
  | .enable => .pc enableWord

/-- The operation number field of a word, with its channel. -/
def ChannelWord.opField : ChannelWord → Channel × BitVec 4
  | .hc w _ => (.hc, HostHeader.op w)
  | .ev w => (.ev, codeOf w)
  | .pc w => (.pc, codeOf w)

/-! ### The pseudo-operations of R106 -/

/-- WRITE_REG: `WRITE sla, [reg val], wait=w`, the payload padded with zeros to `n` bytes. -/
def pseudoWriteReg (n : Nat) (sla : DevAddr) (reg val : Byte) (wait : Bool) : Instr :=
  .write wait sla 2#8 (reg :: val :: List.replicate (n - 2) 0#8)
/-- READ_REG: `NB_READ_REG sla, reg, dest, len`. -/
def pseudoReadReg (sla : DevAddr) (reg dest len : Byte) : Instr := .nbReadReg sla reg len dest
/-- SET_BITS: `RMW_REG sla, reg, bits, bits`. -/
def pseudoSetBits (sla : DevAddr) (reg bits : Byte) : Instr := .rmwReg sla reg bits bits
/-- CLEAR_BITS: `RMW_REG sla, reg, 0x00, bits`. -/
def pseudoClearBits (sla : DevAddr) (reg bits : Byte) : Instr := .rmwReg sla reg 0#8 bits

/-! ### The host's numbering of a word -/

/-- The payload bytes that stand above the 40-bit header in a command numbered as one number. -/
def payloadOf (n w : Nat) : List Byte := (List.range n).map fun i => BitVec.ofNat 8 (w >>> (40 + 8 * i))

/-- The instruction the decoder reads from a word of the operation table. A row of 40 bits or more is a host command
(the bits above the header are the payload); a shorter one is read as a word of channel EV, the short channel the engine
itself decodes. A PC row has the same short word as an EV row and cannot be told from it without its channel
(log entry 3). -/
def decodeTableWord (nbits w : Nat) : Option Instr :=
  if nbits < 40 then (decode (.ev (BitVec.ofNat 12 w))).toOption
  else (decode (.hc (BitVec.ofNat 40 w) (payloadOf Config.defaultN w))).toOption

end Sys2Proof
end

