-- ==== Sys2Proof/Machine/State.lean ====
section
/-! DEFINITION. The state of the engine, the PHY, the host agent and the channels (spec 10_state), and its reset. -/

namespace Sys2Proof.Machine

/-- BusState, the control state (R20, R21). -/
inductive BusState where
  /-- `Ready`, the only idle value. -/
  | ready
  /-- `MT`. -/
  | masterTransmit
  /-- `MR`. -/
  | masterReceive
  /-- `MTTR`. -/
  | masterTransmitThenReceive
  /-- `MRMW`. -/
  | masterReadModifyWrite
deriving DecidableEq, Repr

/-- The error record (R23, R24). -/
inductive ErrRec where
  /-- `None`. -/
  | noErr
  | addrNack
  | dataNack
  | arbLost
  | busProtocolError
deriving DecidableEq, Repr

/-- A *ReadRegister* request (R32). -/
structure ReadReq where
  sla : DevAddr
  reg : Byte
  dest : Byte
  len : Byte
deriving DecidableEq, Repr

/-- A *WriteMasked* request (R32). -/
structure WriteReq where
  sla : DevAddr
  reg : Byte
  data : Byte
  mask : Byte
deriving DecidableEq, Repr

/-- The two slots of one priority level: `rq[p]` and `wq[p]` (R33). -/
structure Level where
  rq : Option ReadReq
  wq : Option WriteReq
deriving DecidableEq, Repr

/-- A level with both slots empty. -/
def Level.empty : Level := ⟨none, none⟩

/-- One word of channel HC: the 40-bit header and, for a WRITE, the `N`-byte payload `wdata` (R90, R93). In the word of any
other command `wdata` means nothing and may be any list (DESIGN CHOICE, log entry 18). -/
structure HostCommand where
  header : HostHeader
  wdata : List Byte
deriving DecidableEq, Repr

/-- One response on channel HR (R94). `rdata` is the `N`-byte payload of a READ_INTO (R90, R95), empty for the others. -/
structure Response where
  code : Byte
  count : Byte
  rdata : List Byte
deriving DecidableEq, Repr

/-- One completion record on channel CR (R63), with its `N` data bytes (R101). -/
structure Completion where
  kind : BusState
  err : ErrRec
  dest : Byte
  count : Byte
  data : List Byte
deriving DecidableEq, Repr

/-- `host_wait` (R43). -/
inductive HostWait where
  /-- `none`: no command is held. -/
  | idle
  /-- `wait_ready(cmd)`. -/
  | waitReady (cmd : Instr)
  /-- `wait_done(cmd)`. -/
  | waitDone (cmd : Instr)
deriving DecidableEq, Repr

/-- What an outstanding PHY command asked for, which fixes the events that may answer it (R135 to R137, R141). -/
inductive PhyRequest where
  /-- A START. -/
  | address
  /-- A SEND. -/
  | sendByte
  /-- A RECV with its acknowledge choice. -/
  | receiveByte (ack : Bool)
deriving DecidableEq, Repr

/-- Whether this master holds the bus (R135). -/
inductive BusTenure where
  | free
  | held
  /-- After an abandoned transfer: undefined (R140, U1). -/
  | unknown
deriving DecidableEq, Repr

/-- The PHY as far as its contract describes it (R135 to R141). -/
structure Phy where
  /-- ENABLE has been performed (R140). -/
  enabled : Bool
  /-- The START, SEND or RECV performed and not yet answered (R141). -/
  outstanding : Option PhyRequest
  /-- Decides between a plain and a repeated start (R135). -/
  bus : BusTenure
deriving DecidableEq, Repr

/-- One symbol of the frames on the wire (R107, R153). -/
inductive WireSym where
  /-- `S`. -/
  | start
  /-- `Sr`. -/
  | repeatedStart
  /-- The address byte `sla+W` or `sla+R`. -/
  | address (sla : DevAddr) (dir : BitVec 1)
  /-- A data byte, in either direction. -/
  | byte (b : Byte)
  /-- `A`. -/
  | ack
  /-- `N`. -/
  | nack
  /-- `P`. -/
  | stop
  /-- A transfer was abandoned here: what the wires carry is undefined (R140, U1). -/
  | abandoned
deriving DecidableEq, Repr

/-- The agents whose order the spec leaves open while no event is pending (R9, R288). -/
inductive Agent where
  | host
  | phy
deriving DecidableEq, Repr

/-- The model's own record of a broken contract on the caller or on the PHY. The spec gives the register effects of these
runs and says a model claims nothing more about them (U1, U2, U3; log entry 6). No meaning reads a mark. -/
structure Marks where
  /-- A command other than INIT and POLL was issued with `inited = 0` (R273, U3). -/
  usedBeforeInit : Bool
  /-- INIT was issued with `state` busy (R270, R323, U1). -/
  initWhileBusy : Bool
  /-- The PHY broke its contract: an event in `Ready`, an unexpected event, or an answer not allowed (R141, R150, R151, U2). -/
  phyContract : Bool
deriving DecidableEq, Repr

/-- An input the machine reads in order: the items to come, and the items that then come over and over, for ever; with none
of these the input ends (R12; log entry 2). -/
structure Feed (α : Type) where
  now : List α
  again : List α
deriving DecidableEq, Repr

/-- DEST: a list of (address, byte) pairs, addresses strictly rising (R62; log entry 5). -/
abbrev Memory := List Host.Cell

/-- The whole state. `N` is the length of `buf` and `NPRIO` the length of `queue` (R5, R6; log entry 1). -/
structure State where
  /-- R20. -/
  state : BusState
  /-- R23. -/
  err : ErrRec
  /-- R25. -/
  buf : List Byte
  /-- R26. -/
  idx : Byte
  /-- R27. -/
  len : Byte
  /-- R28. -/
  sla : DevAddr
  /-- R28: 0 = write, 1 = read. -/
  dir : BitVec 1
  /-- R29. -/
  reg : Byte
  /-- R30. -/
  rmwData : Byte
  /-- R30. -/
  rmwMask : Byte
  /-- R31. -/
  dest : Byte
  /-- R33: entry `p` holds `rq[p]` and `wq[p]`. -/
  queue : List Level
  /-- R35. -/
  evtPending : Option EventWord
  /-- R36. -/
  inited : Bool
  /-- R43. -/
  hostWait : HostWait
  /-- INPUT: the program, the commands the host issues, in order (R12, R197; log entry 2). -/
  program : Feed HostCommand
  /-- Channel HC (R90). -/
  hc : List HostCommand
  /-- Channel HR, oldest first (R90, R94). When the host takes a response the spec does not say: none is ever taken (DESIGN
  CHOICE, log entry 17). -/
  hr : List Response
  /-- Channel EV, oldest first (R90, R99). -/
  ev : List EventWord
  /-- Channel PC, oldest first (R90, R100). -/
  pc : List PhyWord
  /-- Channel CR, oldest first (R63, R90). As with HR, no record is ever taken (DESIGN CHOICE, log entry 17). -/
  cr : List Completion
  /-- DEST (R62). -/
  destMem : Memory
  /-- The reset input `rst` (R90, R320). -/
  rst : Bool
  /-- The PHY (R9, R135 to R141). -/
  phy : Phy
  /-- The frames produced on the wire so far (R107, R153). What stands here of a phase that an error cuts off is log entry
  13 (DESIGN CHOICE). -/
  wire : List WireSym
  /-- INPUT: the answers the bus and the peripheral will give, in order (R12, R141 (d), U9; log entry 2). -/
  answers : Feed EventWord
  /-- INPUT: which agent moves next while no event is pending (R10, R288; log entry 2). -/
  turns : Feed Agent
  /-- MODEL'S OWN: how many free values have been drawn (log entry 8). -/
  draws : Nat
  /-- MODEL'S OWN: broken contracts (log entry 6). -/
  marks : Marks
deriving DecidableEq, Repr

/-- The buffer capacity `N` of this build (R5). -/
def State.N (s : State) : Nat := s.buf.length

/-- The number of priority levels `NPRIO` of this build (R6). -/
def State.NPRIO (s : State) : Nat := s.queue.length

/-- The reasons a step stops with a fault. -/
inductive Fault where
  /-- Raised by an event rule or `complete()` that would access `buf[i]` with `i ≥ N`, an address BUF does not have
  (R60, R61). No run from reset reaches it. Safe: the machine stops where the spec says no access occurs. -/
  | bufferRange
  /-- Raised by the claim of WRITE when the command's payload is shorter than `len`, so that a byte `wdata[i]` the claim
  reads is not there; such a word is not well formed (R90, R93). Safe: the machine stops. -/
  | payloadRange
deriving DecidableEq, Repr

/-- The reasons a step is refused. -/
inductive Refusal where
  /-- An operation without a meaning, raised by an arm of exec. No arm does. Safe. -/
  | notModelled (mnemonic : String)
  /-- Raised by the PHY on a word with `op` 0x6 to 0xF in channel PC: "a PHY that receives one is outside this spec"
  (R103). The engine never issues one. Safe: the machine stops. -/
  | reservedPhyCommand (op : BitVec 4)
deriving DecidableEq, Repr

/-- What a step answers. -/
abbrev Result := Host.Outcome State Fault Refusal

/-- Hardware reset of a build with capacity `n` and `nprio` levels (R41, R320). The registers that R41 calls unspecified
are 0 (DESIGN CHOICE, log entry 4). -/
def State.resetOf (n nprio : Nat) : State where
  state := .ready
  err := .noErr
  buf := List.replicate n 0#8
  idx := 0#8
  len := 0#8
  sla := 0#7
  dir := 0#1
  reg := 0#8
  rmwData := 0#8
  rmwMask := 0#8
  dest := 0#8
  queue := List.replicate nprio Level.empty
  evtPending := none
  inited := false
  hostWait := .idle
  program := ⟨[], []⟩
  hc := []
  hr := []
  ev := []
  pc := []
  cr := []
  destMem := []
  rst := false
  phy := ⟨false, none, .free⟩
  wire := []
  answers := ⟨[], []⟩
  turns := ⟨[], []⟩
  draws := 0
  marks := ⟨false, false, false⟩

/-- The machine right after hardware reset, in the default build `N = 8`, `NPRIO = 2` (R5, R6, R41). -/
def State.reset : State := State.resetOf Config.defaultN Config.defaultNPRIO

end Sys2Proof.Machine
end

