-- ==== Sys2Proof/Machine/Flags.lean ====
section
/-! DEFINITION. The error record's and the control state's numbers, the status mapping, the response codes and the words
made of them (spec 30_encoding R94 to R101). -/

namespace Sys2Proof.Machine

/-- The 3-bit encoding of BusState (R21). -/
def busCode : BusState → BitVec 3
  | .ready => 0#3
  | .masterTransmit => 1#3
  | .masterReceive => 2#3
  | .masterTransmitThenReceive => 3#3
  | .masterReadModifyWrite => 4#3

/-- The 3-bit encoding of the error record (R24). -/
def errCode : ErrRec → BitVec 3
  | .noErr => 0#3
  | .addrNack => 1#3
  | .dataNack => 2#3
  | .arbLost => 3#3
  | .busProtocolError => 4#3

/-- R97: the status of a blocking WRITE from the error record. -/
def status : ErrRec → Byte
  | .noErr => 0#8
  | .addrNack => 2#8
  | .dataNack => 3#8
  | .arbLost => 4#8
  | .busProtocolError => 4#8

/-! The response codes of R95, signed 8-bit numbers (R94). -/

/-- 0: success, accepted. -/
def codeOk : Byte := 0#8
/-- 1: WRITE, length invalid. -/
def codeLength : Byte := 1#8
/-- -1: busy, slot occupied. -/
def codeBusy : Byte := 0xFF#8
/-- -2: other error, invalid priority, reserved command. -/
def codeOther : Byte := 0xFE#8

/-- R98: POLL's code, `{0b00, err, state}`. -/
def pollCode (s : State) : Byte := 0#2 ++ errCode s.err ++ busCode s.state

/-- R94: the 16-bit response word. -/
def Response.word (r : Response) : BitVec 16 := r.code ++ r.count

/-- R101: the 24-bit completion header. -/
def Completion.header (c : Completion) : BitVec 24 := 0#2 ++ errCode c.err ++ busCode c.kind ++ c.dest ++ c.count

end Sys2Proof.Machine
end

