-- ==== Sys2Proof/Machine/Operands.lean ====
section
/-! DEFINITION. Operand checks of the host commands, the comparisons of the event rules, and the merge. -/

namespace Sys2Proof.Machine

/-- R102, R195: a length is valid iff `1 <= len <= N`, as unsigned integers. -/
def lenValid (s : State) (len : Byte) : Bool := decide (1 ≤ len.toNat ∧ len.toNat ≤ s.N)

/-- R102: the level a priority names, `none` iff `prio >= NPRIO`. -/
def levelAt (s : State) (prio : Prio) : Option Level := s.queue[prio.toNat]?

/-- R142, R144: more buffered bytes remain, `idx < len`. -/
def moreToSend (s : State) : Bool := decide (s.idx.toNat < s.len.toNat)

/-- R142, R146: at least two bytes are still to come, `len - idx >= 2`. -/
def moreExpected (s : State) : Bool := decide (s.idx.toNat + 2 ≤ s.len.toNat)

/-- R147: exactly one byte is still to come, `len - idx = 1`. -/
def lastExpected (s : State) : Bool := decide (s.idx.toNat + 1 = s.len.toNat)

/-- The merge law of R221: `(old & ~mask) | (data & mask)`. -/
def merge (old data mask : Byte) : Byte := (old &&& ~~~mask) ||| (data &&& mask)

end Sys2Proof.Machine
end

