-- ==== Sys2Proof/Machine/Ops.lean ====
section
/-! DEFINITION. The shared operations: DEST, the channels, `begin`, `dispatch`, `deliver`, `complete` and the error exit
`fail` (spec 40_bus_fsm section 1, 43_queue section 2, 20_memory). -/

namespace Sys2Proof.Machine

/-! ### DEST (R62) -/

/-- One byte of DEST; `none` where nothing has been delivered (R62: unspecified; log entry 5). -/
def Memory.read : Memory → Nat → Option Byte
  | [], _ => none
  | (b, v) :: m, a => if b = a then some v else Memory.read m a

/-- Writes one byte, keeping the addresses strictly rising. -/
def Memory.write : Memory → Nat → Byte → Memory
  | [], a, v => [(a, v)]
  | (b, w) :: m, a, v =>
    if a < b then (a, v) :: (b, w) :: m
    else if a = b then (a, v) :: m
    else (b, w) :: Memory.write m a v

/-- Writes consecutive bytes from an address on. -/
def Memory.writeBytes (m : Memory) (a : Nat) : List Byte → Memory
  | [] => m
  | v :: vs => Memory.writeBytes (Memory.write m a v) (a + 1) vs

/-- The canonical form: addresses strictly rising. An unlisted address reads as no value, so no entry can equal it. -/
def Memory.wf : Memory → Bool
  | [] => true
  | [_] => true
  | (a, _) :: (b, w) :: m => decide (a < b) && Memory.wf ((b, w) :: m)

/-- Where `DestCount[t]` lies (R62; the numbering is log entry 5). -/
def countAddr (t : Byte) : Nat := t.toNat * 256

/-- Where `DestData[t][i]` lies (R62). -/
def dataAddr (t : Byte) (i : Nat) : Nat := t.toNat * 256 + 1 + i

/-- `DestCount[t]` (R62). -/
def destCount (s : State) (t : Byte) : Option Byte := Memory.read s.destMem (countAddr t)

/-- `DestData[t][i]` (R62); there is no cell at an offset of `N` or more. -/
def destData (s : State) (t : Byte) (i : Nat) : Option Byte :=
  if i < s.N then Memory.read s.destMem (dataAddr t i) else none

/-! ### Channels -/

/-- `phy(CMD ...)`: appends one PHY command to channel PC (00_scope section 6, R71). -/
def issue (w : PhyWord) (s : State) : State := { s with pc := s.pc ++ [w] }

/-- `k` unspecified payload bytes: free values (U5; log entry 16). -/
def unspecifiedBytes (draw k : Nat) : List Byte := (List.range k).map (Config.unspecifiedByte draw)

/-- An `n`-byte payload whose first bytes are given and whose other bytes are unspecified (R63, R95, R101). -/
def padTo (n draw : Nat) (bytes : List Byte) : List Byte := bytes ++ unspecifiedBytes draw (n - bytes.length)

/-- `respond(code, count)` with the response's payload: appends to channel HR (R94). The host never takes it off
(DESIGN CHOICE, log entry 17). -/
def respond (code count : Byte) (rdata : List Byte) (s : State) : State :=
  { s with hr := s.hr ++ [⟨code, count, rdata⟩] }

/-- Marks the run when a command other than INIT and POLL is issued with `inited = 0` (R273, U3; log entry 6). -/
def noteUse (s : State) : State :=
  { s with marks := { s.marks with usedBeforeInit := s.marks.usedBeforeInit || !s.inited } }

/-- Marks the run when the PHY breaks its contract (R141, U2; log entry 6). -/
def notePhy (s : State) : State := { s with marks := { s.marks with phyContract := true } }

/-! ### Starting a transaction (R131) -/

/-- `begin_write`. -/
def beginWrite (a : DevAddr) (l : Byte) (payload : List Byte) (s : State) : State :=
  issue (startWord a 0#1)
    { s with
      state := .masterTransmit, err := .noErr, idx := 0#8, sla := a, dir := 0#1, len := l
      buf := payload.take l.toNat ++ s.buf.drop l.toNat }

/-- `begin_read`. -/
def beginRead (a : DevAddr) (t l : Byte) (s : State) : State :=
  issue (startWord a 1#1)
    { s with state := .masterReceive, err := .noErr, idx := 0#8, sla := a, dir := 1#1, len := l, dest := t }

/-- `begin_regread`. -/
def beginRegread (a : DevAddr) (r t l : Byte) (s : State) : State :=
  issue (startWord a 0#1)
    { s with
      state := .masterTransmitThenReceive, err := .noErr, idx := 0#8, sla := a, dir := 0#1, reg := r, len := l, dest := t }

/-- `begin_rmw`. -/
def beginRmw (a : DevAddr) (r d m : Byte) (s : State) : State :=
  issue (startWord a 0#1)
    { s with
      state := .masterReadModifyWrite, err := .noErr, idx := 0#8, sla := a, dir := 0#1, reg := r, len := 1#8
      rmwData := d, rmwMask := m }

/-! ### The dispatcher (R243) -/

/-- A request taken from the queue. -/
inductive Request where
  | read (r : ReadReq)
  | maskedWrite (w : WriteReq)
deriving DecidableEq, Repr

/-- The first pending request in priority-major order, read before masked write within a level, with the queue it
leaves behind (R243, C3). -/
def takeFirst : List Level → Option (Request × List Level)
  | [] => none
  | ⟨some r, wq⟩ :: ls => some (.read r, ⟨none, wq⟩ :: ls)
  | ⟨none, some w⟩ :: ls => some (.maskedWrite w, ⟨none, none⟩ :: ls)
  | ⟨none, none⟩ :: ls =>
    match takeFirst ls with
    | some (q, ls') => some (q, ⟨none, none⟩ :: ls')
    | none => none

/-- Starts a request taken from the queue (R247). -/
def startRequest : Request → State → State
  | .read r, s => beginRegread r.sla r.reg r.dest r.len s
  | .maskedWrite w, s => beginRmw w.sla w.reg w.data w.mask s

/-- `dispatch()` (R243): starts at most one request (R244). -/
def dispatch (s : State) : State :=
  match takeFirst s.queue with
  | some (q, rest) => startRequest q { s with queue := rest }
  | none => s

/-! ### The idle transition (R133, R134) -/

/-- The completion record of the transaction that ends now: `data[i] = buf[i]` for `i < count`, the other bytes
unspecified (R63). -/
def completionOf (s : State) : Completion :=
  ⟨s.state, s.err, s.dest, s.idx, padTo s.N s.draws (s.buf.take s.idx.toNat)⟩

/-- `deliver()` (R134, R62). -/
def deliver (s : State) : State :=
  { s with
    destMem := Memory.writeBytes (Memory.write s.destMem (countAddr s.dest) s.idx) (dataAddr s.dest 0)
      (s.buf.take s.idx.toNat) }

/-- Whether a transaction that ends in this state delivers (R134). -/
def delivers : BusState → Bool
  | .masterReceive => true
  | .masterTransmitThenReceive => true
  | _ => false

/-- Ends the host command held in `wait_done` with the record of its own transaction (R133, R190 (c), R191, R192). -/
def answerHeld (c : Completion) (s : State) : State :=
  match s.hostWait with
  | .waitDone (.write _ _ _ _) => respond (status c.err) 0#8 [] { s with hostWait := .idle }
  | .waitDone (.readInto _ _ _) =>
    respond codeOk c.count (padTo s.N (s.draws + 1) (c.data.take c.count.toNat)) { s with hostWait := .idle }
  | _ => s

/-- `complete()` up to `state <- Ready`: deliver, emit the record on CR, where it stays (DESIGN CHOICE, log entry 17), end
the held command. The unspecified bytes of the record and of a response are two draws (log entry 16). -/
def goIdle (s : State) : State :=
  let d := if delivers s.state then deliver s else s
  { answerHeld (completionOf s) { d with cr := d.cr ++ [completionOf s] } with state := .ready, draws := s.draws + 2 }

/-- `complete()` (R133). A record of bytes beyond BUF does not exist (R61). -/
def complete (s : State) : Result :=
  if s.N < s.idx.toNat then .fault .bufferRange else .next (dispatch (goIdle s))

/-! ### The error exit (R132, R280): what plays the part of taking an exception -/

/-- `fail(e)`: records the error, ends the bus action, and makes the idle transition. Control goes nowhere else. -/
def fail (e : ErrRec) (s : State) : Result :=
  complete (issue (if e = .arbLost then releaseWord else stopWord) { s with err := e })

/-- R150: an event that does not fit a busy state, handled exactly as BUS_ERROR. -/
def unexpected (s : State) : Result := fail .busProtocolError (notePhy s)

/-- R151: an event in `Ready` is discarded. -/
def discardEvent (s : State) : Result := .next (notePhy s)

end Sys2Proof.Machine
end

