-- ==== Sys2Proof/Machine/Events.lean ====
section
/-! DEFINITION. The event rules (spec 40_bus_fsm section 3), one definition per event, each by `state`. -/

namespace Sys2Proof.Machine

/-- The `MT` arm of R142 and R144: send the next byte, or end the write. -/
def sendNext (s : State) : Result :=
  if moreToSend s then
    match s.buf[s.idx.toNat]? with
    | some b => .next (issue (sendWord b) { s with idx := s.idx + 1#8 })
    | none => .fault .bufferRange
  else complete (issue stopWord s)

/-- Stores a received byte at `buf[idx]` and counts it (R146, R147). -/
def storeByte (b : Byte) (s : State) : State := { s with buf := s.buf.set s.idx.toNat b, idx := s.idx + 1#8 }

/-- The turn-around to the receive phase: a full stop, then a plain start with the direction flipped (R144, C1). -/
def turnAround (s : State) : State :=
  issue (startWord s.sla 1#1) (issue stopWord { s with dir := 1#1, idx := 0#8 })

/-- The merge and the repeated start of the write-back (R147, R221, R222). -/
def mergeAndWriteBack (old : Byte) (s : State) : State :=
  issue (startWord s.sla 0#1)
    { s with
      buf := ((s.buf.set 0 old).set 0 s.reg).set 1 (merge old s.rmwData s.rmwMask)
      len := 2#8, idx := 0#8, dir := 0#1, state := .masterTransmit }

/-- ADDR_ACK (R142). -/
def execAddrAck (s : State) : Result :=
  match s.state with
  | .masterTransmit => sendNext s
  | .masterTransmitThenReceive => .next (issue (sendWord s.reg) s)
  | .masterReceive => .next (issue (recvWord (moreExpected s)) s)
  | .masterReadModifyWrite =>
    if s.dir = 0#1 then .next (issue (sendWord s.reg) s) else .next (issue (recvWord false) s)
  | .ready => discardEvent s

/-- ADDR_NACK (R143). -/
def execAddrNack (s : State) : Result :=
  match s.state with
  | .ready => discardEvent s
  | _ => fail .addrNack s

/-- DATA_ACK (R144). -/
def execDataAck (s : State) : Result :=
  match s.state with
  | .masterTransmit => sendNext s
  | .masterTransmitThenReceive => .next { turnAround s with state := .masterReceive }
  | .masterReadModifyWrite => if s.dir = 0#1 then .next (turnAround s) else unexpected s
  | .masterReceive => unexpected s
  | .ready => discardEvent s

/-- DATA_NACK (R145). -/
def execDataNack (s : State) : Result :=
  match s.state with
  | .masterTransmit => fail .dataNack s
  | .masterTransmitThenReceive => fail .dataNack s
  | .masterReadModifyWrite => if s.dir = 0#1 then fail .dataNack s else unexpected s
  | .masterReceive => unexpected s
  | .ready => discardEvent s

/-- RX_ACK (R146). -/
def execRxAck (data : Byte) (s : State) : Result :=
  match s.state with
  | .masterReceive =>
    if moreExpected s then
      if s.idx.toNat < s.N then .next (issue (recvWord (moreExpected (storeByte data s))) (storeByte data s))
      else .fault .bufferRange
    else unexpected s
  | .masterTransmit => unexpected s
  | .masterTransmitThenReceive => unexpected s
  | .masterReadModifyWrite => unexpected s
  | .ready => discardEvent s

/-- RX_NACK (R147). -/
def execRxNack (data : Byte) (s : State) : Result :=
  match s.state with
  | .masterReceive =>
    if lastExpected s then
      if s.idx.toNat < s.N then complete (issue stopWord (storeByte data s)) else .fault .bufferRange
    else unexpected s
  | .masterReadModifyWrite =>
    if s.dir = 1#1 then
      if 2 ≤ s.N then .next (mergeAndWriteBack data s) else .fault .bufferRange
    else unexpected s
  | .masterTransmit => unexpected s
  | .masterTransmitThenReceive => unexpected s
  | .ready => discardEvent s

/-- ARB_LOST (R148). -/
def execArbLost (s : State) : Result :=
  match s.state with
  | .ready => discardEvent s
  | _ => fail .arbLost s

/-- BUS_ERROR (R149). -/
def execBusError (s : State) : Result :=
  match s.state with
  | .ready => discardEvent s
  | _ => fail .busProtocolError s

/-- An event with a reserved code 0x8 to 0xF (R150, R151). -/
def reservedEvent (s : State) : Result :=
  match s.state with
  | .ready => discardEvent s
  | _ => unexpected s

end Sys2Proof.Machine
end

