-- ==== Sys2Proof/Machine/PhyCommands.lean ====
section
/-! DEFINITION. What the PHY does with each command it takes from channel PC (spec 40_bus_fsm section 2, R107). -/

namespace Sys2Proof.Machine

/-- The start condition a START produces: repeated when this master still holds the bus, plain when the bus is free
(R135); after an abandoned transfer which of the two is undefined, a free value (U1, log entry 8). -/
def startSymbol (s : State) : WireSym :=
  match s.phy.bus with
  | .free => .start
  | .held => .repeatedStart
  | .unknown => if Config.busStillHeld s.draws then .repeatedStart else .start

/-- START (R135). A PHY that is not enabled does nothing with a command (R273). -/
def execStart (sla : DevAddr) (dir : BitVec 1) (s : State) : Result :=
  if s.phy.enabled then
    .next
      { s with
        wire := s.wire ++ [startSymbol s, .address sla dir]
        draws := if s.phy.bus = .unknown then s.draws + 1 else s.draws
        phy := { s.phy with outstanding := some .address, bus := .held } }
  else .next s

/-- SEND (R136). -/
def execSend (byte : Byte) (s : State) : Result :=
  if s.phy.enabled then
    .next { s with wire := s.wire ++ [.byte byte], phy := { s.phy with outstanding := some .sendByte } }
  else .next s

/-- RECV (R137): the byte appears with its answer. -/
def execRecv (ack : Bool) (s : State) : Result :=
  if s.phy.enabled then .next { s with phy := { s.phy with outstanding := some (.receiveByte ack) } }
  else .next s

/-- STOP (R138): a stop condition; the bus is free; no event. -/
def execStop (s : State) : Result :=
  if s.phy.enabled then .next { s with wire := s.wire ++ [.stop], phy := { s.phy with bus := .free } }
  else .next s

/-- RELEASE (R139): no stop condition, this master no longer holds the bus; no event. -/
def execRelease (s : State) : Result :=
  if s.phy.enabled then .next { s with phy := { s.phy with bus := .free } } else .next s

/-- ENABLE (R140): enabled and idle, with nothing outstanding; a transfer cut off here leaves the wires undefined (U1). -/
def execEnable (s : State) : Result :=
  if s.phy.outstanding = none ∧ s.phy.bus = .free then .next { s with phy := ⟨true, none, .free⟩ }
  else .next { s with wire := s.wire ++ [.abandoned], phy := ⟨true, none, .unknown⟩ }

end Sys2Proof.Machine
end

