-- ==== Sys2Proof/Machine/Queue.lean ====
section
/-! DEFINITION. The queue commands (spec 43_queue). -/

namespace Sys2Proof.Machine

/-- `if state = Ready: dispatch()`, the end of an accepted enqueue (R240, R241, R245 (b)). -/
def dispatchIfReady (s : State) : State := if s.state = .ready then dispatch s else s

/-- ENQ_READ (R240): priority, then length, then occupancy (D14). -/
def execEnqRead (prio : Prio) (sla : DevAddr) (reg len dest : Byte) (s : State) : Result :=
  match levelAt s prio with
  | none => .next (respond codeOther 0#8 [] (noteUse s))
  | some level =>
    if !lenValid s len then .next (respond codeOther 0#8 [] (noteUse s))
    else if level.rq ≠ none then .next (respond codeBusy 0#8 [] (noteUse s))
    else .next (respond codeOk 0#8 [] (dispatchIfReady
      { noteUse s with queue := s.queue.set prio.toNat { level with rq := some ⟨sla, reg, dest, len⟩ } }))

/-- ENQ_MWRITE (R241). -/
def execEnqMwrite (prio : Prio) (sla : DevAddr) (reg data mask : Byte) (s : State) : Result :=
  match levelAt s prio with
  | none => .next (respond codeOther 0#8 [] (noteUse s))
  | some level =>
    if level.wq ≠ none then .next (respond codeBusy 0#8 [] (noteUse s))
    else .next (respond codeOk 0#8 [] (dispatchIfReady
      { noteUse s with queue := s.queue.set prio.toNat { level with wq := some ⟨sla, reg, data, mask⟩ } }))

end Sys2Proof.Machine
end

