-- ==== Sys2Proof/Machine/Rmw.lean ====
section
/-! DEFINITION. The register read-modify-write command (spec 42_rmw); the sequence itself is in Events.lean (R224). -/

namespace Sys2Proof.Machine

/-- RMW_REG (R220). -/
def execRmwReg (sla : DevAddr) (reg data mask : Byte) (s : State) : Result :=
  if s.state ≠ .ready then .next (respond codeBusy 0#8 [] (noteUse s))
  else .next (respond codeOk 0#8 [] (beginRmw sla reg data mask (noteUse s)))

end Sys2Proof.Machine
end

