-- ==== Sys2Proof/Machine/System.lean ====
section
/-! DEFINITION. INIT, POLL, the reserved host commands (spec 44_system_ops) and the hardware reset (R320). -/

namespace Sys2Proof.Machine

/-- INIT (R270); `host_wait` after it is `none` (R41). -/
def execInit (s : State) : Result :=
  .next (respond codeOk 0#8 [] (issue enableWord
    { s with
      state := .ready, queue := List.replicate s.NPRIO Level.empty, err := .noErr, idx := 0#8, evtPending := none
      inited := true, hostWait := .idle
      marks := { s.marks with initWhileBusy := s.marks.initWhileBusy || decide (s.state ≠ .ready) } }))

/-- POLL (R271). -/
def execPoll (s : State) : Result := .next (respond (pollCode s) s.idx [] s)

/-- A command word with `op` in 0x9 to 0xF (R272). -/
def reservedCommand (s : State) : Result := .next (respond codeOther 0#8 [] (noteUse s))

/-- The PHY's hold on the bus once whatever it was doing is cut off: undefined unless it was doing nothing (R140, U1). -/
def tenureAfterCut (s : State) : BusTenure :=
  if s.phy.outstanding = none ∧ s.phy.bus = .free ∧ s.pc = [] then .free else .unknown

/-- The input `rst` (R320, R41): every register takes its reset value, the channels are emptied, the PHY is disabled.
DEST is host memory and keeps its contents (R62); the program and the other inputs are not the engine's (R12). -/
def hardReset (s : State) : State :=
  { State.resetOf s.N s.NPRIO with
    destMem := s.destMem
    phy := ⟨false, none, tenureAfterCut s⟩
    wire := if tenureAfterCut s = .free then s.wire else s.wire ++ [.abandoned]
    program := s.program
    answers := s.answers
    turns := s.turns
    draws := s.draws
    marks := s.marks }

end Sys2Proof.Machine
end

