-- ==== Sys2Proof/Machine/Transfer.lean ====
section
/-! DEFINITION. The transfer commands (spec 41_transfer_api). -/

namespace Sys2Proof.Machine

/-- WRITE (R191). A blocking claim that finds `state` busy holds the host (R190 (b)); the claim step runs this meaning
again once `state = Ready`. -/
def execWrite (wait : Bool) (sla : DevAddr) (len : Byte) (wdata : List Byte) (s : State) : Result :=
  if !lenValid s len then .next (respond codeLength 0#8 [] (noteUse s))
  else if s.state ≠ .ready then .next { noteUse s with hostWait := .waitReady (.write wait sla len wdata) }
  else if wdata.length < len.toNat then .fault .payloadRange
  else if wait then
    .next { beginWrite sla len wdata (noteUse s) with hostWait := .waitDone (.write wait sla len wdata) }
  else .next (respond codeOk 0#8 [] (beginWrite sla len wdata (noteUse s)))

/-- READ_INTO (R192). The payload of its rejection has no meaningful byte (R95). -/
def execReadInto (sla : DevAddr) (len dest : Byte) (s : State) : Result :=
  if !lenValid s len then
    .next { respond codeOk 0#8 (padTo s.N s.draws []) (noteUse s) with draws := s.draws + 1 }
  else if s.state ≠ .ready then .next { noteUse s with hostWait := .waitReady (.readInto sla len dest) }
  else .next { beginRead sla dest len (noteUse s) with hostWait := .waitDone (.readInto sla len dest) }

/-- NB_READ_INTO (R193): the length is checked before `state` (D14). -/
def execNbReadInto (sla : DevAddr) (len dest : Byte) (s : State) : Result :=
  if !lenValid s len then .next (respond codeOther 0#8 [] (noteUse s))
  else if s.state ≠ .ready then .next (respond codeBusy 0#8 [] (noteUse s))
  else .next (respond codeOk 0#8 [] (beginRead sla dest len (noteUse s)))

/-- NB_READ_REG (R194). -/
def execNbReadReg (sla : DevAddr) (reg len dest : Byte) (s : State) : Result :=
  if !lenValid s len then .next (respond codeOther 0#8 [] (noteUse s))
  else if s.state ≠ .ready then .next (respond codeBusy 0#8 [] (noteUse s))
  else .next (respond codeOk 0#8 [] (beginRegread sla reg dest len (noteUse s)))

end Sys2Proof.Machine
end

