-- ==== Sys2Proof/Machine/Dispatch.lean ====
section
/-! DEFINITION. The meaning of every operation: one arm per constructor of Instr. -/

namespace Sys2Proof.Machine

def exec (i : Instr) (s : State) : Host.Outcome State Fault Refusal :=
  match i with
  | .init => Sys2Proof.Machine.execInit s
  | .write wait sla len wdata => Sys2Proof.Machine.execWrite wait sla len wdata s
  | .readInto sla len dest => Sys2Proof.Machine.execReadInto sla len dest s
  | .nbReadInto sla len dest => Sys2Proof.Machine.execNbReadInto sla len dest s
  | .nbReadReg sla reg len dest => Sys2Proof.Machine.execNbReadReg sla reg len dest s
  | .rmwReg sla reg data mask => Sys2Proof.Machine.execRmwReg sla reg data mask s
  | .enqRead prio sla reg len dest => Sys2Proof.Machine.execEnqRead prio sla reg len dest s
  | .enqMwrite prio sla reg data mask => Sys2Proof.Machine.execEnqMwrite prio sla reg data mask s
  | .poll => Sys2Proof.Machine.execPoll s
  | .addrAck => Sys2Proof.Machine.execAddrAck s
  | .addrNack => Sys2Proof.Machine.execAddrNack s
  | .dataAck => Sys2Proof.Machine.execDataAck s
  | .dataNack => Sys2Proof.Machine.execDataNack s
  | .rxAck data => Sys2Proof.Machine.execRxAck data s
  | .rxNack data => Sys2Proof.Machine.execRxNack data s
  | .arbLost => Sys2Proof.Machine.execArbLost s
  | .busError => Sys2Proof.Machine.execBusError s
  | .start sla dir => Sys2Proof.Machine.execStart sla dir s
  | .send byte => Sys2Proof.Machine.execSend byte s
  | .recv ack => Sys2Proof.Machine.execRecv ack s
  | .stop => Sys2Proof.Machine.execStop s
  | .release => Sys2Proof.Machine.execRelease s
  | .enable => Sys2Proof.Machine.execEnable s

end Sys2Proof.Machine
end

