-- ==== Sys2Proof/Machine/Agents.lean ====
section
/-! DEFINITION. The steps of the agents: the handler, the PHY and the host (spec 00_scope R9, R10). -/

namespace Sys2Proof.Machine

/-! ### Inputs -/

/-- The next item of an input, and what is left of it (log entry 2). -/
def takeNext {α : Type} (f : Feed α) : Option (α × Feed α) :=
  match f.now with
  | a :: rest => some (a, ⟨rest, f.again⟩)
  | [] =>
    match f.again with
    | a :: rest => some (a, ⟨rest, f.again⟩)
    | [] => none

/-! ### The handler -/

/-- A raised event becomes pending, at once if none is (R35, R285). -/
def latch (s : State) : State :=
  match s.evtPending, s.ev with
  | none, w :: rest => { s with evtPending := some w, ev := rest }
  | _, _ => s

/-- Runs the event rule an event word selects (R130). -/
def runEventWord (w : EventWord) (s : State) : Result :=
  match decode (.ev w) with
  | .ok i => exec i s
  | .error _ => reservedEvent s

/-! ### The PHY -/

/-- R141 (a): the events that may answer a request, by R135 to R137. -/
def answerAllowed : PhyRequest → EventWord → Bool
  | .address, w => codeOf w ∈ [0x0#4, 0x1#4, 0x6#4, 0x7#4]
  | .sendByte, w => codeOf w ∈ [0x2#4, 0x3#4, 0x6#4, 0x7#4]
  | .receiveByte true, w => codeOf w ∈ [0x4#4, 0x6#4, 0x7#4]
  | .receiveByte false, w => codeOf w ∈ [0x5#4, 0x6#4, 0x7#4]

/-- What an event reports of the wire: the acknowledge bit of an address or sent byte, or a received byte with the
acknowledge bit this master sent (R107, R153). R153 lists error-free frames only: that an ARB_LOST, a BUS_ERROR or a
reserved code adds no symbol, so that the address or byte sent stands whole and without an acknowledge, and an answered RECV
leaves none, is the model's choice (DESIGN CHOICE, log entry 13). -/
def wireOfEvent (w : EventWord) : List WireSym :=
  match decode (.ev w) with
  | .ok .addrAck => [.ack]
  | .ok .addrNack => [.nack]
  | .ok .dataAck => [.ack]
  | .ok .dataNack => [.nack]
  | .ok (.rxAck b) => [.byte b, .ack]
  | .ok (.rxNack b) => [.byte b, .nack]
  | _ => []

/-- The PHY raises an event in answer to the outstanding request (R141, R285). -/
def raiseEvent (r : PhyRequest) (w : EventWord) (s : State) : State :=
  let t := if answerAllowed r w then s else notePhy s
  latch { t with phy := { t.phy with outstanding := none }, ev := t.ev ++ [w], wire := t.wire ++ wireOfEvent w }

/-- Performs a word taken from channel PC. -/
def runPhyWord (w : PhyWord) (s : State) : Result :=
  match decode (.pc w) with
  | .ok i => exec i s
  | .error (.phyCommand op) => .refused (.reservedPhyCommand op)
  | .error _ => .refused (.reservedPhyCommand 0xF#4)

/-- Whether a word of channel PC is an ENABLE (R100). -/
def isEnable (w : PhyWord) : Bool := codeOf w == 0x5#4

/-- The first ENABLE in channel PC: whether commands are queued before it, its word, and what follows it (R140). -/
def findEnable : List PhyWord → Option (Bool × PhyWord × List PhyWord)
  | [] => none
  | w :: ws =>
    if isEnable w then some (false, w, ws)
    else
      match findEnable ws with
      | some (_, e, rest) => some (true, e, rest)
      | none => none

/-- The commands queued before an ENABLE are abandoned, which leaves the bus undefined (R140, U1). -/
def abandonQueued (queued : Bool) (s : State) : State :=
  if queued then { s with phy := { s.phy with bus := .unknown } } else s

/-- The PHY's move, if it has one. An ENABLE waiting in PC abandons everything before it (R140). Otherwise a disabled PHY
does nothing (R273), a PHY with a request outstanding answers it when the bus gives an answer (R141), and an idle one
takes the next command in order (R71). -/
def phyTurn (s : State) : Option Result :=
  match findEnable s.pc with
  | some (queued, e, rest) => some (runPhyWord e (abandonQueued queued { s with pc := rest }))
  | none =>
    if s.phy.enabled then
      match s.phy.outstanding with
      | some r =>
        match takeNext s.answers with
        | some (w, rest) => some (.next (raiseEvent r w { s with answers := rest }))
        | none => none
      | none =>
        match s.pc with
        | w :: rest => some (runPhyWord w { s with pc := rest })
        | [] => none
    else none

/-! ### The host -/

/-- Runs the command a word of channel HC names (R92, R272). -/
def runHostCommand (c : HostCommand) (s : State) : Result :=
  match decode (.hc c.header c.wdata) with
  | .ok i => exec i s
  | .error _ => reservedCommand s

/-- The host's move, if it has one. With no command held, the command on channel HC runs; with HC empty, so that every
command has been answered, the host sends the next command of its program (R197). A command in `wait_ready` makes its claim
step once `state = Ready` (R190 (b)); a host in `wait_done` takes no step (R190 (c)). That the host never takes a word off
HR or CR is the model's choice (DESIGN CHOICE, log entry 17). -/
def hostTurn (s : State) : Option Result :=
  match s.hostWait with
  | .idle =>
    match s.hc with
    | c :: rest => some (runHostCommand c { s with hc := rest })
    | [] =>
      match takeNext s.program with
      | some (c, rest) => some (.next { s with program := rest, hc := [c] })
      | none => none
  | .waitReady cmd => if s.state = .ready then some (exec cmd { s with hostWait := .idle }) else none
  | .waitDone _ => none

/-- The move of the agent whose turn it is; an agent without a move lets the machine stand still. -/
def agentTurn (a : Agent) (s : State) : Result :=
  match a with
  | .phy => (phyTurn s).getD (.next s)
  | .host => (hostTurn s).getD (.next s)

/-- With no turn given, the PHY moves if it can, else the host, else the machine waits (log entry 2). -/
def defaultTurn (s : State) : Result :=
  match phyTurn s with
  | some r => r
  | none => (hostTurn s).getD (.next s)

/-- Host and PHY, when no event is pending (R10). -/
def foregroundStep (s : State) : Result :=
  match takeNext s.turns with
  | some (a, rest) => agentTurn a { s with turns := rest }
  | none => defaultTurn s

end Sys2Proof.Machine
end

