-- ==== Sys2Proof/Machine/Step.lean ====
section
/-! DEFINITION. One atomic step of the machine (spec 00_scope R10, 60_exceptions R288, R289). -/

namespace Sys2Proof.Machine

/-- One step. The reset input comes first (R320); then a pending event, which goes before every other agent (R288); then
an event on channel EV becomes pending; then the PHY or the host moves. -/
def step (s : State) : Host.Outcome State Fault Refusal :=
  if s.rst then .next (hardReset s)
  else
    match s.evtPending with
    | some w => runEventWord w { s with evtPending := none }
    | none =>
      match s.ev with
      | _ :: _ => .next (latch s)
      | [] => foregroundStep s

/-- The state with a word of the operation table where the next step takes it: a host command at the head of channel HC
with the turn given to the host and nothing held or pending, an event in `evt_pending` (log entry 3). -/
def State.withFetchWord (s : State) (nbits w : Nat) : State :=
  if nbits < 40 then { s with rst := false, evtPending := some (BitVec.ofNat 12 w) }
  else
    { s with
      rst := false, evtPending := none, ev := [], hostWait := .idle, turns := ⟨.host :: s.turns.now, s.turns.again⟩
      hc := ⟨BitVec.ofNat 40 w, payloadOf s.N w⟩ :: s.hc }

end Sys2Proof.Machine
end

