-- ==== Sys2Proof/Safety.lean ====
section
/-! DEFINITION. The terms claims are made in: invariants, a run the spec gives a meaning to, the end of a run. -/

namespace Sys2Proof.Machine

/-! ### Queue -/

/-- Every slot is empty (R39). -/
abbrev QueueEmpty (q : List Level) : Prop := ∀ l ∈ q, l.rq = none ∧ l.wq = none

/-- Every stored read request satisfies `1 <= len <= N` (R32). -/
abbrev StoredLengthsValid (s : State) : Prop :=
  ∀ l ∈ s.queue, ∀ r, l.rq = some r → 1 ≤ r.len.toNat ∧ r.len.toNat ≤ s.N

/-! ### The per-state invariants (R26, R40) -/

/-- R40, first part: what `dir`, `len` and `idx` satisfy in each busy state. -/
def PhaseOk (s : State) : Prop :=
  match s.state with
  | .ready => True
  | .masterTransmit => s.dir = 0#1 ∧ 1 ≤ s.len.toNat ∧ s.len.toNat ≤ s.N ∧ s.idx.toNat ≤ s.len.toNat
  | .masterTransmitThenReceive => s.dir = 0#1 ∧ 1 ≤ s.len.toNat ∧ s.len.toNat ≤ s.N ∧ s.idx = 0#8
  | .masterReceive => s.dir = 1#1 ∧ 1 ≤ s.len.toNat ∧ s.len.toNat ≤ s.N ∧ s.idx.toNat < s.len.toNat
  | .masterReadModifyWrite => s.len = 1#8 ∧ s.idx = 0#8

/-! ### The host agent (R43, R190, R198) -/

/-- A command the host may be held on, with a valid length and, for WRITE, an `N`-byte payload. -/
def Holdable (s : State) : Instr → Prop
  | .write _ _ len wdata => lenValid s len = true ∧ wdata.length = s.N
  | .readInto _ len _ => lenValid s len = true
  | _ => False

/-- The transaction a host in `wait_done` waits for is the one on the bus, and nothing is queued (R190 (c), R198). -/
def HoldsOwnTransaction (s : State) : Instr → Prop
  | .write wait _ _ _ => wait = true ∧ s.state = .masterTransmit
  | .readInto _ _ _ => s.state = .masterReceive
  | _ => False

/-- What `host_wait` says of the rest of the state. -/
def HoldOk (s : State) : Prop :=
  match s.hostWait with
  | .idle => True
  | .waitReady cmd => Holdable s cmd
  | .waitDone cmd => HoldsOwnTransaction s cmd ∧ QueueEmpty s.queue

/-- R90, R197: at most one command is on channel HC or held. -/
abbrev OneCommand (s : State) : Prop := s.hc = [] ∨ (s.hc.length = 1 ∧ s.hostWait = .idle)

/-- R90, R93: a WRITE word comes with an `N`-byte payload. The other commands have none, and what stands in their `wdata` is
left open and never read (log entry 18). -/
abbrev PayloadOk (n : Nat) (c : HostCommand) : Prop := HostHeader.op c.header = 0x1#4 → c.wdata.length = n

/-! ### Channels HR and CR -/

/-- R90, R95: the payload of a response is absent or has `N` bytes. -/
abbrev ResponsesOk (s : State) : Prop := ∀ r ∈ s.hr, r.rdata = [] ∨ r.rdata.length = s.N

/-- R101: the kind of a record is never `Ready`, its count is at most `N`, and `N` data bytes follow. -/
abbrev RecordsOk (s : State) : Prop := ∀ c ∈ s.cr, c.kind ≠ .ready ∧ c.count.toNat ≤ s.N ∧ c.data.length = s.N

/-! ### Channel PC -/

/-- A word the engine may put on PC: `op` 0x0 to 0x5 (R100: the others are never issued). -/
abbrev IssuedWord (w : PhyWord) : Prop := (codeOf w).toNat < 6

/-- The request a word of channel PC makes of the PHY: a START, SEND or RECV is answered by exactly one event, the other
commands by none (R141 (a)). -/
def requestOf (w : PhyWord) : Option PhyRequest :=
  match decode (.pc w) with
  | .ok (.start _ _) => some .address
  | .ok (.send _) => some .sendByte
  | .ok (.recv ack) => some (.receiveByte ack)
  | _ => none

/-- The requests still to be answered once the PHY works off the commands of PC, an ENABLE abandoning all before it
(R140). -/
def owedAfter : List PhyRequest → List PhyWord → List PhyRequest
  | rs, [] => rs
  | rs, w :: ws => if isEnable w then owedAfter [] ws else owedAfter (rs ++ (requestOf w).toList) ws

/-- The requests the PHY has still to answer. -/
def owedRequests (s : State) : List PhyRequest := owedAfter s.phy.outstanding.toList s.pc

/-- The answers still to be handled: owed by the PHY, raised on EV, or pending (R35, R40). -/
def answersOwed (s : State) : Nat := (owedRequests s).length + s.ev.length + s.evtPending.toList.length

/-- R40, last part, with R151: exactly one answer is owed in a busy state, none in `Ready`. -/
def OneAnswerOwed (s : State) : Prop := answersOwed s = if s.state = .ready then 0 else 1

/-! ### The invariant -/

/-- The invariant of the machine: R5, R6, R26, R32, R39, R40, R43, R62, R90, R93, R95, R100, R101, R197, R198. -/
structure Inv (s : State) : Prop where
  legalN : Config.LegalN s.N
  legalNPRIO : Config.LegalNPRIO s.NPRIO
  idxRange : s.idx.toNat ≤ s.N
  idxLen : s.idx.toNat ≤ s.len.toNat
  phase : PhaseOk s
  stored : StoredLengthsValid s
  readyEmpty : s.state = .ready → QueueEmpty s.queue
  hold : HoldOk s
  payloads : ∀ c ∈ s.hc ++ s.program.now ++ s.program.again, PayloadOk s.N c
  oneCommand : OneCommand s
  responses : ResponsesOk s
  records : RecordsOk s
  issued : ∀ w ∈ s.pc, IssuedWord w
  destWf : Memory.wf s.destMem = true

/-! ### The end of a transaction, as one record -/

/-- The response a host in `wait_done` gets when its transaction ends with error record `e` (R190 (c), R191, R192). -/
def heldResponses (e : ErrRec) (s : State) : List Response :=
  match s.hostWait with
  | .waitDone (.write _ _ _ _) => [⟨status e, 0#8, []⟩]
  | .waitDone (.readInto _ _ _) => [⟨0#8, s.idx, padTo s.N (s.draws + 1) (s.buf.take s.idx.toNat)⟩]
  | _ => []

/-- What the end of a transaction leaves before `dispatch()` runs: the error record, the last PHY command `w`, the
completion record, DEST for a read, the held host answered, `state` idle (R132, R133, R134, R63). The bytes of record and
response beyond `idx` are free values, two draws (log entry 16). Nothing else changes. -/
def endedBy (e : ErrRec) (w : PhyWord) (s : State) : State :=
  { s with
    err := e
    state := .ready
    pc := s.pc ++ [w]
    cr := s.cr ++ [⟨s.state, e, s.dest, s.idx, padTo s.N s.draws (s.buf.take s.idx.toNat)⟩]
    draws := s.draws + 2
    destMem :=
      if s.state = .masterReceive ∨ s.state = .masterTransmitThenReceive then (deliver s).destMem else s.destMem
    hr := s.hr ++ heldResponses e s
    hostWait := if heldResponses e s = [] then s.hostWait else .idle }

/-! ### The PHY contract (R141) -/

/-- The requests the engine can have made in its present phase (R131, R142, R144, R146, R147). -/
def RequestFits (s : State) : PhyRequest → Prop
  | .address => s.state ≠ .ready
  | .sendByte =>
    s.state = .masterTransmit ∨ s.state = .masterTransmitThenReceive ∨
      (s.state = .masterReadModifyWrite ∧ s.dir = 0#1)
  | .receiveByte ack =>
    (s.state = .masterReceive ∧ ack = moreExpected s) ∨
      (s.state = .masterReadModifyWrite ∧ s.dir = 1#1 ∧ ack = false)

/-- Every request still to be answered, and the pending event, belong to the engine's present phase. -/
structure ContractKept (s : State) : Prop where
  requests : ∀ r ∈ owedRequests s, RequestFits s r
  pending : ∀ w, s.evtPending = some w → ∃ r, RequestFits s r ∧ answerAllowed r w = true
  channelEmpty : s.ev = []

/-- R141 (a), (d): the next answer of the bus is one that may answer the outstanding request. -/
def NextAnswerAllowed (s : State) : Prop :=
  ∀ r w rest, s.phy.outstanding = some r → takeNext s.answers = some (w, rest) → answerAllowed r w = true

/-! ### Runs -/

/-- No contract on the caller or on the PHY is broken: the spec gives such a run its whole meaning (U1, U2, U3). -/
def Sound (s : State) : Prop := s.marks = ⟨false, false, false⟩

/-- The end of a run (R336). -/
def Quiescent (s : State) : Prop :=
  s.state = .ready ∧ QueueEmpty s.queue ∧ s.evtPending = none ∧ s.hostWait = .idle ∧ s.hc = [] ∧ answersOwed s = 0

/-- Runs operations one after another, stopping at the first stop. -/
def execAll : List Instr → State → Result
  | [], s => .next s
  | i :: is, s =>
    match exec i s with
    | .next t => execAll is t
    | .fault r => .fault r
    | .refused r => .refused r

/-- Runs steps, stopping at the first stop. -/
def runSteps : Nat → State → Result
  | 0, s => .next s
  | n + 1, s =>
    match step s with
    | .next t => runSteps n t
    | .fault r => .fault r
    | .refused r => .refused r

end Sys2Proof.Machine
end

