-- ==== Sys2Proof/Certificates/Slice0/Obligations.lean ====
section
/-! DEFINITION. The statements for the provers. `noteUse` and `notePhy`, where they stand, set one of the model's own marks
(log entry 6) and change nothing else. -/

open Sys2Proof Sys2Proof.Machine

/-! ### Encoding -/

/-- R91 to R93, R99, R100: no bit of an encoding is dropped; every operand at every value the encoding admits. -/
def Obligations.DecodeOfEncodeIsTheInstruction : Prop :=
  ∀ i : Instr, decode (encode i) = .ok i

/-- R91: the fields of a host command word stand where the table puts them, and they make up the whole word but bit 24. -/
def Obligations.HostWordFieldsMakeUpTheWord : Prop :=
  (∀ op wait prio sla reg a b,
    let w := hostWord op wait prio sla reg a b
    HostHeader.op w = op ∧ HostHeader.wait w = wait ∧ HostHeader.prio w = prio ∧ HostHeader.sla w = sla ∧
      HostHeader.reg w = reg ∧ HostHeader.a w = a ∧ HostHeader.b w = b ∧ w.getLsbD 24 = false) ∧
  (∀ w : HostHeader, w.getLsbD 24 = false →
    hostWord (HostHeader.op w) (HostHeader.wait w) (HostHeader.prio w) (HostHeader.sla w) (HostHeader.reg w)
      (HostHeader.a w) (HostHeader.b w) = w)

/-- R103: exactly the reserved operation numbers are rejected, each by its name and number. -/
def Obligations.ReservedNumbersAreRejectedByName : Prop :=
  (∀ w d, if (HostHeader.op w).toNat < 9 then ∃ i, decode (.hc w d) = .ok i
    else decode (.hc w d) = .error (.hostCommand (HostHeader.op w))) ∧
  (∀ w, if (codeOf w).toNat < 8 then ∃ i, decode (.ev w) = .ok i else decode (.ev w) = .error (.event (codeOf w))) ∧
  (∀ w, if (codeOf w).toNat < 6 then ∃ i, decode (.pc w) = .ok i
    else decode (.pc w) = .error (.phyCommand (codeOf w)))

/-- R108: the encoding examples. -/
def Obligations.WordsOfTheSpecDecodeAsItSays : Prop :=
  (∀ d, decode (.hc 0x1840000200#40 d) = .ok (.write true 0x20#7 2#8 d)) ∧
  (∀ d, decode (.hc 0x5040120F0F#40 d) = .ok (.rmwReg 0x20#7 0x12#8 0x0F#8 0x0F#8)) ∧
  (∀ d, decode (.hc 0x6140130107#40 d) = .ok (.enqRead 1#3 0x20#7 0x13#8 1#8 7#8)) ∧
  decode (.ev 0x5F0#12) = .ok (.rxNack 0xF0#8) ∧
  decode (.pc 0x041#12) = .ok (.start 0x20#7 1#1) ∧
  decode (.pc 0x201#12) = .ok (.recv true)

/-! ### Reset -/

/-- R320, R41: what hardware reset leaves, in every build. -/
def Obligations.ResetLeavesTheSpecifiedValues : Prop :=
  ∀ n nprio, let s := State.resetOf n nprio
    s.N = n ∧ s.NPRIO = nprio ∧ s.inited = false ∧ s.state = .ready ∧ QueueEmpty s.queue ∧ s.err = .noErr ∧
      s.idx = 0#8 ∧ s.evtPending = none ∧ s.hostWait = .idle ∧ s.phy.enabled = false ∧ s.phy.outstanding = none ∧
      s.hc = [] ∧ s.hr = [] ∧ s.ev = [] ∧ s.pc = [] ∧ s.cr = []

/-- R320: the reset input, from every state. That DEST and the program are kept is log entry 11. -/
def Obligations.ResetInputResetsTheMachine : Prop :=
  ∀ s : State, s.rst = true → ∃ t, step s = .next t ∧
    t.N = s.N ∧ t.NPRIO = s.NPRIO ∧ t.inited = false ∧ t.state = .ready ∧ QueueEmpty t.queue ∧ t.err = .noErr ∧
      t.idx = 0#8 ∧ t.evtPending = none ∧ t.hostWait = .idle ∧ t.phy.enabled = false ∧ t.phy.outstanding = none ∧
      t.hc = [] ∧ t.hr = [] ∧ t.ev = [] ∧ t.pc = [] ∧ t.cr = [] ∧ t.destMem = s.destMem ∧ t.program = s.program ∧
      t.rst = false

/-- The invariant holds after reset, in every legal build. -/
def Obligations.ResetEstablishesTheInvariant : Prop :=
  ∀ n nprio, Config.LegalN n → Config.LegalNPRIO nprio →
    Inv (State.resetOf n nprio) ∧ OneAnswerOwed (State.resetOf n nprio) ∧ ContractKept (State.resetOf n nprio)

/-! ### A step runs the decoded operation -/

/-- R130, R288: with an event pending the handler goes first, clears it and runs its event rule. -/
def Obligations.StepRunsThePendingEvent : Prop :=
  ∀ s w, s.rst = false → s.evtPending = some w →
    (∀ i, decode (.ev w) = .ok i → step s = exec i { s with evtPending := none }) ∧
    (∀ e, decode (.ev w) = .error e → step s = reservedEvent { s with evtPending := none })

/-- R190, R197: on the host's turn the command on HC runs if none is held; with HC empty the next command of the program is
sent; a held claim runs its command again once `state = Ready`; otherwise the host stands still. Whose turn it is and what
the program holds are inputs, and sending and running are two steps (log entry 2); no step of the host takes a word off HR
or CR (log entry 17). -/
def Obligations.StepRunsTheHostCommand : Prop :=
  ∀ (s : State) ts, s.rst = false → s.evtPending = none → s.ev = [] → takeNext s.turns = some (.host, ts) →
    (∀ c rest i, s.hostWait = .idle → s.hc = c :: rest → decode (.hc c.header c.wdata) = .ok i →
      step s = exec i { s with turns := ts, hc := rest }) ∧
    (∀ c rest e, s.hostWait = .idle → s.hc = c :: rest → decode (.hc c.header c.wdata) = .error e →
      step s = reservedCommand { s with turns := ts, hc := rest }) ∧
    (∀ c rest, s.hostWait = .idle → s.hc = [] → takeNext s.program = some (c, rest) →
      step s = .next { s with turns := ts, program := rest, hc := [c] }) ∧
    (∀ cmd, s.hostWait = .waitReady cmd → s.state = .ready →
      step s = exec cmd { s with turns := ts, hostWait := .idle }) ∧
    (∀ cmd, s.hostWait = .waitReady cmd → s.state ≠ .ready → step s = .next { s with turns := ts }) ∧
    (∀ cmd, s.hostWait = .waitDone cmd → step s = .next { s with turns := ts })

/-- R71, R140: on the PHY's turn the next command of channel PC runs when nothing is outstanding; an ENABLE waiting in
PC abandons what stands before it. A disabled PHY does nothing. Whose turn it is is an input (log entry 2). That the bus
tenure is unknown whenever anything, be it a STOP, stands before the ENABLE is the model's reading of R140 (log entries 8
and 15, DEDUCED), and that a disabled PHY leaves the words in PC is log entry 14 (DESIGN CHOICE). -/
def Obligations.StepRunsThePhyCommand : Prop :=
  ∀ (s : State) ts, s.rst = false → s.evtPending = none → s.ev = [] → takeNext s.turns = some (.phy, ts) →
    (∀ w rest i, s.phy.enabled = true → s.phy.outstanding = none → s.pc = w :: rest →
      (∀ v ∈ s.pc, isEnable v = false) → decode (.pc w) = .ok i →
      step s = exec i { s with turns := ts, pc := rest }) ∧
    (∀ before w rest, s.pc = before ++ w :: rest → (∀ v ∈ before, isEnable v = false) → isEnable w = true →
      step s = exec .enable
        { s with
          turns := ts, pc := rest
          phy := if before = [] then s.phy else { s.phy with bus := .unknown } }) ∧
    (s.phy.enabled = false → (∀ v ∈ s.pc, isEnable v = false) → step s = .next { s with turns := ts })

/-- R141, R285: the PHY answers an outstanding request with the next event the bus gives, which becomes pending; without
an answer it stands still (R331). Turn and answer are inputs (log entry 2); that the acknowledge bit or the received byte
enters the log of the wires at this moment, and that an ARB_LOST or a BUS_ERROR adds nothing to it, is log entry 13 (DESIGN
CHOICE). -/
def Obligations.PhyRaisesTheAnswer : Prop :=
  ∀ (s : State) ts r, s.rst = false → s.evtPending = none → s.ev = [] → takeNext s.turns = some (.phy, ts) →
    s.phy.enabled = true → s.phy.outstanding = some r → (∀ v ∈ s.pc, isEnable v = false) →
    (∀ w rest, takeNext s.answers = some (w, rest) → answerAllowed r w = true →
      step s = .next
        { s with
          turns := ts, answers := rest, evtPending := some w
          phy := { s.phy with outstanding := none }, wire := s.wire ++ wireOfEvent w }) ∧
    (takeNext s.answers = none → step s = .next { s with turns := ts })

/-! ### Invariants every step keeps -/

/-- R5, R26, R32, R39, R40, R43, R62, R90, R95, R101, R197, R198: the invariant of the machine. That records and responses
stay on CR and HR is log entry 17, that the reset keeps DEST and the program log entry 11. -/
def Obligations.EveryStepKeepsTheInvariant : Prop :=
  ∀ s t : State, Inv s → step s = .next t → Inv t

/-- R39. -/
def Obligations.ReadyMeansEveryStepLeavesTheQueueEmpty : Prop :=
  ∀ s t : State, Inv s → step s = .next t → t.state = .ready → QueueEmpty t.queue

/-- R40, R35: exactly one answer is owed in a busy state and none in `Ready`. -/
def Obligations.EveryStepKeepsOneAnswerOwed : Prop :=
  ∀ s t : State, Inv s → OneAnswerOwed s → step s = .next t → OneAnswerOwed t

/-- R150, R151: under the PHY contract no unexpected event and no event in `Ready` occurs. -/
def Obligations.ContractKeepingPhyCausesNoUnexpectedEvent : Prop :=
  ∀ s t : State, Inv s → OneAnswerOwed s → ContractKept s → NextAnswerAllowed s → step s = .next t →
    ContractKept t ∧ t.marks.phyContract = s.marks.phyContract

/-- R290, R280: from a state that meets the invariant, no step stops the machine. -/
def Obligations.NoStepStopsTheMachine : Prop :=
  ∀ s : State, Inv s → ∃ t, step s = .next t

/-- R5, R6: the build parameters are fixed. -/
def Obligations.StepsKeepTheBuildParameters : Prop :=
  ∀ s t : State, step s = .next t → t.N = s.N ∧ t.NPRIO = s.NPRIO

/-- R36, R42: `inited` is never cleared but by hardware reset. -/
def Obligations.InitedIsNeverCleared : Prop :=
  ∀ s t : State, s.rst = false → step s = .next t → s.inited = true → t.inited = true

/-- R22, R331: a busy state is left only by the handler, INIT or reset; no step leaves it without an event. -/
def Obligations.BusyIsLeftOnlyByEventInitOrReset : Prop :=
  ∀ s t : State, step s = .next t → s.state ≠ .ready → t.state ≠ s.state →
    s.rst = true ∨ s.evtPending ≠ none ∨
      ∃ c rest, s.hostWait = .idle ∧ s.hc = c :: rest ∧ decode (.hc c.header c.wdata) = .ok .init

/-- R77, R326: while `state` is busy nothing but the handler writes the buffer and the transaction registers. -/
def Obligations.OnlyTheHandlerWritesTheBusyTransaction : Prop :=
  ∀ s t : State, step s = .next t → s.rst = false → s.evtPending = none → s.state ≠ .ready →
    t.buf = s.buf ∧ t.len = s.len ∧ t.sla = s.sla ∧ t.dir = s.dir ∧ t.reg = s.reg ∧ t.rmwData = s.rmwData ∧
      t.rmwMask = s.rmwMask ∧ t.dest = s.dest

/-- R62, R63: DEST and channel CR are written only by an event rule (they end a transaction); a reset empties CR. That a
reset keeps DEST is log entry 11 (DESIGN CHOICE), and that CR keeps every record, so that no host step takes one off, is log
entry 17 (DESIGN CHOICE). -/
def Obligations.DestIsWrittenOnlyByTheHandler : Prop :=
  ∀ s t : State, step s = .next t → s.evtPending = none →
    t.destMem = s.destMem ∧ (s.rst = false → t.cr = s.cr)

/-- R34 (b), R242: outside the handler an occupied slot of a busy engine keeps its request, but for INIT and reset. -/
def Obligations.OccupiedSlotKeepsItsRequestWhileBusy : Prop :=
  ∀ (s t : State) (p : Nat) (l : Level), step s = .next t → s.rst = false → s.evtPending = none → s.state ≠ .ready →
    t.state ≠ .ready → s.queue[p]? = some l →
    ∃ l', t.queue[p]? = some l' ∧ (l.rq ≠ none → l'.rq = l.rq) ∧ (l.wq ≠ none → l'.wq = l.wq)

/-- R336: once the program has no command left, the end of a run is final: what a step may still do (a STOP for the PHY to
perform, a reset) leaves the machine quiescent. The program as an input is log entry 2, and that a reset keeps it, here
ended, is log entry 11 (DESIGN CHOICE). -/
def Obligations.QuiescentMachineStaysQuiescent : Prop :=
  ∀ s t : State, Quiescent s → takeNext s.program = none → step s = .next t →
    Quiescent t ∧ takeNext t.program = none

/-! ### System commands -/

/-- R270: INIT, in every state. That `host_wait` is none after it is R41 as log entry 15 reads it, and the mark is log entry
6. -/
def Obligations.InitSetsTheEngineIdle : Prop :=
  ∀ s : State, exec .init s = .next
    { s with
      state := .ready, queue := List.replicate s.queue.length ⟨none, none⟩, err := .noErr, idx := 0#8
      evtPending := none, inited := true, hostWait := .idle
      pc := s.pc ++ [0x500#12], hr := s.hr ++ [⟨0#8, 0#8, []⟩]
      marks := ⟨s.marks.usedBeforeInit, s.marks.initWhileBusy || decide (s.state ≠ .ready), s.marks.phyContract⟩ }

/-- R271, R98: POLL answers `state`, `err` and `idx` and changes nothing. -/
def Obligations.PollReportsTheRegisters : Prop :=
  ∀ s : State, ∃ code : Byte,
    exec .poll s = .next { s with hr := s.hr ++ [⟨code, s.idx, []⟩] } ∧
      code.extractLsb' 0 3 = busCode s.state ∧ code.extractLsb' 3 3 = errCode s.err ∧ code.extractLsb' 6 2 = 0#2

/-- R21, R24, R97: the encodings of `state` and `err`, and the status of a blocking write. -/
def Obligations.StateErrorAndStatusNumbers : Prop :=
  (busCode .ready = 0#3 ∧ busCode .masterTransmit = 1#3 ∧ busCode .masterReceive = 2#3 ∧
    busCode .masterTransmitThenReceive = 3#3 ∧ busCode .masterReadModifyWrite = 4#3) ∧
  (errCode .noErr = 0#3 ∧ errCode .addrNack = 1#3 ∧ errCode .dataNack = 2#3 ∧ errCode .arbLost = 3#3 ∧
    errCode .busProtocolError = 4#3) ∧
  (status .noErr = 0#8 ∧ status .addrNack = 2#8 ∧ status .dataNack = 3#8 ∧ status .arbLost = 4#8 ∧
    status .busProtocolError = 4#8) ∧
  (∀ x, (busCode x).toNat < 5) ∧ (∀ e, (errCode e).toNat < 5)

/-- R272: a command word with `op` 0x9 to 0xF is answered -2 and changes nothing else; `noteUse` is log entry 6. -/
def Obligations.ReservedCommandIsAnsweredOtherError : Prop :=
  ∀ (s : State) (c : HostCommand), 9 ≤ (HostHeader.op c.header).toNat →
    runHostCommand c s = .next { noteUse s with hr := s.hr ++ [⟨0xFE#8, 0#8, []⟩] }

/-! ### Transfer commands -/

/-- R191, R131: the claim of WRITE, answered at once or held for its completion. -/
def Obligations.WriteClaimsAtReady : Prop :=
  ∀ (s : State) wait sla (len : Byte) (wdata : List Byte),
    s.state = .ready → 1 ≤ len.toNat → len.toNat ≤ s.N → len.toNat ≤ wdata.length →
    exec (.write wait sla len wdata) s = .next
      { noteUse s with
        state := .masterTransmit, err := .noErr, idx := 0#8, sla := sla, dir := 0#1, len := len
        buf := wdata.take len.toNat ++ s.buf.drop len.toNat
        pc := s.pc ++ [0x0#4 ++ (sla ++ 0#1)]
        hostWait := if wait then .waitDone (.write wait sla len wdata) else s.hostWait
        hr := if wait then s.hr else s.hr ++ [⟨0#8, 0#8, []⟩] }

/-- R191, R195: WRITE of an invalid length is answered 1 at once; with a valid one it is held while `state` is busy. A
payload shorter than the length, which no HC word has, faults: that stop is log entry 10 (DESIGN CHOICE). -/
def Obligations.WriteRejectsOrWaits : Prop :=
  ∀ (s : State) wait sla (len : Byte) (wdata : List Byte),
    (len = 0#8 ∨ s.N < len.toNat →
      exec (.write wait sla len wdata) s = .next { noteUse s with hr := s.hr ++ [⟨1#8, 0#8, []⟩] }) ∧
    (1 ≤ len.toNat → len.toNat ≤ s.N → s.state ≠ .ready →
      exec (.write wait sla len wdata) s =
        .next { noteUse s with hostWait := .waitReady (.write wait sla len wdata) }) ∧
    (1 ≤ len.toNat → len.toNat ≤ s.N → s.state = .ready → wdata.length < len.toNat →
      exec (.write wait sla len wdata) s = .fault .payloadRange)

/-- R192, R131: READ_INTO claims at `Ready` and is held for its completion; it is held while busy; an invalid length is
answered with count 0 and a payload of unspecified bytes (log entry 16). -/
def Obligations.ReadIntoClaimsRejectsOrWaits : Prop :=
  ∀ (s : State) sla (len dest : Byte),
    (1 ≤ len.toNat → len.toNat ≤ s.N → s.state = .ready →
      exec (.readInto sla len dest) s = .next
        { noteUse s with
          state := .masterReceive, err := .noErr, idx := 0#8, sla := sla, dir := 1#1, len := len, dest := dest
          pc := s.pc ++ [0x0#4 ++ (sla ++ 1#1)], hostWait := .waitDone (.readInto sla len dest) }) ∧
    (1 ≤ len.toNat → len.toNat ≤ s.N → s.state ≠ .ready →
      exec (.readInto sla len dest) s = .next { noteUse s with hostWait := .waitReady (.readInto sla len dest) }) ∧
    (len = 0#8 ∨ s.N < len.toNat →
      exec (.readInto sla len dest) s = .next
        { noteUse s with hr := s.hr ++ [⟨0#8, 0#8, padTo s.N s.draws []⟩], draws := s.draws + 1 })

/-- R193, R131; `noteUse` is log entry 6. -/
def Obligations.NbReadIntoClaimsOrAnswersBusy : Prop :=
  ∀ (s : State) sla (len dest : Byte),
    (1 ≤ len.toNat → len.toNat ≤ s.N → s.state = .ready →
      exec (.nbReadInto sla len dest) s = .next
        { noteUse s with
          state := .masterReceive, err := .noErr, idx := 0#8, sla := sla, dir := 1#1, len := len, dest := dest
          pc := s.pc ++ [0x0#4 ++ (sla ++ 1#1)], hr := s.hr ++ [⟨0#8, 0#8, []⟩] }) ∧
    (1 ≤ len.toNat → len.toNat ≤ s.N → s.state ≠ .ready →
      exec (.nbReadInto sla len dest) s = .next { noteUse s with hr := s.hr ++ [⟨0xFF#8, 0#8, []⟩] }) ∧
    (len = 0#8 ∨ s.N < len.toNat →
      exec (.nbReadInto sla len dest) s = .next { noteUse s with hr := s.hr ++ [⟨0xFE#8, 0#8, []⟩] })

/-- R194, R131; `noteUse` is log entry 6. -/
def Obligations.NbReadRegClaimsOrAnswersBusy : Prop :=
  ∀ (s : State) sla (reg len dest : Byte),
    (1 ≤ len.toNat → len.toNat ≤ s.N → s.state = .ready →
      exec (.nbReadReg sla reg len dest) s = .next
        { noteUse s with
          state := .masterTransmitThenReceive, err := .noErr, idx := 0#8, sla := sla, dir := 0#1, reg := reg
          len := len, dest := dest
          pc := s.pc ++ [0x0#4 ++ (sla ++ 0#1)], hr := s.hr ++ [⟨0#8, 0#8, []⟩] }) ∧
    (1 ≤ len.toNat → len.toNat ≤ s.N → s.state ≠ .ready →
      exec (.nbReadReg sla reg len dest) s = .next { noteUse s with hr := s.hr ++ [⟨0xFF#8, 0#8, []⟩] }) ∧
    (len = 0#8 ∨ s.N < len.toNat →
      exec (.nbReadReg sla reg len dest) s = .next { noteUse s with hr := s.hr ++ [⟨0xFE#8, 0#8, []⟩] })

/-! ### Read-modify-write -/

/-- R220, R131; `noteUse` is log entry 6. -/
def Obligations.RmwRegClaimsOrAnswersBusy : Prop :=
  ∀ (s : State) sla (reg data mask : Byte),
    (s.state = .ready →
      exec (.rmwReg sla reg data mask) s = .next
        { noteUse s with
          state := .masterReadModifyWrite, err := .noErr, idx := 0#8, sla := sla, dir := 0#1, reg := reg, len := 1#8
          rmwData := data, rmwMask := mask
          pc := s.pc ++ [0x0#4 ++ (sla ++ 0#1)], hr := s.hr ++ [⟨0#8, 0#8, []⟩] }) ∧
    (s.state ≠ .ready →
      exec (.rmwReg sla reg data mask) s = .next { noteUse s with hr := s.hr ++ [⟨0xFF#8, 0#8, []⟩] })

/-- R221: bit by bit, the merge takes `data` where the mask is 1 and `old` where it is 0. -/
def Obligations.MergeTakesMaskedBitsFromData : Prop :=
  ∀ (old data mask : Byte) (i : Nat),
    (merge old data mask).getLsbD i = if mask.getLsbD i then data.getLsbD i else old.getLsbD i

/-! ### The queue -/

/-- R240: ENQ_READ, its rejections in the order of the checks, and `dispatch()` (R243) when it finds `Ready`;
`noteUse` is log entry 6. -/
def Obligations.EnqReadStoresOrRejects : Prop :=
  ∀ (s : State) (prio : Prio) sla (reg len dest : Byte),
    (s.NPRIO ≤ prio.toNat →
      exec (.enqRead prio sla reg len dest) s = .next { noteUse s with hr := s.hr ++ [⟨0xFE#8, 0#8, []⟩] }) ∧
    (prio.toNat < s.NPRIO → len = 0#8 ∨ s.N < len.toNat →
      exec (.enqRead prio sla reg len dest) s = .next { noteUse s with hr := s.hr ++ [⟨0xFE#8, 0#8, []⟩] }) ∧
    (∀ l, s.queue[prio.toNat]? = some l → 1 ≤ len.toNat → len.toNat ≤ s.N → l.rq ≠ none →
      exec (.enqRead prio sla reg len dest) s = .next { noteUse s with hr := s.hr ++ [⟨0xFF#8, 0#8, []⟩] }) ∧
    (∀ l, s.queue[prio.toNat]? = some l → 1 ≤ len.toNat → len.toNat ≤ s.N → l.rq = none → s.state ≠ .ready →
      exec (.enqRead prio sla reg len dest) s = .next
        { noteUse s with
          queue := s.queue.set prio.toNat ⟨some ⟨sla, reg, dest, len⟩, l.wq⟩
          hr := s.hr ++ [⟨0#8, 0#8, []⟩] }) ∧
    (∀ l, s.queue[prio.toNat]? = some l → 1 ≤ len.toNat → len.toNat ≤ s.N → l.rq = none → s.state = .ready →
      exec (.enqRead prio sla reg len dest) s = .next
        { dispatch { noteUse s with queue := s.queue.set prio.toNat ⟨some ⟨sla, reg, dest, len⟩, l.wq⟩ } with
          hr := s.hr ++ [⟨0#8, 0#8, []⟩] })

/-- R241: ENQ_MWRITE, its rejections, and `dispatch()` (R243) when it finds `Ready`; `noteUse` is log entry 6. -/
def Obligations.EnqMwriteStoresOrRejects : Prop :=
  ∀ (s : State) (prio : Prio) sla (reg data mask : Byte),
    (s.NPRIO ≤ prio.toNat →
      exec (.enqMwrite prio sla reg data mask) s = .next { noteUse s with hr := s.hr ++ [⟨0xFE#8, 0#8, []⟩] }) ∧
    (∀ l, s.queue[prio.toNat]? = some l → l.wq ≠ none →
      exec (.enqMwrite prio sla reg data mask) s = .next { noteUse s with hr := s.hr ++ [⟨0xFF#8, 0#8, []⟩] }) ∧
    (∀ l, s.queue[prio.toNat]? = some l → l.wq = none → s.state ≠ .ready →
      exec (.enqMwrite prio sla reg data mask) s = .next
        { noteUse s with
          queue := s.queue.set prio.toNat ⟨l.rq, some ⟨sla, reg, data, mask⟩⟩
          hr := s.hr ++ [⟨0#8, 0#8, []⟩] }) ∧
    (∀ l, s.queue[prio.toNat]? = some l → l.wq = none → s.state = .ready →
      exec (.enqMwrite prio sla reg data mask) s = .next
        { dispatch { noteUse s with queue := s.queue.set prio.toNat ⟨l.rq, some ⟨sla, reg, data, mask⟩⟩ } with
          hr := s.hr ++ [⟨0#8, 0#8, []⟩] })

/-- R248: an enqueue in `Ready`, where every slot is empty (R39), is the non-blocking command with the same fields,
whatever the priority. -/
def Obligations.EnqueueWhileIdleStartsAtOnce : Prop :=
  ∀ (s : State) (prio : Prio) sla (reg len dest data mask : Byte),
    s.state = .ready → QueueEmpty s.queue → prio.toNat < s.NPRIO →
    exec (.enqRead prio sla reg len dest) s = exec (.nbReadReg sla reg len dest) s ∧
    exec (.enqMwrite prio sla reg data mask) s = exec (.rmwReg sla reg data mask) s

/-- R243, R244, R247: the first level that is not empty is started, its read before its masked write; its slot is emptied
in the same step and every other slot keeps its request; with every slot empty nothing happens. -/
def Obligations.DispatchIsPriorityMajor : Prop :=
  ∀ s : State,
    (QueueEmpty s.queue → dispatch s = s) ∧
    (∀ p l, s.queue[p]? = some l → QueueEmpty (s.queue.take p) →
      (∀ r, l.rq = some r →
        dispatch s =
          { s with
            queue := s.queue.set p ⟨none, l.wq⟩
            state := .masterTransmitThenReceive, err := .noErr, idx := 0#8, sla := r.sla, dir := 0#1, reg := r.reg
            len := r.len, dest := r.dest, pc := s.pc ++ [0x0#4 ++ (r.sla ++ 0#1)] }) ∧
      (∀ w, l.rq = none → l.wq = some w →
        dispatch s =
          { s with
            queue := s.queue.set p ⟨none, none⟩
            state := .masterReadModifyWrite, err := .noErr, idx := 0#8, sla := w.sla, dir := 0#1, reg := w.reg
            len := 1#8, rmwData := w.data, rmwMask := w.mask, pc := s.pc ++ [0x0#4 ++ (w.sla ++ 0#1)] }))

/-! ### Event rules. `endedBy` is the end of a transaction before `dispatch()` (R132, R133), `dispatch` is R243. `endedBy`
takes two draws and fills record and response up to `N` bytes with free values, and a record of
kind `MT` or `MRMW` has the register `dest` as its `dest` (R63; R101, U5: any value): log entry 16 (DESIGN CHOICE) -/

/-- R142, R144: in `MT` an acknowledge sends the next byte, or ends the write after the last one. The draws and free
bytes of that end are log entry 16, the stop beyond BUF log entry 10 (DESIGN CHOICE). -/
def Obligations.AcknowledgeInTransmitSendsOrEnds : Prop :=
  ∀ s : State, s.state = .masterTransmit →
    (∀ b, s.idx.toNat < s.len.toNat → s.buf[s.idx.toNat]? = some b →
      exec .addrAck s = .next { s with idx := s.idx + 1#8, pc := s.pc ++ [0x1#4 ++ b] } ∧
      exec .dataAck s = .next { s with idx := s.idx + 1#8, pc := s.pc ++ [0x1#4 ++ b] }) ∧
    (s.len.toNat ≤ s.idx.toNat → s.idx.toNat ≤ s.N →
      exec .addrAck s = .next (dispatch (endedBy s.err 0x300#12 s)) ∧
      exec .dataAck s = .next (dispatch (endedBy s.err 0x300#12 s))) ∧
    (s.idx.toNat < s.len.toNat → s.N ≤ s.idx.toNat →
      exec .addrAck s = .fault .bufferRange ∧ exec .dataAck s = .fault .bufferRange)

/-- R142: ADDR_ACK in the other busy states. -/
def Obligations.AddressAckSendsRegisterOrReceives : Prop :=
  ∀ s : State,
    (s.state = .masterTransmitThenReceive ∨ (s.state = .masterReadModifyWrite ∧ s.dir = 0#1) →
      exec .addrAck s = .next { s with pc := s.pc ++ [0x1#4 ++ s.reg] }) ∧
    (s.state = .masterReceive →
      exec .addrAck s = .next
        { s with pc := s.pc ++ [if s.idx.toNat + 2 ≤ s.len.toNat then 0x201#12 else 0x200#12] }) ∧
    (s.state = .masterReadModifyWrite → s.dir = 1#1 → exec .addrAck s = .next { s with pc := s.pc ++ [0x200#12] })

/-- R144: after the register address is acknowledged, a full stop and a start in the receive direction. -/
def Obligations.DataAckTurnsTheBusAround : Prop :=
  ∀ s : State,
    (s.state = .masterTransmitThenReceive →
      exec .dataAck s = .next
        { s with state := .masterReceive, dir := 1#1, idx := 0#8, pc := s.pc ++ [0x300#12, 0x0#4 ++ (s.sla ++ 1#1)] }) ∧
    (s.state = .masterReadModifyWrite → s.dir = 0#1 →
      exec .dataAck s = .next { s with dir := 1#1, idx := 0#8, pc := s.pc ++ [0x300#12, 0x0#4 ++ (s.sla ++ 1#1)] })

/-- R146: a received byte that is not the last is stored and the next one asked for; the stop beyond BUF is log entry 10
(DESIGN CHOICE). -/
def Obligations.RxAckStoresAndAsksForTheNext : Prop :=
  ∀ (s : State) (b : Byte), s.state = .masterReceive → s.idx.toNat + 2 ≤ s.len.toNat →
    (s.idx.toNat < s.N →
      exec (.rxAck b) s = .next
        { s with
          buf := s.buf.set s.idx.toNat b, idx := s.idx + 1#8
          pc := s.pc ++ [if s.idx.toNat + 3 ≤ s.len.toNat then 0x201#12 else 0x200#12] }) ∧
    (s.N ≤ s.idx.toNat → exec (.rxAck b) s = .fault .bufferRange)

/-- R147: the final byte is stored and the read ends with a stop. The draws and free bytes of that end are log entry 16, the
stop beyond BUF log entry 10 (DESIGN CHOICE). -/
def Obligations.RxNackStoresTheLastByteAndEnds : Prop :=
  ∀ (s : State) (b : Byte), s.state = .masterReceive → s.idx.toNat + 1 = s.len.toNat →
    (s.idx.toNat < s.N →
      exec (.rxNack b) s = .next
        (dispatch (endedBy s.err 0x300#12 { s with buf := s.buf.set s.idx.toNat b, idx := s.idx + 1#8 }))) ∧
    (s.N ≤ s.idx.toNat → exec (.rxNack b) s = .fault .bufferRange)

/-- R147, R221, R222: the byte of a read-modify-write is merged, the buffer restaged, and a repeated start issued with no
stop before it; the transaction goes on. The stop on a buffer of fewer than two bytes is log entry 10 (DESIGN CHOICE). -/
def Obligations.RxNackMergesAndWritesBack : Prop :=
  ∀ (s : State) (old : Byte), s.state = .masterReadModifyWrite → s.dir = 1#1 →
    (2 ≤ s.N →
      exec (.rxNack old) s = .next
        { s with
          buf := s.reg :: ((old &&& ~~~s.rmwMask) ||| (s.rmwData &&& s.rmwMask)) :: s.buf.drop 2
          len := 2#8, idx := 0#8, dir := 0#1, state := .masterTransmit
          pc := s.pc ++ [0x0#4 ++ (s.sla ++ 0#1)] }) ∧
    (s.N < 2 → exec (.rxNack old) s = .fault .bufferRange)

/-- R143, R145, R148, R149, R132: the error events end the transaction of a busy engine; the draws and free bytes of that
end are log entry 16 (DESIGN CHOICE). -/
def Obligations.ErrorEventsEndTheTransaction : Prop :=
  ∀ s : State, s.state ≠ .ready → s.idx.toNat ≤ s.N →
    exec .addrNack s = .next (dispatch (endedBy .addrNack 0x300#12 s)) ∧
    (s.state = .masterTransmit ∨ s.state = .masterTransmitThenReceive ∨
        (s.state = .masterReadModifyWrite ∧ s.dir = 0#1) →
      exec .dataNack s = .next (dispatch (endedBy .dataNack 0x300#12 s))) ∧
    exec .arbLost s = .next (dispatch (endedBy .arbLost 0x400#12 s)) ∧
    exec .busError s = .next (dispatch (endedBy .busProtocolError 0x300#12 s))

/-- R61, R290: no access beyond BUF exists, and every (state, event) pair has a rule. Whatever would end a transaction with
`idx` beyond `N`, which no run reaches (R26), stops the machine by name (log entry 10, DESIGN CHOICE); with `idx` and `len`
within `N` no event stops it. -/
def Obligations.EndBeyondTheBufferFaults : Prop :=
  (∀ (s : State) (b : Byte), s.state ≠ .ready → s.N < s.idx.toNat →
    exec .addrNack s = .fault .bufferRange ∧ exec .dataNack s = .fault .bufferRange ∧
    exec .arbLost s = .fault .bufferRange ∧ exec .busError s = .fault .bufferRange ∧
    exec (.rxAck b) s = .fault .bufferRange ∧ reservedEvent s = .fault .bufferRange ∧
    (s.state = .masterTransmit → exec .addrAck s = .fault .bufferRange) ∧
    (s.state = .masterTransmit ∨ s.state = .masterReceive ∨ (s.state = .masterReadModifyWrite ∧ s.dir = 1#1) →
      exec .dataAck s = .fault .bufferRange) ∧
    (s.state = .masterTransmit ∨ s.state = .masterTransmitThenReceive ∨ s.state = .masterReceive ∨
        (s.state = .masterReadModifyWrite ∧ s.dir = 0#1) →
      exec (.rxNack b) s = .fault .bufferRange)) ∧
  (∀ (s : State) (i : Instr), i.channel = .ev → s.idx.toNat ≤ s.N → s.len.toNat ≤ s.N → 2 ≤ s.N →
    (∃ t, exec i s = .next t) ∧ ∃ t, reservedEvent s = .next t)

/-- R150: an event that does not fit the busy state is handled as a bus error and its byte is not stored; `notePhy` is log
entry 6, and the draws and free bytes of that end are log entry 16 (DESIGN CHOICE). -/
def Obligations.UnexpectedEventsAreBusProtocolErrors : Prop :=
  ∀ (s : State) (b : Byte), s.idx.toNat ≤ s.N →
    let r := dispatch (endedBy .busProtocolError 0x300#12 (notePhy s))
    (s.state = .masterReceive ∨ (s.state = .masterReadModifyWrite ∧ s.dir = 1#1) →
      exec .dataAck s = .next r ∧ exec .dataNack s = .next r) ∧
    (s.state = .masterTransmit ∨ s.state = .masterTransmitThenReceive ∨ s.state = .masterReadModifyWrite ∨
        (s.state = .masterReceive ∧ s.len.toNat < s.idx.toNat + 2) →
      exec (.rxAck b) s = .next r) ∧
    (s.state = .masterTransmit ∨ s.state = .masterTransmitThenReceive ∨
        (s.state = .masterReadModifyWrite ∧ s.dir = 0#1) ∨
        (s.state = .masterReceive ∧ s.idx.toNat + 1 ≠ s.len.toNat) →
      exec (.rxNack b) s = .next r) ∧
    (s.state ≠ .ready → reservedEvent s = .next r)

/-- R151: an event in `Ready` is discarded; `notePhy` is log entry 6. -/
def Obligations.EventsInReadyAreDiscarded : Prop :=
  ∀ (s : State) (b : Byte), s.state = .ready →
    (∀ i ∈ [Instr.addrAck, .addrNack, .dataAck, .dataNack, .rxAck b, .rxNack b, .arbLost, .busError],
      exec i s = .next (notePhy s)) ∧
    reservedEvent s = .next (notePhy s)

/-- R134, R62: what the end of a read delivers: the count and the bytes received under the request's tag, and no other
byte of DEST changes. -/
def Obligations.EndOfAReadDeliversCountAndBytes : Prop :=
  ∀ (s : State) e w, s.idx.toNat ≤ s.N → s.N ≤ 255 →
    s.state = .masterReceive ∨ s.state = .masterTransmitThenReceive →
    let t := endedBy e w s
    destCount t s.dest = some s.idx ∧
    (∀ i, i < s.idx.toNat → destData t s.dest i = s.buf[i]?) ∧
    (∀ i, s.idx.toNat ≤ i → destData t s.dest i = destData s s.dest i) ∧
    (∀ a, a ≠ countAddr s.dest → (∀ i, i < s.idx.toNat → a ≠ dataAddr s.dest i) →
      Memory.read t.destMem a = Memory.read s.destMem a)

/-- R190 (c), R198: a blocking command is answered in the step that ends its own transaction, and then the engine is idle
with an empty queue. The bytes of a response beyond its count are unspecified (log entry 16); that nothing leaves HR or CR
meanwhile is log entry 17. -/
def Obligations.BlockingCommandEndsWithAnIdleEngine : Prop :=
  ∀ (s t : State) cmd, Inv s → s.rst = false → s.hostWait = .waitDone cmd → step s = .next t →
    (t.hostWait = s.hostWait ∧ t.hr = s.hr ∧ t.cr = s.cr) ∨
    (t.hostWait = .idle ∧ t.state = .ready ∧ QueueEmpty t.queue ∧
      ∃ c, t.cr = s.cr ++ [c] ∧
        if c.kind = .masterReceive then
          ∃ rdata, t.hr = s.hr ++ [⟨0#8, c.count, rdata⟩] ∧ rdata.length = s.N ∧
            rdata.take c.count.toNat = c.data.take c.count.toNat
        else t.hr = s.hr ++ [⟨status c.err, 0#8, []⟩])

/-! ### PHY commands -/

/-- R135, R107: START on an enabled PHY: a plain start on a free bus, a repeated start on a bus this master holds, one of
the two after an abandoned transfer (U1); then the address byte; one answer is owed. That the whole address byte is logged
here, whatever answers it, is log entry 13 (DESIGN CHOICE). -/
def Obligations.StartProducesStartAndAddress : Prop :=
  ∀ (s : State) sla dir, s.phy.enabled = true →
    ∃ sym n, exec (.start sla dir) s = .next
        { s with
          wire := s.wire ++ [sym, .address sla dir], draws := n
          phy := ⟨true, some .address, .held⟩ } ∧
      (s.phy.bus = .free → sym = .start) ∧ (s.phy.bus = .held → sym = .repeatedStart) ∧
      (sym = .start ∨ sym = .repeatedStart) ∧ (s.phy.bus ≠ .unknown → n = s.draws)

/-- R136, R137, R138, R139: the other bus commands on an enabled PHY. That a RECV's byte and the acknowledge of a SEND enter
the log of the wires with their event, not here, and that a SEND's whole byte is logged here, whatever answers it, is log
entry 13 (DESIGN CHOICE). -/
def Obligations.SendReceiveStopReleaseActOnTheBus : Prop :=
  ∀ (s : State) (b : Byte) (ack : Bool), s.phy.enabled = true →
    exec (.send b) s = .next
      { s with wire := s.wire ++ [.byte b], phy := ⟨true, some .sendByte, s.phy.bus⟩ } ∧
    exec (.recv ack) s = .next { s with phy := ⟨true, some (.receiveByte ack), s.phy.bus⟩ } ∧
    exec .stop s = .next { s with wire := s.wire ++ [.stop], phy := ⟨true, s.phy.outstanding, .free⟩ } ∧
    exec .release s = .next { s with phy := ⟨true, s.phy.outstanding, .free⟩ }

/-- R273: a PHY that is not enabled does nothing with a command but ENABLE. -/
def Obligations.DisabledPhyDoesNothing : Prop :=
  ∀ (s : State) sla dir b ack, s.phy.enabled = false →
    ∀ i ∈ [Instr.start sla dir, .send b, .recv ack, .stop, .release], exec i s = .next s

/-- R140: ENABLE leaves the PHY enabled and idle; a transfer it cuts off leaves the wires undefined. -/
def Obligations.EnableMakesThePhyIdle : Prop :=
  ∀ s : State,
    (s.phy.outstanding = none → s.phy.bus = .free → exec .enable s = .next { s with phy := ⟨true, none, .free⟩ }) ∧
    (s.phy.outstanding ≠ none ∨ s.phy.bus ≠ .free →
      exec .enable s = .next { s with wire := s.wire ++ [.abandoned], phy := ⟨true, none, .unknown⟩ })

/-! ### Whole transactions -/

/-- R191, R153: a write of `len` bytes, every one acknowledged, sends the payload in order and ends without
error; with `wait` the host is answered 0 at the end, else at the claim. That the `dest` of the `MT` record is the register
`dest` (R63; R101 and U5 leave it open), and its bytes beyond the count, are log entry 16 (DESIGN CHOICE). -/
def Obligations.AcknowledgedWriteSendsItsPayload : Prop :=
  ∀ (s : State) wait sla (len : Byte) (wdata : List Byte),
    s.state = .ready → QueueEmpty s.queue → s.hostWait = .idle → s.N ≤ 255 →
    1 ≤ len.toNat → len.toNat ≤ s.N → len.toNat ≤ wdata.length →
    ∃ t, execAll (.write wait sla len wdata :: .addrAck :: List.replicate len.toNat .dataAck) s = .next t ∧
      t.state = .ready ∧ t.err = .noErr ∧ t.hostWait = .idle ∧ t.hr = s.hr ++ [⟨0#8, 0#8, []⟩] ∧
      (∃ pad, pad.length + len.toNat = s.N ∧
        t.cr = s.cr ++ [⟨.masterTransmit, .noErr, s.dest, len, wdata.take len.toNat ++ pad⟩]) ∧
      t.pc = s.pc ++ startWord sla 0#1 :: (wdata.take len.toNat).map sendWord ++ [stopWord] ∧
      t.destMem = s.destMem

/-- R192, R153, R134: a blocking read of all its bytes answers, records and delivers them in order. The bytes
of response and record beyond the count are log entry 16. -/
def Obligations.CompleteReadDeliversItsBytes : Prop :=
  ∀ (s : State) sla (len dest : Byte) (bytes : List Byte) (last : Byte),
    s.state = .ready → QueueEmpty s.queue → s.hostWait = .idle → s.N ≤ 255 →
    len.toNat = bytes.length + 1 → len.toNat ≤ s.N →
    ∃ t, execAll (.readInto sla len dest :: .addrAck :: (bytes.map .rxAck ++ [.rxNack last])) s = .next t ∧
      t.state = .ready ∧ t.err = .noErr ∧ t.hostWait = .idle ∧
      (∃ pad pad', pad.length + len.toNat = s.N ∧ pad'.length + len.toNat = s.N ∧
        t.hr = s.hr ++ [⟨0#8, len, bytes ++ [last] ++ pad⟩] ∧
        t.cr = s.cr ++ [⟨.masterReceive, .noErr, dest, len, bytes ++ [last] ++ pad'⟩]) ∧
      t.pc = s.pc ++ startWord sla 1#1 :: List.replicate bytes.length (recvWord true) ++ [recvWord false, stopWord] ∧
      destCount t dest = some len ∧ ∀ i, i < len.toNat → destData t dest i = (bytes ++ [last])[i]?

/-- R192, R149, R134: a read cut short by a bus error after `k` bytes answers the short count `k` and delivers the `k`
bytes (S3 of 95). The bytes of response and record beyond the count are log entry 16. -/
def Obligations.ShortReadDeliversTheBytesReceived : Prop :=
  ∀ (s : State) sla (len dest : Byte) (bytes : List Byte),
    s.state = .ready → QueueEmpty s.queue → s.hostWait = .idle → s.N ≤ 255 →
    bytes.length < len.toNat → len.toNat ≤ s.N →
    ∃ t, execAll (.readInto sla len dest :: .addrAck :: (bytes.map .rxAck ++ [.busError])) s = .next t ∧
      t.state = .ready ∧ t.err = .busProtocolError ∧ t.hostWait = .idle ∧
      (∃ pad pad', pad.length + bytes.length = s.N ∧ pad'.length + bytes.length = s.N ∧
        t.hr = s.hr ++ [⟨0#8, BitVec.ofNat 8 bytes.length, bytes ++ pad⟩] ∧
        t.cr = s.cr ++ [⟨.masterReceive, .busProtocolError, dest, BitVec.ofNat 8 bytes.length, bytes ++ pad'⟩]) ∧
      destCount t dest = some (BitVec.ofNat 8 bytes.length) ∧
      ∀ i, i < bytes.length → destData t dest i = bytes[i]?

/-- R224, R223, R221: the read-modify-write sequence commits the merged byte, is never `Ready` on the way, and ends with one
completion record. That the `dest` of that `MT` record is the register `dest` (R63; R101 and U5 leave it open), and its bytes
beyond the count, are log entry 16 (DESIGN CHOICE). -/
def Obligations.ReadModifyWriteCommitsTheMergedByte : Prop :=
  ∀ (s : State) sla (reg data mask old : Byte),
    s.state = .ready → QueueEmpty s.queue → s.hostWait = .idle → 2 ≤ s.N →
    let ops : List Instr :=
      [.rmwReg sla reg data mask, .addrAck, .dataAck, .addrAck, .rxNack old, .addrAck, .dataAck, .dataAck]
    let merged := (old &&& ~~~mask) ||| (data &&& mask)
    (∃ t, execAll ops s = .next t ∧ t.state = .ready ∧ t.err = .noErr ∧
      (∃ pad, pad.length + 2 = s.N ∧
        t.cr = s.cr ++ [⟨.masterTransmit, .noErr, s.dest, 2#8, [reg, merged] ++ pad⟩]) ∧
      t.pc = s.pc ++ [startWord sla 0#1, sendWord reg, stopWord, startWord sla 1#1, recvWord false, startWord sla 0#1,
        sendWord reg, sendWord merged, stopWord] ∧
      t.destMem = s.destMem) ∧
    (∀ k, 1 ≤ k → k < ops.length → ∃ u, execAll (ops.take k) s = .next u ∧ u.state ≠ .ready ∧ u.cr = s.cr)

/-! ### Executions without end -/

/-- R246: a run from reset, under inputs that repeat for ever (log entry 2), that comes to a state from which a masked write
of level 0 and a read of level 1 wait for ever, while transactions go on ending without end and no contract is broken (`Sound`, log entry 6). The endings are
counted by the records on CR, which none leaves (log entry 17). -/
def Obligations.LowerLevelsCanStarve : Prop :=
  ∃ (program : Feed HostCommand) (answers : Feed EventWord) (turns : Feed Agent) (m : Nat) (s : State) (w : WriteReq)
    (r : ReadReq),
    runSteps m { State.reset with program := program, answers := answers, turns := turns } = .next s ∧
    (∀ n, ∃ t, runSteps n s = .next t ∧ Sound t ∧ t.queue[0]?.bind Level.wq = some w ∧
      t.queue[1]?.bind Level.rq = some r) ∧
    (∀ k, ∃ n t, runSteps n s = .next t ∧ s.cr.length + k ≤ t.cr.length)
end

