-- ==== Sys2Proof/Laws/Memory.lean ====
section
/-! SUPPORT. DEST: reading after writing, and the canonical form kept by every operation (R62). -/

namespace Sys2Proof.Machine

theorem Memory.read_write_same (m : Memory) (a : Nat) (v : Byte) : Memory.read (Memory.write m a v) a = some v := by
  induction m with
  | nil => simp [Memory.write, Memory.read]
  | cons c m ih =>
    obtain ⟨b, w⟩ := c
    unfold Memory.write
    split
    · simp [Memory.read]
    · split
      · simp [Memory.read]
      · have : b ≠ a := by omega
        simp [Memory.read, this, ih]

theorem Memory.read_write_other (m : Memory) {a b : Nat} (v : Byte) (h : b ≠ a) :
    Memory.read (Memory.write m a v) b = Memory.read m b := by
  induction m with
  | nil => simp [Memory.write, Memory.read, Ne.symm h]
  | cons c m ih =>
    obtain ⟨k, w⟩ := c
    unfold Memory.write
    split
    · simp [Memory.read, Ne.symm h]
    · split
      · next hk => subst hk; simp [Memory.read, Ne.symm h]
      · simp [Memory.read, ih]

/-- Reading after writing consecutive bytes: the written bytes inside, the old contents outside. -/
theorem Memory.read_writeBytes (vs : List Byte) (m : Memory) (a b : Nat) :
    Memory.read (Memory.writeBytes m a vs) b =
      if a ≤ b ∧ b < a + vs.length then vs[b - a]? else Memory.read m b := by
  induction vs generalizing m a with
  | nil => simp [Memory.writeBytes]
  | cons v vs ih =>
    rw [Memory.writeBytes, ih]
    by_cases h1 : a + 1 ≤ b ∧ b < a + 1 + vs.length
    · rw [if_pos h1, if_pos (by simp; omega)]
      obtain ⟨k, hk⟩ : ∃ k, b - a = k + 1 := ⟨b - a - 1, by omega⟩
      rw [hk, show b - (a + 1) = k by omega, List.getElem?_cons_succ]
    · rw [if_neg h1]
      by_cases h2 : b = a
      · subst h2; rw [Memory.read_write_same, if_pos (by simp)]; simp
      · rw [Memory.read_write_other _ _ h2, if_neg (by simp; omega)]

/-- The first address of a memory is above `a`. -/
abbrev Memory.Above (a : Nat) (m : Memory) : Prop := ∀ c ∈ m, a < c.1

theorem Memory.wf_cons (a : Nat) (v : Byte) (m : Memory) :
    Memory.wf ((a, v) :: m) = true ↔ Memory.Above a m ∧ Memory.wf m = true := by
  induction m generalizing a v with
  | nil => simp [Memory.wf]
  | cons c m ih =>
    obtain ⟨b, w⟩ := c
    rw [Memory.wf, Bool.and_eq_true, decide_eq_true_eq, ih]
    constructor
    · rintro ⟨hab, hm, hw⟩
      refine ⟨?_, hm, hw⟩
      intro c hc
      rcases List.mem_cons.mp hc with rfl | hc
      · exact hab
      · exact lt_trans hab (hm c hc)
    · rintro ⟨ha, hm, hw⟩
      exact ⟨ha (b, w) (by simp), hm, hw⟩

theorem Memory.above_write {a b : Nat} {m : Memory} (v : Byte) (h : Memory.Above b m) (hb : b < a) :
    Memory.Above b (Memory.write m a v) := by
  induction m with
  | nil => intro c hc; simp [Memory.write] at hc; subst hc; exact hb
  | cons c m ih =>
    obtain ⟨k, w⟩ := c
    have hk : b < k := h (k, w) (by simp)
    have hm : Memory.Above b m := fun c hc => h c (by simp [hc])
    unfold Memory.write
    split
    · intro c hc
      rcases List.mem_cons.mp hc with rfl | hc
      · exact hb
      · exact h c hc
    · split
      · intro c hc
        rcases List.mem_cons.mp hc with rfl | hc
        · exact hb
        · exact hm c hc
      · intro c hc
        rcases List.mem_cons.mp hc with rfl | hc
        · exact hk
        · exact ih hm c hc

theorem Memory.write_wf {m : Memory} (a : Nat) (v : Byte) (h : Memory.wf m = true) :
    Memory.wf (Memory.write m a v) = true := by
  induction m with
  | nil => rfl
  | cons c m ih =>
    obtain ⟨k, w⟩ := c
    obtain ⟨hk, hm⟩ := (Memory.wf_cons k w m).mp h
    unfold Memory.write
    split
    · next hak =>
      refine (Memory.wf_cons _ _ _).mpr ⟨?_, h⟩
      intro c hc
      rcases List.mem_cons.mp hc with rfl | hc
      · exact hak
      · exact lt_trans hak (hk c hc)
    · split
      · next hka => subst hka; exact (Memory.wf_cons _ _ _).mpr ⟨hk, hm⟩
      · exact (Memory.wf_cons _ _ _).mpr ⟨Memory.above_write v hk (by omega), ih hm⟩

theorem Memory.writeBytes_wf {m : Memory} (a : Nat) (vs : List Byte) (h : Memory.wf m = true) :
    Memory.wf (Memory.writeBytes m a vs) = true := by
  induction vs generalizing m a with
  | nil => exact h
  | cons v vs ih => exact ih _ (Memory.write_wf a v h)

theorem deliver_wf {s : State} (h : Memory.wf s.destMem = true) : Memory.wf (deliver s).destMem = true :=
  Memory.writeBytes_wf _ _ (Memory.write_wf _ _ h)

end Sys2Proof.Machine
end

