-- ==== Sys2Proof/Laws/State.lean ====
section
/-! SUPPORT. One lemma per field per named update of the state, each true by rfl. -/

namespace Sys2Proof.Machine

/-! ### `issue` writes channel PC only -/

@[simp] theorem issue_state (w : PhyWord) (s : State) : (issue w s).state = s.state := rfl
@[simp] theorem issue_err (w : PhyWord) (s : State) : (issue w s).err = s.err := rfl
@[simp] theorem issue_buf (w : PhyWord) (s : State) : (issue w s).buf = s.buf := rfl
@[simp] theorem issue_idx (w : PhyWord) (s : State) : (issue w s).idx = s.idx := rfl
@[simp] theorem issue_len (w : PhyWord) (s : State) : (issue w s).len = s.len := rfl
@[simp] theorem issue_sla (w : PhyWord) (s : State) : (issue w s).sla = s.sla := rfl
@[simp] theorem issue_dir (w : PhyWord) (s : State) : (issue w s).dir = s.dir := rfl
@[simp] theorem issue_reg (w : PhyWord) (s : State) : (issue w s).reg = s.reg := rfl
@[simp] theorem issue_rmwData (w : PhyWord) (s : State) : (issue w s).rmwData = s.rmwData := rfl
@[simp] theorem issue_rmwMask (w : PhyWord) (s : State) : (issue w s).rmwMask = s.rmwMask := rfl
@[simp] theorem issue_dest (w : PhyWord) (s : State) : (issue w s).dest = s.dest := rfl
@[simp] theorem issue_queue (w : PhyWord) (s : State) : (issue w s).queue = s.queue := rfl
@[simp] theorem issue_evtPending (w : PhyWord) (s : State) : (issue w s).evtPending = s.evtPending := rfl
@[simp] theorem issue_inited (w : PhyWord) (s : State) : (issue w s).inited = s.inited := rfl
@[simp] theorem issue_hostWait (w : PhyWord) (s : State) : (issue w s).hostWait = s.hostWait := rfl
@[simp] theorem issue_program (w : PhyWord) (s : State) : (issue w s).program = s.program := rfl
@[simp] theorem issue_hc (w : PhyWord) (s : State) : (issue w s).hc = s.hc := rfl
@[simp] theorem issue_hr (w : PhyWord) (s : State) : (issue w s).hr = s.hr := rfl
@[simp] theorem issue_ev (w : PhyWord) (s : State) : (issue w s).ev = s.ev := rfl
@[simp] theorem issue_pc (w : PhyWord) (s : State) : (issue w s).pc = s.pc ++ [w] := rfl
@[simp] theorem issue_cr (w : PhyWord) (s : State) : (issue w s).cr = s.cr := rfl
@[simp] theorem issue_destMem (w : PhyWord) (s : State) : (issue w s).destMem = s.destMem := rfl
@[simp] theorem issue_rst (w : PhyWord) (s : State) : (issue w s).rst = s.rst := rfl
@[simp] theorem issue_phy (w : PhyWord) (s : State) : (issue w s).phy = s.phy := rfl
@[simp] theorem issue_wire (w : PhyWord) (s : State) : (issue w s).wire = s.wire := rfl
@[simp] theorem issue_answers (w : PhyWord) (s : State) : (issue w s).answers = s.answers := rfl
@[simp] theorem issue_turns (w : PhyWord) (s : State) : (issue w s).turns = s.turns := rfl
@[simp] theorem issue_draws (w : PhyWord) (s : State) : (issue w s).draws = s.draws := rfl
@[simp] theorem issue_marks (w : PhyWord) (s : State) : (issue w s).marks = s.marks := rfl

/-! ### `respond` writes channel HR only -/

@[simp] theorem respond_state (c n : Byte) (d : List Byte) (s : State) : (respond c n d s).state = s.state := rfl
@[simp] theorem respond_err (c n : Byte) (d : List Byte) (s : State) : (respond c n d s).err = s.err := rfl
@[simp] theorem respond_buf (c n : Byte) (d : List Byte) (s : State) : (respond c n d s).buf = s.buf := rfl
@[simp] theorem respond_idx (c n : Byte) (d : List Byte) (s : State) : (respond c n d s).idx = s.idx := rfl
@[simp] theorem respond_len (c n : Byte) (d : List Byte) (s : State) : (respond c n d s).len = s.len := rfl
@[simp] theorem respond_sla (c n : Byte) (d : List Byte) (s : State) : (respond c n d s).sla = s.sla := rfl
@[simp] theorem respond_dir (c n : Byte) (d : List Byte) (s : State) : (respond c n d s).dir = s.dir := rfl
@[simp] theorem respond_reg (c n : Byte) (d : List Byte) (s : State) : (respond c n d s).reg = s.reg := rfl
@[simp] theorem respond_rmwData (c n : Byte) (d : List Byte) (s : State) : (respond c n d s).rmwData = s.rmwData := rfl
@[simp] theorem respond_rmwMask (c n : Byte) (d : List Byte) (s : State) : (respond c n d s).rmwMask = s.rmwMask := rfl
@[simp] theorem respond_dest (c n : Byte) (d : List Byte) (s : State) : (respond c n d s).dest = s.dest := rfl
@[simp] theorem respond_queue (c n : Byte) (d : List Byte) (s : State) : (respond c n d s).queue = s.queue := rfl
@[simp] theorem respond_evtPending (c n : Byte) (d : List Byte) (s : State) : (respond c n d s).evtPending = s.evtPending := rfl
@[simp] theorem respond_inited (c n : Byte) (d : List Byte) (s : State) : (respond c n d s).inited = s.inited := rfl
@[simp] theorem respond_hostWait (c n : Byte) (d : List Byte) (s : State) : (respond c n d s).hostWait = s.hostWait := rfl
@[simp] theorem respond_program (c n : Byte) (d : List Byte) (s : State) : (respond c n d s).program = s.program := rfl
@[simp] theorem respond_hc (c n : Byte) (d : List Byte) (s : State) : (respond c n d s).hc = s.hc := rfl
@[simp] theorem respond_hr (c n : Byte) (d : List Byte) (s : State) : (respond c n d s).hr = s.hr ++ [⟨c, n, d⟩] := rfl
@[simp] theorem respond_ev (c n : Byte) (d : List Byte) (s : State) : (respond c n d s).ev = s.ev := rfl
@[simp] theorem respond_pc (c n : Byte) (d : List Byte) (s : State) : (respond c n d s).pc = s.pc := rfl
@[simp] theorem respond_cr (c n : Byte) (d : List Byte) (s : State) : (respond c n d s).cr = s.cr := rfl
@[simp] theorem respond_destMem (c n : Byte) (d : List Byte) (s : State) : (respond c n d s).destMem = s.destMem := rfl
@[simp] theorem respond_rst (c n : Byte) (d : List Byte) (s : State) : (respond c n d s).rst = s.rst := rfl
@[simp] theorem respond_phy (c n : Byte) (d : List Byte) (s : State) : (respond c n d s).phy = s.phy := rfl
@[simp] theorem respond_wire (c n : Byte) (d : List Byte) (s : State) : (respond c n d s).wire = s.wire := rfl
@[simp] theorem respond_answers (c n : Byte) (d : List Byte) (s : State) : (respond c n d s).answers = s.answers := rfl
@[simp] theorem respond_turns (c n : Byte) (d : List Byte) (s : State) : (respond c n d s).turns = s.turns := rfl
@[simp] theorem respond_draws (c n : Byte) (d : List Byte) (s : State) : (respond c n d s).draws = s.draws := rfl
@[simp] theorem respond_marks (c n : Byte) (d : List Byte) (s : State) : (respond c n d s).marks = s.marks := rfl

/-! ### `noteUse` writes a mark only -/

@[simp] theorem noteUse_state (s : State) : (noteUse s).state = s.state := rfl
@[simp] theorem noteUse_err (s : State) : (noteUse s).err = s.err := rfl
@[simp] theorem noteUse_buf (s : State) : (noteUse s).buf = s.buf := rfl
@[simp] theorem noteUse_idx (s : State) : (noteUse s).idx = s.idx := rfl
@[simp] theorem noteUse_len (s : State) : (noteUse s).len = s.len := rfl
@[simp] theorem noteUse_sla (s : State) : (noteUse s).sla = s.sla := rfl
@[simp] theorem noteUse_dir (s : State) : (noteUse s).dir = s.dir := rfl
@[simp] theorem noteUse_reg (s : State) : (noteUse s).reg = s.reg := rfl
@[simp] theorem noteUse_rmwData (s : State) : (noteUse s).rmwData = s.rmwData := rfl
@[simp] theorem noteUse_rmwMask (s : State) : (noteUse s).rmwMask = s.rmwMask := rfl
@[simp] theorem noteUse_dest (s : State) : (noteUse s).dest = s.dest := rfl
@[simp] theorem noteUse_queue (s : State) : (noteUse s).queue = s.queue := rfl
@[simp] theorem noteUse_evtPending (s : State) : (noteUse s).evtPending = s.evtPending := rfl
@[simp] theorem noteUse_inited (s : State) : (noteUse s).inited = s.inited := rfl
@[simp] theorem noteUse_hostWait (s : State) : (noteUse s).hostWait = s.hostWait := rfl
@[simp] theorem noteUse_program (s : State) : (noteUse s).program = s.program := rfl
@[simp] theorem noteUse_hc (s : State) : (noteUse s).hc = s.hc := rfl
@[simp] theorem noteUse_hr (s : State) : (noteUse s).hr = s.hr := rfl
@[simp] theorem noteUse_ev (s : State) : (noteUse s).ev = s.ev := rfl
@[simp] theorem noteUse_pc (s : State) : (noteUse s).pc = s.pc := rfl
@[simp] theorem noteUse_cr (s : State) : (noteUse s).cr = s.cr := rfl
@[simp] theorem noteUse_destMem (s : State) : (noteUse s).destMem = s.destMem := rfl
@[simp] theorem noteUse_rst (s : State) : (noteUse s).rst = s.rst := rfl
@[simp] theorem noteUse_phy (s : State) : (noteUse s).phy = s.phy := rfl
@[simp] theorem noteUse_wire (s : State) : (noteUse s).wire = s.wire := rfl
@[simp] theorem noteUse_answers (s : State) : (noteUse s).answers = s.answers := rfl
@[simp] theorem noteUse_turns (s : State) : (noteUse s).turns = s.turns := rfl
@[simp] theorem noteUse_draws (s : State) : (noteUse s).draws = s.draws := rfl
@[simp] theorem noteUse_marks (s : State) : (noteUse s).marks = ⟨s.marks.usedBeforeInit || !s.inited, s.marks.initWhileBusy, s.marks.phyContract⟩ := rfl

/-! ### `notePhy` writes a mark only -/

@[simp] theorem notePhy_state (s : State) : (notePhy s).state = s.state := rfl
@[simp] theorem notePhy_err (s : State) : (notePhy s).err = s.err := rfl
@[simp] theorem notePhy_buf (s : State) : (notePhy s).buf = s.buf := rfl
@[simp] theorem notePhy_idx (s : State) : (notePhy s).idx = s.idx := rfl
@[simp] theorem notePhy_len (s : State) : (notePhy s).len = s.len := rfl
@[simp] theorem notePhy_sla (s : State) : (notePhy s).sla = s.sla := rfl
@[simp] theorem notePhy_dir (s : State) : (notePhy s).dir = s.dir := rfl
@[simp] theorem notePhy_reg (s : State) : (notePhy s).reg = s.reg := rfl
@[simp] theorem notePhy_rmwData (s : State) : (notePhy s).rmwData = s.rmwData := rfl
@[simp] theorem notePhy_rmwMask (s : State) : (notePhy s).rmwMask = s.rmwMask := rfl
@[simp] theorem notePhy_dest (s : State) : (notePhy s).dest = s.dest := rfl
@[simp] theorem notePhy_queue (s : State) : (notePhy s).queue = s.queue := rfl
@[simp] theorem notePhy_evtPending (s : State) : (notePhy s).evtPending = s.evtPending := rfl
@[simp] theorem notePhy_inited (s : State) : (notePhy s).inited = s.inited := rfl
@[simp] theorem notePhy_hostWait (s : State) : (notePhy s).hostWait = s.hostWait := rfl
@[simp] theorem notePhy_program (s : State) : (notePhy s).program = s.program := rfl
@[simp] theorem notePhy_hc (s : State) : (notePhy s).hc = s.hc := rfl
@[simp] theorem notePhy_hr (s : State) : (notePhy s).hr = s.hr := rfl
@[simp] theorem notePhy_ev (s : State) : (notePhy s).ev = s.ev := rfl
@[simp] theorem notePhy_pc (s : State) : (notePhy s).pc = s.pc := rfl
@[simp] theorem notePhy_cr (s : State) : (notePhy s).cr = s.cr := rfl
@[simp] theorem notePhy_destMem (s : State) : (notePhy s).destMem = s.destMem := rfl
@[simp] theorem notePhy_rst (s : State) : (notePhy s).rst = s.rst := rfl
@[simp] theorem notePhy_phy (s : State) : (notePhy s).phy = s.phy := rfl
@[simp] theorem notePhy_wire (s : State) : (notePhy s).wire = s.wire := rfl
@[simp] theorem notePhy_answers (s : State) : (notePhy s).answers = s.answers := rfl
@[simp] theorem notePhy_turns (s : State) : (notePhy s).turns = s.turns := rfl
@[simp] theorem notePhy_draws (s : State) : (notePhy s).draws = s.draws := rfl
@[simp] theorem notePhy_marks (s : State) : (notePhy s).marks = ⟨s.marks.usedBeforeInit, s.marks.initWhileBusy, true⟩ := rfl

/-! ### `deliver` writes DEST only -/

@[simp] theorem deliver_state (s : State) : (deliver s).state = s.state := rfl
@[simp] theorem deliver_err (s : State) : (deliver s).err = s.err := rfl
@[simp] theorem deliver_buf (s : State) : (deliver s).buf = s.buf := rfl
@[simp] theorem deliver_idx (s : State) : (deliver s).idx = s.idx := rfl
@[simp] theorem deliver_len (s : State) : (deliver s).len = s.len := rfl
@[simp] theorem deliver_sla (s : State) : (deliver s).sla = s.sla := rfl
@[simp] theorem deliver_dir (s : State) : (deliver s).dir = s.dir := rfl
@[simp] theorem deliver_reg (s : State) : (deliver s).reg = s.reg := rfl
@[simp] theorem deliver_rmwData (s : State) : (deliver s).rmwData = s.rmwData := rfl
@[simp] theorem deliver_rmwMask (s : State) : (deliver s).rmwMask = s.rmwMask := rfl
@[simp] theorem deliver_dest (s : State) : (deliver s).dest = s.dest := rfl
@[simp] theorem deliver_queue (s : State) : (deliver s).queue = s.queue := rfl
@[simp] theorem deliver_evtPending (s : State) : (deliver s).evtPending = s.evtPending := rfl
@[simp] theorem deliver_inited (s : State) : (deliver s).inited = s.inited := rfl
@[simp] theorem deliver_hostWait (s : State) : (deliver s).hostWait = s.hostWait := rfl
@[simp] theorem deliver_program (s : State) : (deliver s).program = s.program := rfl
@[simp] theorem deliver_hc (s : State) : (deliver s).hc = s.hc := rfl
@[simp] theorem deliver_hr (s : State) : (deliver s).hr = s.hr := rfl
@[simp] theorem deliver_ev (s : State) : (deliver s).ev = s.ev := rfl
@[simp] theorem deliver_pc (s : State) : (deliver s).pc = s.pc := rfl
@[simp] theorem deliver_cr (s : State) : (deliver s).cr = s.cr := rfl
@[simp] theorem deliver_destMem (s : State) : (deliver s).destMem = Memory.writeBytes (Memory.write s.destMem (countAddr s.dest) s.idx) (dataAddr s.dest 0) (s.buf.take s.idx.toNat) := rfl
@[simp] theorem deliver_rst (s : State) : (deliver s).rst = s.rst := rfl
@[simp] theorem deliver_phy (s : State) : (deliver s).phy = s.phy := rfl
@[simp] theorem deliver_wire (s : State) : (deliver s).wire = s.wire := rfl
@[simp] theorem deliver_answers (s : State) : (deliver s).answers = s.answers := rfl
@[simp] theorem deliver_turns (s : State) : (deliver s).turns = s.turns := rfl
@[simp] theorem deliver_draws (s : State) : (deliver s).draws = s.draws := rfl
@[simp] theorem deliver_marks (s : State) : (deliver s).marks = s.marks := rfl

/-! ### `storeByte` writes `buf` and `idx` only -/

@[simp] theorem storeByte_state (b : Byte) (s : State) : (storeByte b s).state = s.state := rfl
@[simp] theorem storeByte_err (b : Byte) (s : State) : (storeByte b s).err = s.err := rfl
@[simp] theorem storeByte_buf (b : Byte) (s : State) : (storeByte b s).buf = s.buf.set s.idx.toNat b := rfl
@[simp] theorem storeByte_idx (b : Byte) (s : State) : (storeByte b s).idx = s.idx + 1#8 := rfl
@[simp] theorem storeByte_len (b : Byte) (s : State) : (storeByte b s).len = s.len := rfl
@[simp] theorem storeByte_sla (b : Byte) (s : State) : (storeByte b s).sla = s.sla := rfl
@[simp] theorem storeByte_dir (b : Byte) (s : State) : (storeByte b s).dir = s.dir := rfl
@[simp] theorem storeByte_reg (b : Byte) (s : State) : (storeByte b s).reg = s.reg := rfl
@[simp] theorem storeByte_rmwData (b : Byte) (s : State) : (storeByte b s).rmwData = s.rmwData := rfl
@[simp] theorem storeByte_rmwMask (b : Byte) (s : State) : (storeByte b s).rmwMask = s.rmwMask := rfl
@[simp] theorem storeByte_dest (b : Byte) (s : State) : (storeByte b s).dest = s.dest := rfl
@[simp] theorem storeByte_queue (b : Byte) (s : State) : (storeByte b s).queue = s.queue := rfl
@[simp] theorem storeByte_evtPending (b : Byte) (s : State) : (storeByte b s).evtPending = s.evtPending := rfl
@[simp] theorem storeByte_inited (b : Byte) (s : State) : (storeByte b s).inited = s.inited := rfl
@[simp] theorem storeByte_hostWait (b : Byte) (s : State) : (storeByte b s).hostWait = s.hostWait := rfl
@[simp] theorem storeByte_program (b : Byte) (s : State) : (storeByte b s).program = s.program := rfl
@[simp] theorem storeByte_hc (b : Byte) (s : State) : (storeByte b s).hc = s.hc := rfl
@[simp] theorem storeByte_hr (b : Byte) (s : State) : (storeByte b s).hr = s.hr := rfl
@[simp] theorem storeByte_ev (b : Byte) (s : State) : (storeByte b s).ev = s.ev := rfl
@[simp] theorem storeByte_pc (b : Byte) (s : State) : (storeByte b s).pc = s.pc := rfl
@[simp] theorem storeByte_cr (b : Byte) (s : State) : (storeByte b s).cr = s.cr := rfl
@[simp] theorem storeByte_destMem (b : Byte) (s : State) : (storeByte b s).destMem = s.destMem := rfl
@[simp] theorem storeByte_rst (b : Byte) (s : State) : (storeByte b s).rst = s.rst := rfl
@[simp] theorem storeByte_phy (b : Byte) (s : State) : (storeByte b s).phy = s.phy := rfl
@[simp] theorem storeByte_wire (b : Byte) (s : State) : (storeByte b s).wire = s.wire := rfl
@[simp] theorem storeByte_answers (b : Byte) (s : State) : (storeByte b s).answers = s.answers := rfl
@[simp] theorem storeByte_turns (b : Byte) (s : State) : (storeByte b s).turns = s.turns := rfl
@[simp] theorem storeByte_draws (b : Byte) (s : State) : (storeByte b s).draws = s.draws := rfl
@[simp] theorem storeByte_marks (b : Byte) (s : State) : (storeByte b s).marks = s.marks := rfl

/-! ### `beginWrite` (R131) -/

@[simp] theorem beginWrite_state (a : DevAddr) (l : Byte) (p : List Byte) (s : State) : (beginWrite a l p s).state = .masterTransmit := rfl
@[simp] theorem beginWrite_err (a : DevAddr) (l : Byte) (p : List Byte) (s : State) : (beginWrite a l p s).err = .noErr := rfl
@[simp] theorem beginWrite_buf (a : DevAddr) (l : Byte) (p : List Byte) (s : State) : (beginWrite a l p s).buf = p.take l.toNat ++ s.buf.drop l.toNat := rfl
@[simp] theorem beginWrite_idx (a : DevAddr) (l : Byte) (p : List Byte) (s : State) : (beginWrite a l p s).idx = 0#8 := rfl
@[simp] theorem beginWrite_len (a : DevAddr) (l : Byte) (p : List Byte) (s : State) : (beginWrite a l p s).len = l := rfl
@[simp] theorem beginWrite_sla (a : DevAddr) (l : Byte) (p : List Byte) (s : State) : (beginWrite a l p s).sla = a := rfl
@[simp] theorem beginWrite_dir (a : DevAddr) (l : Byte) (p : List Byte) (s : State) : (beginWrite a l p s).dir = 0#1 := rfl
@[simp] theorem beginWrite_reg (a : DevAddr) (l : Byte) (p : List Byte) (s : State) : (beginWrite a l p s).reg = s.reg := rfl
@[simp] theorem beginWrite_rmwData (a : DevAddr) (l : Byte) (p : List Byte) (s : State) : (beginWrite a l p s).rmwData = s.rmwData := rfl
@[simp] theorem beginWrite_rmwMask (a : DevAddr) (l : Byte) (p : List Byte) (s : State) : (beginWrite a l p s).rmwMask = s.rmwMask := rfl
@[simp] theorem beginWrite_dest (a : DevAddr) (l : Byte) (p : List Byte) (s : State) : (beginWrite a l p s).dest = s.dest := rfl
@[simp] theorem beginWrite_queue (a : DevAddr) (l : Byte) (p : List Byte) (s : State) : (beginWrite a l p s).queue = s.queue := rfl
@[simp] theorem beginWrite_evtPending (a : DevAddr) (l : Byte) (p : List Byte) (s : State) : (beginWrite a l p s).evtPending = s.evtPending := rfl
@[simp] theorem beginWrite_inited (a : DevAddr) (l : Byte) (p : List Byte) (s : State) : (beginWrite a l p s).inited = s.inited := rfl
@[simp] theorem beginWrite_hostWait (a : DevAddr) (l : Byte) (p : List Byte) (s : State) : (beginWrite a l p s).hostWait = s.hostWait := rfl
@[simp] theorem beginWrite_program (a : DevAddr) (l : Byte) (p : List Byte) (s : State) : (beginWrite a l p s).program = s.program := rfl
@[simp] theorem beginWrite_hc (a : DevAddr) (l : Byte) (p : List Byte) (s : State) : (beginWrite a l p s).hc = s.hc := rfl
@[simp] theorem beginWrite_hr (a : DevAddr) (l : Byte) (p : List Byte) (s : State) : (beginWrite a l p s).hr = s.hr := rfl
@[simp] theorem beginWrite_ev (a : DevAddr) (l : Byte) (p : List Byte) (s : State) : (beginWrite a l p s).ev = s.ev := rfl
@[simp] theorem beginWrite_pc (a : DevAddr) (l : Byte) (p : List Byte) (s : State) : (beginWrite a l p s).pc = s.pc ++ [startWord a 0#1] := rfl
@[simp] theorem beginWrite_cr (a : DevAddr) (l : Byte) (p : List Byte) (s : State) : (beginWrite a l p s).cr = s.cr := rfl
@[simp] theorem beginWrite_destMem (a : DevAddr) (l : Byte) (p : List Byte) (s : State) : (beginWrite a l p s).destMem = s.destMem := rfl
@[simp] theorem beginWrite_rst (a : DevAddr) (l : Byte) (p : List Byte) (s : State) : (beginWrite a l p s).rst = s.rst := rfl
@[simp] theorem beginWrite_phy (a : DevAddr) (l : Byte) (p : List Byte) (s : State) : (beginWrite a l p s).phy = s.phy := rfl
@[simp] theorem beginWrite_wire (a : DevAddr) (l : Byte) (p : List Byte) (s : State) : (beginWrite a l p s).wire = s.wire := rfl
@[simp] theorem beginWrite_answers (a : DevAddr) (l : Byte) (p : List Byte) (s : State) : (beginWrite a l p s).answers = s.answers := rfl
@[simp] theorem beginWrite_turns (a : DevAddr) (l : Byte) (p : List Byte) (s : State) : (beginWrite a l p s).turns = s.turns := rfl
@[simp] theorem beginWrite_draws (a : DevAddr) (l : Byte) (p : List Byte) (s : State) : (beginWrite a l p s).draws = s.draws := rfl
@[simp] theorem beginWrite_marks (a : DevAddr) (l : Byte) (p : List Byte) (s : State) : (beginWrite a l p s).marks = s.marks := rfl

/-! ### `beginRead` (R131) -/

@[simp] theorem beginRead_state (a : DevAddr) (t l : Byte) (s : State) : (beginRead a t l s).state = .masterReceive := rfl
@[simp] theorem beginRead_err (a : DevAddr) (t l : Byte) (s : State) : (beginRead a t l s).err = .noErr := rfl
@[simp] theorem beginRead_buf (a : DevAddr) (t l : Byte) (s : State) : (beginRead a t l s).buf = s.buf := rfl
@[simp] theorem beginRead_idx (a : DevAddr) (t l : Byte) (s : State) : (beginRead a t l s).idx = 0#8 := rfl
@[simp] theorem beginRead_len (a : DevAddr) (t l : Byte) (s : State) : (beginRead a t l s).len = l := rfl
@[simp] theorem beginRead_sla (a : DevAddr) (t l : Byte) (s : State) : (beginRead a t l s).sla = a := rfl
@[simp] theorem beginRead_dir (a : DevAddr) (t l : Byte) (s : State) : (beginRead a t l s).dir = 1#1 := rfl
@[simp] theorem beginRead_reg (a : DevAddr) (t l : Byte) (s : State) : (beginRead a t l s).reg = s.reg := rfl
@[simp] theorem beginRead_rmwData (a : DevAddr) (t l : Byte) (s : State) : (beginRead a t l s).rmwData = s.rmwData := rfl
@[simp] theorem beginRead_rmwMask (a : DevAddr) (t l : Byte) (s : State) : (beginRead a t l s).rmwMask = s.rmwMask := rfl
@[simp] theorem beginRead_dest (a : DevAddr) (t l : Byte) (s : State) : (beginRead a t l s).dest = t := rfl
@[simp] theorem beginRead_queue (a : DevAddr) (t l : Byte) (s : State) : (beginRead a t l s).queue = s.queue := rfl
@[simp] theorem beginRead_evtPending (a : DevAddr) (t l : Byte) (s : State) : (beginRead a t l s).evtPending = s.evtPending := rfl
@[simp] theorem beginRead_inited (a : DevAddr) (t l : Byte) (s : State) : (beginRead a t l s).inited = s.inited := rfl
@[simp] theorem beginRead_hostWait (a : DevAddr) (t l : Byte) (s : State) : (beginRead a t l s).hostWait = s.hostWait := rfl
@[simp] theorem beginRead_program (a : DevAddr) (t l : Byte) (s : State) : (beginRead a t l s).program = s.program := rfl
@[simp] theorem beginRead_hc (a : DevAddr) (t l : Byte) (s : State) : (beginRead a t l s).hc = s.hc := rfl
@[simp] theorem beginRead_hr (a : DevAddr) (t l : Byte) (s : State) : (beginRead a t l s).hr = s.hr := rfl
@[simp] theorem beginRead_ev (a : DevAddr) (t l : Byte) (s : State) : (beginRead a t l s).ev = s.ev := rfl
@[simp] theorem beginRead_pc (a : DevAddr) (t l : Byte) (s : State) : (beginRead a t l s).pc = s.pc ++ [startWord a 1#1] := rfl
@[simp] theorem beginRead_cr (a : DevAddr) (t l : Byte) (s : State) : (beginRead a t l s).cr = s.cr := rfl
@[simp] theorem beginRead_destMem (a : DevAddr) (t l : Byte) (s : State) : (beginRead a t l s).destMem = s.destMem := rfl
@[simp] theorem beginRead_rst (a : DevAddr) (t l : Byte) (s : State) : (beginRead a t l s).rst = s.rst := rfl
@[simp] theorem beginRead_phy (a : DevAddr) (t l : Byte) (s : State) : (beginRead a t l s).phy = s.phy := rfl
@[simp] theorem beginRead_wire (a : DevAddr) (t l : Byte) (s : State) : (beginRead a t l s).wire = s.wire := rfl
@[simp] theorem beginRead_answers (a : DevAddr) (t l : Byte) (s : State) : (beginRead a t l s).answers = s.answers := rfl
@[simp] theorem beginRead_turns (a : DevAddr) (t l : Byte) (s : State) : (beginRead a t l s).turns = s.turns := rfl
@[simp] theorem beginRead_draws (a : DevAddr) (t l : Byte) (s : State) : (beginRead a t l s).draws = s.draws := rfl
@[simp] theorem beginRead_marks (a : DevAddr) (t l : Byte) (s : State) : (beginRead a t l s).marks = s.marks := rfl

/-! ### `beginRegread` (R131) -/

@[simp] theorem beginRegread_state (a : DevAddr) (r t l : Byte) (s : State) : (beginRegread a r t l s).state = .masterTransmitThenReceive := rfl
@[simp] theorem beginRegread_err (a : DevAddr) (r t l : Byte) (s : State) : (beginRegread a r t l s).err = .noErr := rfl
@[simp] theorem beginRegread_buf (a : DevAddr) (r t l : Byte) (s : State) : (beginRegread a r t l s).buf = s.buf := rfl
@[simp] theorem beginRegread_idx (a : DevAddr) (r t l : Byte) (s : State) : (beginRegread a r t l s).idx = 0#8 := rfl
@[simp] theorem beginRegread_len (a : DevAddr) (r t l : Byte) (s : State) : (beginRegread a r t l s).len = l := rfl
@[simp] theorem beginRegread_sla (a : DevAddr) (r t l : Byte) (s : State) : (beginRegread a r t l s).sla = a := rfl
@[simp] theorem beginRegread_dir (a : DevAddr) (r t l : Byte) (s : State) : (beginRegread a r t l s).dir = 0#1 := rfl
@[simp] theorem beginRegread_reg (a : DevAddr) (r t l : Byte) (s : State) : (beginRegread a r t l s).reg = r := rfl
@[simp] theorem beginRegread_rmwData (a : DevAddr) (r t l : Byte) (s : State) : (beginRegread a r t l s).rmwData = s.rmwData := rfl
@[simp] theorem beginRegread_rmwMask (a : DevAddr) (r t l : Byte) (s : State) : (beginRegread a r t l s).rmwMask = s.rmwMask := rfl
@[simp] theorem beginRegread_dest (a : DevAddr) (r t l : Byte) (s : State) : (beginRegread a r t l s).dest = t := rfl
@[simp] theorem beginRegread_queue (a : DevAddr) (r t l : Byte) (s : State) : (beginRegread a r t l s).queue = s.queue := rfl
@[simp] theorem beginRegread_evtPending (a : DevAddr) (r t l : Byte) (s : State) : (beginRegread a r t l s).evtPending = s.evtPending := rfl
@[simp] theorem beginRegread_inited (a : DevAddr) (r t l : Byte) (s : State) : (beginRegread a r t l s).inited = s.inited := rfl
@[simp] theorem beginRegread_hostWait (a : DevAddr) (r t l : Byte) (s : State) : (beginRegread a r t l s).hostWait = s.hostWait := rfl
@[simp] theorem beginRegread_program (a : DevAddr) (r t l : Byte) (s : State) : (beginRegread a r t l s).program = s.program := rfl
@[simp] theorem beginRegread_hc (a : DevAddr) (r t l : Byte) (s : State) : (beginRegread a r t l s).hc = s.hc := rfl
@[simp] theorem beginRegread_hr (a : DevAddr) (r t l : Byte) (s : State) : (beginRegread a r t l s).hr = s.hr := rfl
@[simp] theorem beginRegread_ev (a : DevAddr) (r t l : Byte) (s : State) : (beginRegread a r t l s).ev = s.ev := rfl
@[simp] theorem beginRegread_pc (a : DevAddr) (r t l : Byte) (s : State) : (beginRegread a r t l s).pc = s.pc ++ [startWord a 0#1] := rfl
@[simp] theorem beginRegread_cr (a : DevAddr) (r t l : Byte) (s : State) : (beginRegread a r t l s).cr = s.cr := rfl
@[simp] theorem beginRegread_destMem (a : DevAddr) (r t l : Byte) (s : State) : (beginRegread a r t l s).destMem = s.destMem := rfl
@[simp] theorem beginRegread_rst (a : DevAddr) (r t l : Byte) (s : State) : (beginRegread a r t l s).rst = s.rst := rfl
@[simp] theorem beginRegread_phy (a : DevAddr) (r t l : Byte) (s : State) : (beginRegread a r t l s).phy = s.phy := rfl
@[simp] theorem beginRegread_wire (a : DevAddr) (r t l : Byte) (s : State) : (beginRegread a r t l s).wire = s.wire := rfl
@[simp] theorem beginRegread_answers (a : DevAddr) (r t l : Byte) (s : State) : (beginRegread a r t l s).answers = s.answers := rfl
@[simp] theorem beginRegread_turns (a : DevAddr) (r t l : Byte) (s : State) : (beginRegread a r t l s).turns = s.turns := rfl
@[simp] theorem beginRegread_draws (a : DevAddr) (r t l : Byte) (s : State) : (beginRegread a r t l s).draws = s.draws := rfl
@[simp] theorem beginRegread_marks (a : DevAddr) (r t l : Byte) (s : State) : (beginRegread a r t l s).marks = s.marks := rfl

/-! ### `beginRmw` (R131) -/

@[simp] theorem beginRmw_state (a : DevAddr) (r d m : Byte) (s : State) : (beginRmw a r d m s).state = .masterReadModifyWrite := rfl
@[simp] theorem beginRmw_err (a : DevAddr) (r d m : Byte) (s : State) : (beginRmw a r d m s).err = .noErr := rfl
@[simp] theorem beginRmw_buf (a : DevAddr) (r d m : Byte) (s : State) : (beginRmw a r d m s).buf = s.buf := rfl
@[simp] theorem beginRmw_idx (a : DevAddr) (r d m : Byte) (s : State) : (beginRmw a r d m s).idx = 0#8 := rfl
@[simp] theorem beginRmw_len (a : DevAddr) (r d m : Byte) (s : State) : (beginRmw a r d m s).len = 1#8 := rfl
@[simp] theorem beginRmw_sla (a : DevAddr) (r d m : Byte) (s : State) : (beginRmw a r d m s).sla = a := rfl
@[simp] theorem beginRmw_dir (a : DevAddr) (r d m : Byte) (s : State) : (beginRmw a r d m s).dir = 0#1 := rfl
@[simp] theorem beginRmw_reg (a : DevAddr) (r d m : Byte) (s : State) : (beginRmw a r d m s).reg = r := rfl
@[simp] theorem beginRmw_rmwData (a : DevAddr) (r d m : Byte) (s : State) : (beginRmw a r d m s).rmwData = d := rfl
@[simp] theorem beginRmw_rmwMask (a : DevAddr) (r d m : Byte) (s : State) : (beginRmw a r d m s).rmwMask = m := rfl
@[simp] theorem beginRmw_dest (a : DevAddr) (r d m : Byte) (s : State) : (beginRmw a r d m s).dest = s.dest := rfl
@[simp] theorem beginRmw_queue (a : DevAddr) (r d m : Byte) (s : State) : (beginRmw a r d m s).queue = s.queue := rfl
@[simp] theorem beginRmw_evtPending (a : DevAddr) (r d m : Byte) (s : State) : (beginRmw a r d m s).evtPending = s.evtPending := rfl
@[simp] theorem beginRmw_inited (a : DevAddr) (r d m : Byte) (s : State) : (beginRmw a r d m s).inited = s.inited := rfl
@[simp] theorem beginRmw_hostWait (a : DevAddr) (r d m : Byte) (s : State) : (beginRmw a r d m s).hostWait = s.hostWait := rfl
@[simp] theorem beginRmw_program (a : DevAddr) (r d m : Byte) (s : State) : (beginRmw a r d m s).program = s.program := rfl
@[simp] theorem beginRmw_hc (a : DevAddr) (r d m : Byte) (s : State) : (beginRmw a r d m s).hc = s.hc := rfl
@[simp] theorem beginRmw_hr (a : DevAddr) (r d m : Byte) (s : State) : (beginRmw a r d m s).hr = s.hr := rfl
@[simp] theorem beginRmw_ev (a : DevAddr) (r d m : Byte) (s : State) : (beginRmw a r d m s).ev = s.ev := rfl
@[simp] theorem beginRmw_pc (a : DevAddr) (r d m : Byte) (s : State) : (beginRmw a r d m s).pc = s.pc ++ [startWord a 0#1] := rfl
@[simp] theorem beginRmw_cr (a : DevAddr) (r d m : Byte) (s : State) : (beginRmw a r d m s).cr = s.cr := rfl
@[simp] theorem beginRmw_destMem (a : DevAddr) (r d m : Byte) (s : State) : (beginRmw a r d m s).destMem = s.destMem := rfl
@[simp] theorem beginRmw_rst (a : DevAddr) (r d m : Byte) (s : State) : (beginRmw a r d m s).rst = s.rst := rfl
@[simp] theorem beginRmw_phy (a : DevAddr) (r d m : Byte) (s : State) : (beginRmw a r d m s).phy = s.phy := rfl
@[simp] theorem beginRmw_wire (a : DevAddr) (r d m : Byte) (s : State) : (beginRmw a r d m s).wire = s.wire := rfl
@[simp] theorem beginRmw_answers (a : DevAddr) (r d m : Byte) (s : State) : (beginRmw a r d m s).answers = s.answers := rfl
@[simp] theorem beginRmw_turns (a : DevAddr) (r d m : Byte) (s : State) : (beginRmw a r d m s).turns = s.turns := rfl
@[simp] theorem beginRmw_draws (a : DevAddr) (r d m : Byte) (s : State) : (beginRmw a r d m s).draws = s.draws := rfl
@[simp] theorem beginRmw_marks (a : DevAddr) (r d m : Byte) (s : State) : (beginRmw a r d m s).marks = s.marks := rfl

/-! ### Reset -/

@[simp] theorem resetOf_N (n p : Nat) : (State.resetOf n p).N = n := by simp [State.N, State.resetOf]
@[simp] theorem resetOf_NPRIO (n p : Nat) : (State.resetOf n p).NPRIO = p := by simp [State.NPRIO, State.resetOf]

end Sys2Proof.Machine
end

