-- ==== Sys2Proof/Laws/Ops.lean ====
section
/-! SUPPORT. One lemma per shared operation that says everything it can do: `dispatch`, `complete`, `fail`, `latch`. -/

namespace Sys2Proof.Machine

/-! ### The queue scan -/

theorem takeFirst_none {q : List Level} : takeFirst q = none ↔ QueueEmpty q := by
  induction q with
  | nil => simp [takeFirst, QueueEmpty]
  | cons l ls ih =>
    have hcons : QueueEmpty (l :: ls) ↔ (l.rq = none ∧ l.wq = none) ∧ QueueEmpty ls := List.forall_mem_cons
    rw [hcons, ← ih]
    obtain ⟨rq, wq⟩ := l
    cases rq <;> cases wq <;> simp only [takeFirst] <;> cases takeFirst ls <;> simp

/-- Where a request was taken from: the first level that is not empty, its read before its masked write (R243). -/
theorem takeFirst_some {q rest : List Level} {r : Request} (h : takeFirst q = some (r, rest)) :
    ∃ (before after : List Level) (l : Level), QueueEmpty before ∧ q = before ++ l :: after ∧
      ((∃ x, l.rq = some x ∧ r = .read x ∧ rest = before ++ ⟨none, l.wq⟩ :: after) ∨
       (∃ x, l.rq = none ∧ l.wq = some x ∧ r = .maskedWrite x ∧ rest = before ++ ⟨none, none⟩ :: after)) := by
  induction q generalizing rest with
  | nil => simp [takeFirst] at h
  | cons l ls ih =>
    obtain ⟨rq, wq⟩ := l
    cases rq with
    | some x =>
      simp only [takeFirst, Option.some.injEq, Prod.mk.injEq] at h
      obtain ⟨rfl, rfl⟩ := h
      exact ⟨[], ls, ⟨some x, wq⟩, by simp [QueueEmpty], rfl, .inl ⟨x, rfl, rfl, rfl⟩⟩
    | none =>
      cases wq with
      | some x =>
        simp only [takeFirst, Option.some.injEq, Prod.mk.injEq] at h
        obtain ⟨rfl, rfl⟩ := h
        exact ⟨[], ls, ⟨none, some x⟩, by simp [QueueEmpty], rfl, .inr ⟨x, rfl, rfl, rfl, rfl⟩⟩
      | none =>
        simp only [takeFirst] at h
        split at h
        · next q' ls' hq =>
          simp only [Option.some.injEq, Prod.mk.injEq] at h
          obtain ⟨rfl, rfl⟩ := h
          obtain ⟨before, after, l, he, rfl, hc⟩ := ih hq
          refine ⟨⟨none, none⟩ :: before, after, l, ?_, rfl, ?_⟩
          · intro k hk
            rcases List.mem_cons.mp hk with rfl | hk
            · exact ⟨rfl, rfl⟩
            · exact he k hk
          · rcases hc with ⟨x, h1, h2, rfl⟩ | ⟨x, h1, h2, h3, rfl⟩
            · exact .inl ⟨x, h1, h2, rfl⟩
            · exact .inr ⟨x, h1, h2, h3, rfl⟩
        · exact absurd h (by simp)

/-- What `dispatch()` can do (R243): nothing on an empty queue, else start the first request. -/
theorem dispatch_cases (s : State) :
    (QueueEmpty s.queue ∧ dispatch s = s) ∨
      ∃ (before after : List Level) (l : Level), QueueEmpty before ∧ s.queue = before ++ l :: after ∧
        ((∃ x, l.rq = some x ∧
            dispatch s = beginRegread x.sla x.reg x.dest x.len { s with queue := before ++ ⟨none, l.wq⟩ :: after }) ∨
         (∃ x, l.rq = none ∧ l.wq = some x ∧
            dispatch s = beginRmw x.sla x.reg x.data x.mask { s with queue := before ++ ⟨none, none⟩ :: after })) := by
  cases h : takeFirst s.queue with
  | none => exact .inl ⟨takeFirst_none.mp h, by simp [dispatch, h]⟩
  | some p =>
    obtain ⟨r, rest⟩ := p
    obtain ⟨before, after, l, he, hq, hc⟩ := takeFirst_some h
    refine .inr ⟨before, after, l, he, hq, ?_⟩
    rcases hc with ⟨x, h1, rfl, rfl⟩ | ⟨x, h1, h2, rfl, rfl⟩
    · exact .inl ⟨x, h1, by simp [dispatch, h, startRequest]⟩
    · exact .inr ⟨x, h1, h2, by simp [dispatch, h, startRequest]⟩

theorem dispatch_of_empty {s : State} (h : QueueEmpty s.queue) : dispatch s = s := by
  simp [dispatch, takeFirst_none.mpr h]

/-- `dispatch()` leaves everything but the registers of the transaction it starts, the queue and channel PC. -/
theorem dispatch_frame (s : State) :
    (dispatch s).evtPending = s.evtPending ∧
    (dispatch s).inited = s.inited ∧
    (dispatch s).hostWait = s.hostWait ∧
    (dispatch s).program = s.program ∧
    (dispatch s).hc = s.hc ∧
    (dispatch s).hr = s.hr ∧
    (dispatch s).ev = s.ev ∧
    (dispatch s).cr = s.cr ∧
    (dispatch s).destMem = s.destMem ∧
    (dispatch s).rst = s.rst ∧
    (dispatch s).phy = s.phy ∧
    (dispatch s).wire = s.wire ∧
    (dispatch s).answers = s.answers ∧
    (dispatch s).turns = s.turns ∧
    (dispatch s).draws = s.draws ∧
    (dispatch s).marks = s.marks ∧
    (dispatch s).buf = s.buf ∧
    (dispatch s).queue.length = s.queue.length := by
  rcases dispatch_cases s with ⟨_, hd⟩ | ⟨b, a, l, _, hq, ⟨x, _, hd⟩ | ⟨x, _, _, hd⟩⟩ <;> rw [hd] <;> simp [*]

@[simp] theorem dispatch_evtPending (s : State) : (dispatch s).evtPending = s.evtPending := (dispatch_frame s).1
@[simp] theorem dispatch_inited (s : State) : (dispatch s).inited = s.inited := (dispatch_frame s).2.1
@[simp] theorem dispatch_hostWait (s : State) : (dispatch s).hostWait = s.hostWait := (dispatch_frame s).2.2.1
@[simp] theorem dispatch_program (s : State) : (dispatch s).program = s.program := (dispatch_frame s).2.2.2.1
@[simp] theorem dispatch_hc (s : State) : (dispatch s).hc = s.hc := (dispatch_frame s).2.2.2.2.1
@[simp] theorem dispatch_hr (s : State) : (dispatch s).hr = s.hr := (dispatch_frame s).2.2.2.2.2.1
@[simp] theorem dispatch_ev (s : State) : (dispatch s).ev = s.ev := (dispatch_frame s).2.2.2.2.2.2.1
@[simp] theorem dispatch_cr (s : State) : (dispatch s).cr = s.cr := (dispatch_frame s).2.2.2.2.2.2.2.1
@[simp] theorem dispatch_destMem (s : State) : (dispatch s).destMem = s.destMem := (dispatch_frame s).2.2.2.2.2.2.2.2.1
@[simp] theorem dispatch_rst (s : State) : (dispatch s).rst = s.rst := (dispatch_frame s).2.2.2.2.2.2.2.2.2.1
@[simp] theorem dispatch_phy (s : State) : (dispatch s).phy = s.phy := (dispatch_frame s).2.2.2.2.2.2.2.2.2.2.1
@[simp] theorem dispatch_wire (s : State) : (dispatch s).wire = s.wire := (dispatch_frame s).2.2.2.2.2.2.2.2.2.2.2.1
@[simp] theorem dispatch_answers (s : State) : (dispatch s).answers = s.answers := (dispatch_frame s).2.2.2.2.2.2.2.2.2.2.2.2.1
@[simp] theorem dispatch_turns (s : State) : (dispatch s).turns = s.turns := (dispatch_frame s).2.2.2.2.2.2.2.2.2.2.2.2.2.1
@[simp] theorem dispatch_draws (s : State) : (dispatch s).draws = s.draws := (dispatch_frame s).2.2.2.2.2.2.2.2.2.2.2.2.2.2.1
@[simp] theorem dispatch_marks (s : State) : (dispatch s).marks = s.marks := (dispatch_frame s).2.2.2.2.2.2.2.2.2.2.2.2.2.2.2.1
@[simp] theorem dispatch_buf (s : State) : (dispatch s).buf = s.buf := (dispatch_frame s).2.2.2.2.2.2.2.2.2.2.2.2.2.2.2.2.1
@[simp] theorem dispatch_queue_length (s : State) : (dispatch s).queue.length = s.queue.length := (dispatch_frame s).2.2.2.2.2.2.2.2.2.2.2.2.2.2.2.2.2
@[simp] theorem dispatch_N (s : State) : (dispatch s).N = s.N := by simp [State.N]
@[simp] theorem dispatch_NPRIO (s : State) : (dispatch s).NPRIO = s.NPRIO := by simp [State.NPRIO]

/-! ### The idle transition -/

theorem take_padTo (n k : Nat) (bs : List Byte) : (padTo n k bs).take bs.length = bs := by simp [padTo]

theorem length_padTo {n : Nat} (k : Nat) {bs : List Byte} (h : bs.length ≤ n) : (padTo n k bs).length = n := by
  simp [padTo, unspecifiedBytes]
  omega

/-- The bytes of a transaction's payload that count. -/
theorem take_padTo_buf {s : State} (n k : Nat) (h : s.idx.toNat ≤ s.N) :
    (padTo n k (s.buf.take s.idx.toNat)).take s.idx.toNat = s.buf.take s.idx.toNat := by
  have hl : (s.buf.take s.idx.toNat).length = s.idx.toNat := by simpa [State.N] using h
  simpa [hl] using take_padTo n k (s.buf.take s.idx.toNat)

/-- `goIdle` as one record. -/
theorem goIdle_eq {s : State} (h : s.idx.toNat ≤ s.N) : goIdle s =
    { s with
      state := .ready
      cr := s.cr ++ [⟨s.state, s.err, s.dest, s.idx, padTo s.N s.draws (s.buf.take s.idx.toNat)⟩]
      draws := s.draws + 2
      destMem :=
        if s.state = .masterReceive ∨ s.state = .masterTransmitThenReceive then (deliver s).destMem else s.destMem
      hr := s.hr ++ heldResponses s.err s
      hostWait := if heldResponses s.err s = [] then s.hostWait else .idle } := by
  have hp := take_padTo_buf s.N s.draws h
  cases hs : s.state <;> cases hw : s.hostWait with
  | idle => simp [goIdle, answerHeld, completionOf, delivers, heldResponses, hs, hw, deliver]
  | waitReady c => simp [goIdle, answerHeld, completionOf, delivers, heldResponses, hs, hw, deliver]
  | waitDone c =>
    simp only [State.N] at hp
    cases c <;>
      simp [goIdle, answerHeld, completionOf, delivers, heldResponses, hs, hw, deliver, respond, codeOk, State.N, hp]

/-- `complete()` after the last PHY command, whenever `idx` lies in BUF. -/
theorem complete_issue {s : State} (w : PhyWord) (h : s.idx.toNat ≤ s.N) :
    complete (issue w s) = .next (dispatch (endedBy s.err w s)) := by
  rw [complete, if_neg (by simpa [State.N] using h), goIdle_eq (by simpa [State.N] using h)]
  rfl

theorem complete_fault {s : State} (h : s.N < s.idx.toNat) : complete s = .fault .bufferRange := by
  rw [complete, if_pos h]

/-- `fail(e)` (R132). -/
theorem fail_eq {s : State} (e : ErrRec) (h : s.idx.toNat ≤ s.N) :
    fail e s = .next (dispatch (endedBy e (if e = .arbLost then releaseWord else stopWord) s)) := by
  rw [fail, complete_issue _ (by simpa [State.N] using h)]
  rfl

theorem unexpected_eq {s : State} (h : s.idx.toNat ≤ s.N) :
    unexpected s = .next (dispatch (endedBy .busProtocolError stopWord (notePhy s))) := by
  rw [unexpected, fail_eq _ (by simpa [State.N] using h), if_neg (by decide)]

/-! ### The pending event -/

/-- What `latch` can do: nothing, or make the oldest event of EV pending. -/
theorem latch_cases (s : State) :
    (latch s = s ∧ (s.evtPending ≠ none ∨ s.ev = [])) ∨
      ∃ w rest, s.evtPending = none ∧ s.ev = w :: rest ∧ latch s = { s with evtPending := some w, ev := rest } := by
  unfold latch
  cases h1 : s.evtPending <;> cases h2 : s.ev <;> simp

end Sys2Proof.Machine
end

