-- ==== Sys2Proof/Laws/Step.lean ====
section
/-! SUPPORT. What a step and each agent's move can do, said once (inversion lemmas). -/

namespace Sys2Proof.Machine

/-- What is taken from an input, and what is left, belong to it. -/
theorem takeNext_mem {α : Type} {f g : Feed α} {a : α} (h : takeNext f = some (a, g)) :
    a ∈ f.now ++ f.again ∧ ∀ x ∈ g.now ++ g.again, x ∈ f.now ++ f.again := by
  obtain ⟨now, again⟩ := f
  unfold takeNext at h
  cases now with
  | cons b rest => cases h; simp +contextual
  | nil =>
    cases again with
    | nil => cases h
    | cons b rest =>
      cases h
      refine ⟨by simp, fun x hx => ?_⟩
      rcases List.mem_append.mp hx with hx | hx
      · exact List.mem_cons_of_mem _ hx
      · exact hx

/-- The host's move. -/
theorem hostTurn_cases {s : State} {r : Result} (h : hostTurn s = some r) :
    (∃ c rest, s.hostWait = .idle ∧ s.hc = c :: rest ∧ r = runHostCommand c { s with hc := rest }) ∨
    (∃ c rest, s.hostWait = .idle ∧ s.hc = [] ∧ takeNext s.program = some (c, rest) ∧
      r = .next { s with program := rest, hc := [c] }) ∨
    (∃ cmd, s.hostWait = .waitReady cmd ∧ s.state = .ready ∧ r = exec cmd { s with hostWait := .idle }) := by
  unfold hostTurn at h
  split at h
  · next hw =>
    split at h
    · next c rest hc => exact .inl ⟨c, rest, hw, hc, (Option.some.inj h).symm⟩
    · next hc =>
      split at h
      · next c rest hp => exact .inr (.inl ⟨c, rest, hw, hc, hp, (Option.some.inj h).symm⟩)
      · exact absurd h (by simp)
  · next cmd hw =>
    split at h
    · next hs => exact .inr (.inr ⟨cmd, hw, hs, (Option.some.inj h).symm⟩)
    · exact absurd h (by simp)
  · exact absurd h (by simp)

/-- The first ENABLE of channel PC splits it. -/
theorem findEnable_some {ws rest : List PhyWord} {b : Bool} {e : PhyWord} (h : findEnable ws = some (b, e, rest)) :
    ∃ before, ws = before ++ e :: rest ∧ (∀ v ∈ before, isEnable v = false) ∧ isEnable e = true ∧
      (b = true ↔ before ≠ []) := by
  induction ws generalizing b rest e with
  | nil => simp [findEnable] at h
  | cons w ws ih =>
    unfold findEnable at h
    split at h
    · next hw =>
      simp only [Option.some.injEq, Prod.mk.injEq] at h
      obtain ⟨rfl, rfl, rfl⟩ := h
      exact ⟨[], rfl, by simp, hw, by simp⟩
    · next hw =>
      split at h
      · next hf =>
        simp only [Option.some.injEq, Prod.mk.injEq] at h
        obtain ⟨rfl, rfl, rfl⟩ := h
        obtain ⟨before, rfl, h1, h2, -⟩ := ih hf
        refine ⟨w :: before, rfl, ?_, h2, by simp⟩
        intro v hv
        rcases List.mem_cons.mp hv with rfl | hv
        · simpa using hw
        · exact h1 v hv
      · exact absurd h (by simp)

theorem findEnable_none {ws : List PhyWord} : findEnable ws = none ↔ ∀ v ∈ ws, isEnable v = false := by
  induction ws with
  | nil => simp [findEnable]
  | cons w ws ih =>
    unfold findEnable
    cases hw : isEnable w
    · cases hf : findEnable ws with
      | none => simpa [hw] using ih.mp hf
      | some p =>
        simp only [Bool.false_eq_true, if_false, List.forall_mem_cons, hw]
        constructor
        · intro h; exact absurd h (by simp)
        · intro h; exact absurd (ih.mpr h.2) (by simp [hf])
    · simp [hw]

theorem findEnable_append {before rest : List PhyWord} {e : PhyWord} (h : ∀ v ∈ before, isEnable v = false)
    (he : isEnable e = true) : findEnable (before ++ e :: rest) = some (!before.isEmpty, e, rest) := by
  induction before with
  | nil => simp [findEnable, he]
  | cons w ws ih =>
    have hw : isEnable w = false := h w (by simp)
    simp [findEnable, hw, ih fun v hv => h v (by simp [hv])]

/-- The PHY's move. -/
theorem phyTurn_cases {s : State} {r : Result} (h : phyTurn s = some r) :
    (∃ before e rest, s.pc = before ++ e :: rest ∧ (∀ v ∈ before, isEnable v = false) ∧ isEnable e = true ∧
      r = runPhyWord e (abandonQueued (!before.isEmpty) { s with pc := rest })) ∨
    ((∀ v ∈ s.pc, isEnable v = false) ∧ s.phy.enabled = true ∧
      ((∃ q w rest, s.phy.outstanding = some q ∧ takeNext s.answers = some (w, rest) ∧
          r = .next (raiseEvent q w { s with answers := rest })) ∨
       (∃ w rest, s.phy.outstanding = none ∧ s.pc = w :: rest ∧ r = runPhyWord w { s with pc := rest }))) := by
  unfold phyTurn at h
  split at h
  · next b e rest hf =>
    obtain ⟨before, h1, h2, h3, -⟩ := findEnable_some hf
    rw [h1, findEnable_append h2 h3] at hf
    simp only [Option.some.injEq, Prod.mk.injEq] at hf
    exact .inl ⟨before, e, rest, h1, h2, h3, by rw [hf.1]; exact (Option.some.inj h).symm⟩
  · next hf =>
    refine .inr ⟨findEnable_none.mp hf, ?_⟩
    split at h
    · next hen =>
      refine ⟨hen, ?_⟩
      split at h
      · next q hq =>
        split at h
        · next w rest ha => exact .inl ⟨q, w, rest, hq, ha, (Option.some.inj h).symm⟩
        · exact absurd h (by simp)
      · next hq =>
        split at h
        · next w rest hp => exact .inr ⟨w, rest, hq, hp, (Option.some.inj h).symm⟩
        · exact absurd h (by simp)
    · exact absurd h (by simp)

/-- What happens while no event is pending: nothing, the PHY's move, or the host's. -/
theorem foregroundStep_cases (s : State) : ∃ ts,
    foregroundStep s = .next { s with turns := ts } ∨
    (∃ r, phyTurn { s with turns := ts } = some r ∧ foregroundStep s = r) ∨
    (∃ r, hostTurn { s with turns := ts } = some r ∧ foregroundStep s = r) := by
  unfold foregroundStep
  split
  · next a ts _ =>
    refine ⟨ts, ?_⟩
    unfold agentTurn
    split
    · cases phyTurn { s with turns := ts } with
      | some r => exact .inr (.inl ⟨r, rfl, rfl⟩)
      | none => exact .inl rfl
    · cases hostTurn { s with turns := ts } with
      | some r => exact .inr (.inr ⟨r, rfl, rfl⟩)
      | none => exact .inl rfl
  · refine ⟨s.turns, ?_⟩
    unfold defaultTurn
    split
    · next r hp => exact .inr (.inl ⟨r, hp, rfl⟩)
    · cases hostTurn s with
      | some r => exact .inr (.inr ⟨r, rfl, rfl⟩)
      | none => exact .inl rfl

/-- Everything one step can be (R10, R288, R320). -/
theorem step_cases (s : State) :
    (s.rst = true ∧ step s = .next (hardReset s)) ∨
    (s.rst = false ∧ ∃ w, s.evtPending = some w ∧ step s = runEventWord w { s with evtPending := none }) ∨
    (s.rst = false ∧ ∃ w rest, s.evtPending = none ∧ s.ev = w :: rest ∧
      step s = .next { s with evtPending := some w, ev := rest }) ∨
    (s.rst = false ∧ s.evtPending = none ∧ s.ev = [] ∧ ∃ ts,
      step s = .next { s with turns := ts } ∨
      (∃ r, phyTurn { s with turns := ts } = some r ∧ step s = r) ∨
      (∃ r, hostTurn { s with turns := ts } = some r ∧ step s = r)) := by
  unfold step
  split
  · next hr => exact .inl ⟨hr, rfl⟩
  · next hr =>
    have hr' : s.rst = false := by simpa using hr
    split
    · next w he => exact .inr (.inl ⟨hr', w, he, rfl⟩)
    · next he =>
      split
      · next w rest hv => exact .inr (.inr (.inl ⟨hr', w, rest, he, hv, by unfold latch; simp only [he, hv]⟩))
      · next hv => exact .inr (.inr (.inr ⟨hr', he, hv, foregroundStep_cases s⟩))

end Sys2Proof.Machine
end

