-- ==== Sys2Proof/Laws/Events.lean ====
section
/-! SUPPORT. Everything an event rule can do, said once: the transition table of R152 as an inversion lemma. -/

namespace Sys2Proof.Machine

/-- The continuations inside one transaction: the arms of R142, R144, R146 and R147 that do not end it. -/
inductive Continues (s : State) : State → Prop where
  | sendByte (b : Byte) (h : s.state = .masterTransmit) (hl : s.idx.toNat < s.len.toNat)
      (hb : s.buf[s.idx.toNat]? = some b) : Continues s (issue (sendWord b) { s with idx := s.idx + 1#8 })
  | sendRegister (h : s.state = .masterTransmitThenReceive ∨ (s.state = .masterReadModifyWrite ∧ s.dir = 0#1)) :
      Continues s (issue (sendWord s.reg) s)
  | receiveFirst (h : s.state = .masterReceive) : Continues s (issue (recvWord (moreExpected s)) s)
  | receiveOld (h : s.state = .masterReadModifyWrite) (hd : s.dir = 1#1) : Continues s (issue (recvWord false) s)
  | turnToReceive (h : s.state = .masterTransmitThenReceive) :
      Continues s { turnAround s with state := .masterReceive }
  | turnToReadOld (h : s.state = .masterReadModifyWrite) (hd : s.dir = 0#1) : Continues s (turnAround s)
  | store (b : Byte) (h : s.state = .masterReceive) (hm : s.idx.toNat + 2 ≤ s.len.toNat) (hn : s.idx.toNat < s.N) :
      Continues s (issue (recvWord (moreExpected (storeByte b s))) (storeByte b s))
  | merge (old : Byte) (h : s.state = .masterReadModifyWrite) (hd : s.dir = 1#1) (hn : 2 ≤ s.N) :
      Continues s (mergeAndWriteBack old s)

/-- The state an ending event leaves before the error exit or the final stop: the same, marked, or with the last byte
stored. -/
inductive EndsFrom (s : State) : State → Prop where
  | same : EndsFrom s s
  | marked : EndsFrom s (notePhy s)
  | stored (b : Byte) (h : s.state = .masterReceive) (hl : s.idx.toNat + 1 = s.len.toNat) (hn : s.idx.toNat < s.N) :
      EndsFrom s (storeByte b s)

/-- What an event can do (R142 to R151). -/
inductive EventEffect (s : State) : State → Prop where
  | discarded (h : s.state = .ready) : EventEffect s (notePhy s)
  | ended (u : State) (e : ErrRec) (w : PhyWord) (h : s.state ≠ .ready) (hu : EndsFrom s u)
      (hw : w = stopWord ∨ w = releaseWord) (hi : u.idx.toNat ≤ u.N) : EventEffect s (dispatch (endedBy e w u))
  | continued (t : State) (h : Continues s t) : EventEffect s t

theorem dir_cases (d : BitVec 1) : d = 0#1 ∨ d = 1#1 := by
  revert d; decide

theorem storeByte_N (b : Byte) (s : State) : (storeByte b s).N = s.N := by simp [State.N]

theorem complete_issue_effect {s u t : State} {w : PhyWord} (h : complete (issue w u) = .next t) (hs : s.state ≠ .ready)
    (hu : EndsFrom s u) (hw : w = stopWord ∨ w = releaseWord) : EventEffect s t := by
  by_cases hi : u.idx.toNat ≤ u.N
  · rw [complete_issue w hi] at h
    cases h
    exact .ended u _ w hs hu hw hi
  · rw [complete_fault (s := issue w u) (by simpa [State.N] using hi)] at h
    exact absurd h (by simp)

theorem fail_effect {s u t : State} {e : ErrRec} (h : fail e u = .next t) (hs : s.state ≠ .ready) (hu : EndsFrom s u) :
    EventEffect s t := by
  by_cases hi : u.idx.toNat ≤ u.N
  · rw [fail_eq e hi] at h
    cases h
    refine .ended u e _ hs hu ?_ hi
    split
    · exact .inr rfl
    · exact .inl rfl
  · rw [fail, complete_fault (by simpa [State.N] using hi)] at h
    exact absurd h (by simp)

theorem unexpected_effect {s t : State} (h : unexpected s = .next t) (hs : s.state ≠ .ready) : EventEffect s t :=
  fail_effect h hs .marked

theorem discardEvent_effect {s t : State} (h : discardEvent s = .next t) (hs : s.state = .ready) : EventEffect s t := by
  cases h; exact .discarded hs

theorem sendNext_effect {s t : State} (h : sendNext s = .next t) (hs : s.state = .masterTransmit) : EventEffect s t := by
  unfold sendNext at h
  split at h
  · next hm =>
    split at h
    · next b hb => cases h; exact .continued _ (.sendByte b hs (by simpa [moreToSend] using hm) hb)
    · exact absurd h (by simp)
  · exact complete_issue_effect h (by simp [hs]) .same (.inl rfl)

theorem execAddrAck_effect {s t : State} (h : execAddrAck s = .next t) : EventEffect s t := by
  unfold execAddrAck at h
  split at h
  · next hs => exact sendNext_effect h hs
  · next hs => cases h; exact .continued _ (.sendRegister (.inl hs))
  · next hs => cases h; exact .continued _ (.receiveFirst hs)
  · next hs =>
    split at h
    · next hd => cases h; exact .continued _ (.sendRegister (.inr ⟨hs, hd⟩))
    · next hd => cases h; exact .continued _ (.receiveOld hs ((dir_cases s.dir).resolve_left hd))
  · next hs => exact discardEvent_effect h hs

theorem execAddrNack_effect {s t : State} (h : execAddrNack s = .next t) : EventEffect s t := by
  unfold execAddrNack at h
  split at h
  · next hs => exact discardEvent_effect h hs
  · next hs => exact fail_effect h hs .same

theorem execDataAck_effect {s t : State} (h : execDataAck s = .next t) : EventEffect s t := by
  unfold execDataAck at h
  split at h
  · next hs => exact sendNext_effect h hs
  · next hs => cases h; exact .continued _ (.turnToReceive hs)
  · next hs =>
    split at h
    · next hd => cases h; exact .continued _ (.turnToReadOld hs hd)
    · exact unexpected_effect h (by simp [hs])
  · next hs => exact unexpected_effect h (by simp [hs])
  · next hs => exact discardEvent_effect h hs

theorem execDataNack_effect {s t : State} (h : execDataNack s = .next t) : EventEffect s t := by
  unfold execDataNack at h
  split at h
  · next hs => exact fail_effect h (by simp [hs]) .same
  · next hs => exact fail_effect h (by simp [hs]) .same
  · next hs =>
    split at h
    · exact fail_effect h (by simp [hs]) .same
    · exact unexpected_effect h (by simp [hs])
  · next hs => exact unexpected_effect h (by simp [hs])
  · next hs => exact discardEvent_effect h hs

theorem execRxAck_effect {b : Byte} {s t : State} (h : execRxAck b s = .next t) : EventEffect s t := by
  unfold execRxAck at h
  split at h
  · next hs =>
    split at h
    · next hm =>
      split at h
      · next hn => cases h; exact .continued _ (.store b hs (by simpa [moreExpected] using hm) hn)
      · exact absurd h (by simp)
    · exact unexpected_effect h (by simp [hs])
  · next hs => exact unexpected_effect h (by simp [hs])
  · next hs => exact unexpected_effect h (by simp [hs])
  · next hs => exact unexpected_effect h (by simp [hs])
  · next hs => exact discardEvent_effect h hs

theorem execRxNack_effect {b : Byte} {s t : State} (h : execRxNack b s = .next t) : EventEffect s t := by
  unfold execRxNack at h
  split at h
  · next hs =>
    split at h
    · next hm =>
      split at h
      · next hn =>
        exact complete_issue_effect h (by simp [hs]) (.stored b hs (by simpa [lastExpected] using hm) hn) (.inl rfl)
      · exact absurd h (by simp)
    · exact unexpected_effect h (by simp [hs])
  · next hs =>
    split at h
    · next hd =>
      split at h
      · next hn => cases h; exact .continued _ (.merge b hs hd hn)
      · exact absurd h (by simp)
    · exact unexpected_effect h (by simp [hs])
  · next hs => exact unexpected_effect h (by simp [hs])
  · next hs => exact unexpected_effect h (by simp [hs])
  · next hs => exact discardEvent_effect h hs

theorem execArbLost_effect {s t : State} (h : execArbLost s = .next t) : EventEffect s t := by
  unfold execArbLost at h
  split at h
  · next hs => exact discardEvent_effect h hs
  · next hs => exact fail_effect h hs .same

theorem execBusError_effect {s t : State} (h : execBusError s = .next t) : EventEffect s t := by
  unfold execBusError at h
  split at h
  · next hs => exact discardEvent_effect h hs
  · next hs => exact fail_effect h hs .same

theorem reservedEvent_effect {s t : State} (h : reservedEvent s = .next t) : EventEffect s t := by
  unfold reservedEvent at h
  split at h
  · next hs => exact discardEvent_effect h hs
  · next hs => exact unexpected_effect h hs

/-- A word of channel EV decodes to an event. -/
theorem decode_ev_channel {w : EventWord} {i : Instr} (h : decode (.ev w) = .ok i) : i.channel = .ev := by
  simp only [decode, decodeEvent] at h
  split at h <;> cases h <;> rfl

/-- A word of channel HC decodes to a host command. -/
theorem decode_hc_channel {w : HostHeader} {d : List Byte} {i : Instr} (h : decode (.hc w d) = .ok i) :
    i.channel = .hc := by
  simp only [decode, decodeHost] at h
  split at h <;> cases h <;> rfl

/-- A word of channel PC decodes to a PHY command. -/
theorem decode_pc_channel {w : PhyWord} {i : Instr} (h : decode (.pc w) = .ok i) : i.channel = .pc := by
  simp only [decode, decodePhy] at h
  split at h <;> cases h <;> rfl

/-- What the handler can do with an event word (R130). -/
theorem runEventWord_effect {w : EventWord} {s t : State} (h : runEventWord w s = .next t) : EventEffect s t := by
  unfold runEventWord at h
  split at h
  · next i hi =>
    have hc := decode_ev_channel hi
    cases i <;> simp [Instr.channel] at hc
    · exact execAddrAck_effect h
    · exact execAddrNack_effect h
    · exact execDataAck_effect h
    · exact execDataNack_effect h
    · exact execRxAck_effect h
    · exact execRxNack_effect h
    · exact execArbLost_effect h
    · exact execBusError_effect h
  · exact reservedEvent_effect h

end Sys2Proof.Machine
end

