-- ==== Sys2Proof/Laws/HostCommands.lean ====
section
/-! SUPPORT. Everything a host command and a PHY command can do, said once (inversion lemmas). -/

namespace Sys2Proof.Machine

theorem lenValid_iff {s : State} {len : Byte} : lenValid s len = true ↔ 1 ≤ len.toNat ∧ len.toNat ≤ s.N := by
  simp [lenValid]

/-- A slot fill of ENQ_READ or ENQ_MWRITE: one empty slot of one level takes a request (R240, R241). -/
inductive Fills (s : State) (level : Level) : Level → Prop where
  | read (r : ReadReq) (he : level.rq = none) (hl : 1 ≤ r.len.toNat ∧ r.len.toNat ≤ s.N) :
      Fills s level { level with rq := some r }
  | maskedWrite (w : WriteReq) (he : level.wq = none) : Fills s level { level with wq := some w }

/-- What a host command can do. -/
inductive HostEffect (s : State) : State → Prop where
  | answered (c : Byte) : HostEffect s (respond c 0#8 [] (noteUse s))
  | rejectedRead :
      HostEffect s { respond codeOk 0#8 (padTo s.N s.draws []) (noteUse s) with draws := s.draws + 1 }
  | polled : HostEffect s (respond (pollCode s) s.idx [] s)
  | initialised (t : State) (h : execInit s = .next t) : HostEffect s t
  | heldWrite (wait : Bool) (a : DevAddr) (l : Byte) (p : List Byte) (hs : s.state ≠ .ready) (hl : lenValid s l = true) :
      HostEffect s { noteUse s with hostWait := .waitReady (.write wait a l p) }
  | heldRead (a : DevAddr) (l d : Byte) (hs : s.state ≠ .ready) (hl : lenValid s l = true) :
      HostEffect s { noteUse s with hostWait := .waitReady (.readInto a l d) }
  | wroteWaiting (a : DevAddr) (l : Byte) (p : List Byte) (hs : s.state = .ready) (hl : lenValid s l = true)
      (hp : l.toNat ≤ p.length) :
      HostEffect s { beginWrite a l p (noteUse s) with hostWait := .waitDone (.write true a l p) }
  | wrote (a : DevAddr) (l : Byte) (p : List Byte) (hs : s.state = .ready) (hl : lenValid s l = true)
      (hp : l.toNat ≤ p.length) : HostEffect s (respond codeOk 0#8 [] (beginWrite a l p (noteUse s)))
  | readWaiting (a : DevAddr) (l d : Byte) (hs : s.state = .ready) (hl : lenValid s l = true) :
      HostEffect s { beginRead a d l (noteUse s) with hostWait := .waitDone (.readInto a l d) }
  | read (a : DevAddr) (l d : Byte) (hs : s.state = .ready) (hl : lenValid s l = true) :
      HostEffect s (respond codeOk 0#8 [] (beginRead a d l (noteUse s)))
  | regread (a : DevAddr) (r l d : Byte) (hs : s.state = .ready) (hl : lenValid s l = true) :
      HostEffect s (respond codeOk 0#8 [] (beginRegread a r d l (noteUse s)))
  | rmw (a : DevAddr) (r d m : Byte) (hs : s.state = .ready) :
      HostEffect s (respond codeOk 0#8 [] (beginRmw a r d m (noteUse s)))
  | enqueued (p : Nat) (l l' : Level) (hs : s.state ≠ .ready) (hp : s.queue[p]? = some l) (hf : Fills s l l') :
      HostEffect s (respond codeOk 0#8 [] { noteUse s with queue := s.queue.set p l' })
  | enqueuedIdle (p : Nat) (l l' : Level) (hs : s.state = .ready) (hp : s.queue[p]? = some l) (hf : Fills s l l') :
      HostEffect s (respond codeOk 0#8 [] (dispatch { noteUse s with queue := s.queue.set p l' }))

theorem execWrite_effect {wait : Bool} {a : DevAddr} {l : Byte} {p : List Byte} {s t : State}
    (h : execWrite wait a l p s = .next t) : HostEffect s t := by
  unfold execWrite at h
  split at h
  · cases h; exact .answered _
  · next hl =>
    have hl' : lenValid s l = true := by simpa using hl
    split at h
    · next hs => cases h; exact .heldWrite _ _ _ _ hs hl'
    · next hs =>
      have hs' : s.state = .ready := not_not.mp hs
      split at h
      · exact absurd h (by simp)
      · next hp =>
        split at h
        · next hw => cases h; cases hw; exact .wroteWaiting a l p hs' hl' (by omega)
        · cases h; exact .wrote a l p hs' hl' (by omega)

theorem execReadInto_effect {a : DevAddr} {l d : Byte} {s t : State} (h : execReadInto a l d s = .next t) :
    HostEffect s t := by
  unfold execReadInto at h
  split at h
  · cases h; exact .rejectedRead
  · next hl =>
    have hl' : lenValid s l = true := by simpa using hl
    split at h
    · next hs => cases h; exact .heldRead _ _ _ hs hl'
    · next hs => cases h; exact .readWaiting a l d (not_not.mp hs) hl'

theorem execNbReadInto_effect {a : DevAddr} {l d : Byte} {s t : State} (h : execNbReadInto a l d s = .next t) :
    HostEffect s t := by
  unfold execNbReadInto at h
  split at h
  · cases h; exact .answered _
  · next hl =>
    split at h
    · cases h; exact .answered _
    · next hs => cases h; exact .read a l d (not_not.mp hs) (by simpa using hl)

theorem execNbReadReg_effect {a : DevAddr} {r l d : Byte} {s t : State} (h : execNbReadReg a r l d s = .next t) :
    HostEffect s t := by
  unfold execNbReadReg at h
  split at h
  · cases h; exact .answered _
  · next hl =>
    split at h
    · cases h; exact .answered _
    · next hs => cases h; exact .regread a r l d (not_not.mp hs) (by simpa using hl)

theorem execRmwReg_effect {a : DevAddr} {r d m : Byte} {s t : State} (h : execRmwReg a r d m s = .next t) :
    HostEffect s t := by
  unfold execRmwReg at h
  split at h
  · cases h; exact .answered _
  · next hs => cases h; exact .rmw a r d m (not_not.mp hs)

theorem execEnqRead_effect {p : Prio} {a : DevAddr} {r l d : Byte} {s t : State}
    (h : execEnqRead p a r l d s = .next t) : HostEffect s t := by
  unfold execEnqRead at h
  split at h
  · cases h; exact .answered _
  · next level hp =>
    split at h
    · cases h; exact .answered _
    · next hl =>
      split at h
      · cases h; exact .answered _
      · next he =>
        have hf : Fills s level { level with rq := some ⟨a, r, d, l⟩ } :=
          .read _ (not_not.mp he) (lenValid_iff.mp (by simpa using hl))
        unfold dispatchIfReady at h
        split at h
        · next hs => cases h; exact .enqueuedIdle p.toNat level _ hs hp hf
        · next hs => cases h; exact .enqueued p.toNat level _ hs hp hf

theorem execEnqMwrite_effect {p : Prio} {a : DevAddr} {r d m : Byte} {s t : State}
    (h : execEnqMwrite p a r d m s = .next t) : HostEffect s t := by
  unfold execEnqMwrite at h
  split at h
  · cases h; exact .answered _
  · next level hp =>
    split at h
    · cases h; exact .answered _
    · next he =>
      have hf : Fills s level { level with wq := some ⟨a, r, d, m⟩ } := .maskedWrite _ (not_not.mp he)
      unfold dispatchIfReady at h
      split at h
      · next hs => cases h; exact .enqueuedIdle p.toNat level _ hs hp hf
      · next hs => cases h; exact .enqueued p.toNat level _ hs hp hf

/-- What any operation of channel HC can do. -/
theorem exec_host_effect {i : Instr} {s t : State} (hc : i.channel = .hc) (h : exec i s = .next t) : HostEffect s t := by
  cases i <;> simp [Instr.channel] at hc
  · exact .initialised t h
  · exact execWrite_effect h
  · exact execReadInto_effect h
  · exact execNbReadInto_effect h
  · exact execNbReadReg_effect h
  · exact execRmwReg_effect h
  · exact execEnqRead_effect h
  · exact execEnqMwrite_effect h
  · cases h; exact .polled

/-- What a word of channel HC can do (R92, R272). -/
theorem runHostCommand_effect {c : HostCommand} {s t : State} (h : runHostCommand c s = .next t) : HostEffect s t := by
  unfold runHostCommand at h
  split at h
  · next i hi => exact exec_host_effect (decode_hc_channel hi) h
  · cases h; exact .answered _

/-- A PHY command writes the PHY, the wire and the draw counter, and nothing of the engine (R135). -/
theorem exec_phy_frame {i : Instr} {s t : State} (hc : i.channel = .pc) (h : exec i s = .next t) :
    ∃ phy wire draws, t = { s with phy := phy, wire := wire, draws := draws } := by
  cases i <;> simp [Instr.channel] at hc
  all_goals
    simp only [exec, execStart, execSend, execRecv, execStop, execRelease, execEnable] at h
    split at h <;> cases h <;> exact ⟨_, _, _, rfl⟩

/-- What a word of channel PC can do. -/
theorem runPhyWord_frame {w : PhyWord} {s t : State} (h : runPhyWord w s = .next t) :
    ∃ phy wire draws, t = { s with phy := phy, wire := wire, draws := draws } := by
  unfold runPhyWord at h
  split at h
  · next i hi => exact exec_phy_frame (decode_pc_channel hi) h
  · exact absurd h (by simp)
  · exact absurd h (by simp)

/-- Raising an event with none pending and EV empty, the only place the PHY does it: it becomes pending (R285). -/
theorem raiseEvent_eq {s : State} (r : PhyRequest) (w : EventWord) (he : s.evtPending = none) (hv : s.ev = []) :
    raiseEvent r w s =
      { s with
        phy := { s.phy with outstanding := none }
        evtPending := some w
        wire := s.wire ++ wireOfEvent w
        marks := if answerAllowed r w then s.marks else ⟨s.marks.usedBeforeInit, s.marks.initWhileBusy, true⟩ } := by
  unfold raiseEvent
  cases answerAllowed r w
  · have h1 : (notePhy s).evtPending = none := he
    have h2 : (notePhy s).ev = [] := hv
    simp [latch, he, hv]
  · simp [latch, he, hv]

end Sys2Proof.Machine
end

