-- ==== Sys2Proof/Laws/Effects.lean ====
section
/-! SUPPORT. Everything one step can do, with the effect of each agent's move, and what each effect leaves alone. -/

namespace Sys2Proof.Machine

theorem decode_enable {w : PhyWord} (h : isEnable w = true) : decode (.pc w) = .ok .enable := by
  simp only [isEnable, beq_iff_eq] at h
  simp only [decode, decodePhy, h]

/-- What a step that answers a next state did (R10, R288, R320). -/
inductive StepEffect (s : State) : State → Prop where
  | reset (h : s.rst = true) : StepEffect s (hardReset s)
  | handled (t : State) (w : EventWord) (hr : s.rst = false) (h : s.evtPending = some w)
      (hx : runEventWord w { s with evtPending := none } = .next t)
      (he : EventEffect { s with evtPending := none } t) : StepEffect s t
  | latched (w : EventWord) (rest : List EventWord) (hr : s.rst = false) (h : s.evtPending = none)
      (hv : s.ev = w :: rest) : StepEffect s { s with evtPending := some w, ev := rest }
  | stood (ts : Feed Agent) (hr : s.rst = false) (h : s.evtPending = none) (hv : s.ev = []) :
      StepEffect s { s with turns := ts }
  | enabled (t : State) (ts : Feed Agent) (before rest : List PhyWord) (w : PhyWord) (hr : s.rst = false)
      (h : s.evtPending = none) (hv : s.ev = []) (hp : s.pc = before ++ w :: rest)
      (hb : ∀ v ∈ before, isEnable v = false) (hw : isEnable w = true)
      (hx : exec .enable (abandonQueued (!before.isEmpty) { s with turns := ts, pc := rest }) = .next t) : StepEffect s t
  | raised (ts : Feed Agent) (q : PhyRequest) (w : EventWord) (rest : Feed EventWord) (hr : s.rst = false)
      (h : s.evtPending = none) (hv : s.ev = []) (hb : ∀ v ∈ s.pc, isEnable v = false) (hen : s.phy.enabled = true)
      (ho : s.phy.outstanding = some q) (ha : takeNext s.answers = some (w, rest)) :
      StepEffect s (raiseEvent q w { s with turns := ts, answers := rest })
  | performed (t : State) (ts : Feed Agent) (w : PhyWord) (rest : List PhyWord) (i : Instr) (hr : s.rst = false)
      (h : s.evtPending = none) (hv : s.ev = []) (hb : ∀ v ∈ s.pc, isEnable v = false) (hen : s.phy.enabled = true)
      (ho : s.phy.outstanding = none) (hp : s.pc = w :: rest) (hd : decode (.pc w) = .ok i)
      (hx : exec i { s with turns := ts, pc := rest } = .next t) : StepEffect s t
  | commanded (t : State) (ts : Feed Agent) (c : HostCommand) (rest : List HostCommand) (hr : s.rst = false)
      (h : s.evtPending = none) (hv : s.ev = []) (hw : s.hostWait = .idle) (hc : s.hc = c :: rest)
      (hx : runHostCommand c { s with turns := ts, hc := rest } = .next t) : StepEffect s t
  | sent (ts : Feed Agent) (c : HostCommand) (rest : Feed HostCommand) (hr : s.rst = false) (h : s.evtPending = none)
      (hv : s.ev = []) (hw : s.hostWait = .idle) (hc : s.hc = []) (hp : takeNext s.program = some (c, rest)) :
      StepEffect s { s with turns := ts, program := rest, hc := [c] }
  | claimed (t : State) (ts : Feed Agent) (cmd : Instr) (hr : s.rst = false) (h : s.evtPending = none) (hv : s.ev = [])
      (hw : s.hostWait = .waitReady cmd) (hs : s.state = .ready)
      (hx : exec cmd { s with turns := ts, hostWait := .idle } = .next t) : StepEffect s t

theorem step_effect {s t : State} (hs : step s = .next t) : StepEffect s t := by
  rcases step_cases s with ⟨hr, e⟩ | ⟨hr, w, hw, e⟩ | ⟨hr, w, rest, h1, h2, e⟩ | ⟨hr, he, hv, ts, e | ⟨r, hp, e⟩ | ⟨r, hp, e⟩⟩
    <;> rw [e] at hs
  · cases hs; exact .reset hr
  · exact .handled t w hr hw hs (runEventWord_effect hs)
  · cases hs; exact .latched w rest hr h1 h2
  · cases hs; exact .stood ts hr he hv
  · subst hs
    rcases phyTurn_cases hp with ⟨b, w, rest, h1, h2, h3, hx⟩ | ⟨h1, h2, ⟨q, w, rest, ho, ha, hx⟩ | ⟨w, rest, ho, hp, hx⟩⟩
    · unfold runPhyWord at hx
      rw [decode_enable h3] at hx
      exact .enabled t ts b rest w hr he hv h1 h2 h3 hx.symm
    · cases hx; exact .raised ts q w rest hr he hv h1 h2 ho ha
    · unfold runPhyWord at hx
      split at hx
      · next i hi => exact .performed t ts w rest i hr he hv h1 h2 ho hp hi hx.symm
      · cases hx
      · cases hx
  · subst hs
    rcases hostTurn_cases hp with ⟨c, rest, hw, hc, hx⟩ | ⟨c, rest, hw, hc, hn, hx⟩ | ⟨cmd, hw, hs, hx⟩
    · exact .commanded t ts c rest hr he hv hw hc hx.symm
    · cases hx; exact .sent ts c rest hr he hv hw hc hn
    · exact .claimed t ts cmd hr he hv hw hs hx.symm

/-- What an ENABLE that waits in PC leaves alone (R140). -/
theorem enable_frame {s t : State} {b : Bool} (h : exec .enable (abandonQueued b s) = .next t) :
    ∃ bus wire, t = { s with phy := ⟨true, none, bus⟩, wire := wire } := by
  unfold abandonQueued at h
  simp only [exec, execEnable] at h
  repeat' split at h
  all_goals (cases h; exact ⟨_, _, rfl⟩)

/-- In `Ready` an operation of channel EV only marks the run. -/
theorem exec_ready {i : Instr} {s t : State} (hs : s.state = .ready) (h : exec i s = .next t) :
    HostEffect s t ∨ t = notePhy s ∨ ∃ phy wire draws, t = { s with phy := phy, wire := wire, draws := draws } := by
  cases hc : i.channel
  · exact .inl (exec_host_effect hc h)
  · refine .inr (.inl ?_)
    cases i <;> simp [Instr.channel] at hc <;>
      simp only [exec, execAddrAck, execAddrNack, execDataAck, execDataNack, execRxAck, execRxNack, execArbLost,
        execBusError, hs, discardEvent] at h <;>
      (cases h; rfl)
  · exact .inr (.inr (exec_phy_frame hc h))

/-- A host command other than INIT leaves a busy engine busy (R77). -/
theorem exec_busy {i : Instr} {s t : State} (hi : i ≠ .init) (hc : i.channel = .hc) (hs : s.state ≠ .ready)
    (h : exec i s = .next t) : t.state ≠ .ready := by
  cases i <;> simp [Instr.channel] at hc hi
  all_goals
    simp only [exec, execWrite, execReadInto, execNbReadInto, execNbReadReg, execRmwReg, execEnqRead, execEnqMwrite,
      execPoll, dispatchIfReady] at h
  all_goals (repeat' split at h)
  all_goals first | (cases h; exact hs) | contradiction

/-- What a host command can do to a busy engine: INIT, or the host's own registers, a draw and one slot (R77, R242,
R326). -/
theorem runHostCommand_busy {c : HostCommand} {s t : State} (h : runHostCommand c s = .next t) (hs : s.state ≠ .ready) :
    (decode (.hc c.header c.wdata) = .ok .init ∧ execInit s = .next t) ∨
      ∃ hw hr m q d, t = { s with hostWait := hw, hr := hr, marks := m, queue := q, draws := d } ∧
        (q = s.queue ∨ ∃ p l l', s.queue[p]? = some l ∧ Fills s l l' ∧ q = s.queue.set p l') := by
  unfold runHostCommand at h
  split at h
  · next i hi =>
    by_cases hini : i = .init
    · subst hini; exact .inl ⟨hi, h⟩
    refine .inr ?_
    have hc := decode_hc_channel hi
    have hb := exec_busy hini hc hs h
    cases exec_host_effect hc h with
    | answered c => exact ⟨_, _, _, _, _, rfl, .inl rfl⟩
    | rejectedRead => exact ⟨_, _, _, _, _, rfl, .inl rfl⟩
    | polled => exact ⟨_, _, _, _, _, rfl, .inl rfl⟩
    | initialised t h' => exact absurd (by cases h'; rfl) hb
    | heldWrite => exact ⟨_, _, _, _, _, rfl, .inl rfl⟩
    | heldRead => exact ⟨_, _, _, _, _, rfl, .inl rfl⟩
    | wroteWaiting _ _ _ hs' => exact absurd hs' hs
    | wrote _ _ _ hs' => exact absurd hs' hs
    | readWaiting _ _ _ hs' => exact absurd hs' hs
    | read _ _ _ hs' => exact absurd hs' hs
    | regread _ _ _ _ hs' => exact absurd hs' hs
    | rmw _ _ _ _ hs' => exact absurd hs' hs
    | enqueued p l l' _ hp hf => exact ⟨_, _, _, _, _, rfl, .inr ⟨p, l, l', hp, hf, rfl⟩⟩
    | enqueuedIdle p l l' hs' => exact absurd hs' hs
  · cases h; exact ⟨_, _, _, _, _, rfl, .inl rfl⟩ |> .inr

/-! ### Channel PC and the requests owed (R141) -/

theorem owedAfter_append (rs : List PhyRequest) (ws : List PhyWord) (w : PhyWord) :
    owedAfter rs (ws ++ [w]) = if isEnable w then [] else owedAfter rs ws ++ (requestOf w).toList := by
  induction ws generalizing rs with
  | nil => simp [owedAfter]
  | cons v ws ih => simp only [List.cons_append, owedAfter]; split <;> exact ih _

theorem owedAfter_enable {before rest : List PhyWord} {w : PhyWord} (rs : List PhyRequest)
    (h : ∀ v ∈ before, isEnable v = false) (hw : isEnable w = true) :
    owedAfter rs (before ++ w :: rest) = owedAfter [] rest := by
  induction before generalizing rs with
  | nil => simp [owedAfter, hw]
  | cons v b ih =>
    simp only [List.cons_append, owedAfter, h v (by simp)]
    exact ih _ fun v hv => h v (by simp [hv])

theorem owedAfter_of_no_enable {ws : List PhyWord} (rs : List PhyRequest) (h : ∀ v ∈ ws, isEnable v = false) :
    owedAfter rs ws = rs ++ ws.flatMap fun w => (requestOf w).toList := by
  induction ws generalizing rs with
  | nil => simp [owedAfter]
  | cons v b ih =>
    rw [owedAfter, h v (by simp), if_neg (by simp), ih _ fun v hv => h v (by simp [hv])]
    simp

end Sys2Proof.Machine
end

