-- ==== Sys2Proof/Laws/Encoding.lean ====
section
/-! SUPPORT. The bits and fields of the words the encoder writes (R91, R99, R100). -/

namespace Sys2Proof

/-- R91: every bit of a host command word. -/
theorem hostWord_getLsbD (op : BitVec 4) (wait : Bool) (prio : Prio) (sla : DevAddr) (reg a b : Byte) (i : Nat) :
    (hostWord op wait prio sla reg a b).getLsbD i =
      if i < 8 then b.getLsbD i else if i < 16 then a.getLsbD (i - 8) else if i < 24 then reg.getLsbD (i - 16)
      else if i < 25 then false else if i < 32 then sla.getLsbD (i - 25) else if i < 35 then prio.getLsbD (i - 32)
      else if i < 36 then wait else op.getLsbD (i - 36) := by
  unfold hostWord
  simp only [BitVec.getLsbD_append, BitVec.getLsbD_ofBool, BitVec.getLsbD_zero]
  repeat' split
  all_goals first
    | omega
    | rfl
    | (rw [decide_eq_true (by omega), Bool.true_and])

theorem op_hostWord (op : BitVec 4) (wait : Bool) (prio : Prio) (sla : DevAddr) (reg a b : Byte) :
    HostHeader.op (hostWord op wait prio sla reg a b) = op := by
  apply BitVec.eq_of_getLsbD_eq
  intro i hi
  simp only [HostHeader.op, BitVec.getLsbD_extractLsb', hostWord_getLsbD, hi, decide_true, Bool.true_and]
  simp (disch := omega) only [if_neg]
  congr 1
  omega

/-- R99, R100: the operation number of a short word. -/
theorem codeOf_shortWord (c : BitVec 4) (a : Byte) : codeOf (shortWord c a) = c := by
  apply BitVec.eq_of_getLsbD_eq
  intro i hi
  simp only [codeOf, shortWord, BitVec.getLsbD_extractLsb', BitVec.getLsbD_append, hi, decide_true, Bool.true_and]
  rw [if_neg (by omega)]
  congr 1
  omega

/-- R99, R100: the low byte of a short word. -/
theorem argOf_shortWord (c : BitVec 4) (a : Byte) : argOf (shortWord c a) = a := by
  apply BitVec.eq_of_getLsbD_eq
  intro i hi
  simp only [argOf, shortWord, BitVec.getLsbD_extractLsb', BitVec.getLsbD_append, hi, decide_true, Bool.true_and]
  rw [if_pos (by omega)]
  congr 1
  omega

namespace Machine

theorem isEnable_shortWord (c : BitVec 4) (a : Byte) : isEnable (shortWord c a) = (c == 0x5#4) := by
  simp [isEnable, codeOf_shortWord]

end Machine

end Sys2Proof
end

