-- ==== Sys2Proof/Laws/PerInstr.lean ====
section
/-! SUPPORT. Per instruction: its word carries its channel and its operation number where R91, R99 and R100 put them. -/

namespace Sys2Proof.Laws.OpField

/-- The operation number field of the word of `i`, and the channel it travels on. -/
def Statement (i : Instr) : Prop := (encode i).opField = (i.channel, i.opNumber)

theorem init : Statement .init :=
  congrArg _ (op_hostWord _ _ _ _ _ _ _)
theorem write (wait : Bool) (sla : DevAddr) (len : Byte) (wdata : List Byte) : Statement (.write wait sla len wdata) :=
  congrArg _ (op_hostWord _ _ _ _ _ _ _)
theorem readInto (sla : DevAddr) (len : Byte) (dest : Byte) : Statement (.readInto sla len dest) :=
  congrArg _ (op_hostWord _ _ _ _ _ _ _)
theorem nbReadInto (sla : DevAddr) (len : Byte) (dest : Byte) : Statement (.nbReadInto sla len dest) :=
  congrArg _ (op_hostWord _ _ _ _ _ _ _)
theorem nbReadReg (sla : DevAddr) (reg : Byte) (len : Byte) (dest : Byte) : Statement (.nbReadReg sla reg len dest) :=
  congrArg _ (op_hostWord _ _ _ _ _ _ _)
theorem rmwReg (sla : DevAddr) (reg : Byte) (data : Byte) (mask : Byte) : Statement (.rmwReg sla reg data mask) :=
  congrArg _ (op_hostWord _ _ _ _ _ _ _)
theorem enqRead (prio : Prio) (sla : DevAddr) (reg : Byte) (len : Byte) (dest : Byte) : Statement (.enqRead prio sla reg len dest) :=
  congrArg _ (op_hostWord _ _ _ _ _ _ _)
theorem enqMwrite (prio : Prio) (sla : DevAddr) (reg : Byte) (data : Byte) (mask : Byte) : Statement (.enqMwrite prio sla reg data mask) :=
  congrArg _ (op_hostWord _ _ _ _ _ _ _)
theorem poll : Statement .poll :=
  congrArg _ (op_hostWord _ _ _ _ _ _ _)
theorem addrAck : Statement .addrAck :=
  congrArg _ (codeOf_shortWord _ _)
theorem addrNack : Statement .addrNack :=
  congrArg _ (codeOf_shortWord _ _)
theorem dataAck : Statement .dataAck :=
  congrArg _ (codeOf_shortWord _ _)
theorem dataNack : Statement .dataNack :=
  congrArg _ (codeOf_shortWord _ _)
theorem rxAck (data : Byte) : Statement (.rxAck data) :=
  congrArg _ (codeOf_shortWord _ _)
theorem rxNack (data : Byte) : Statement (.rxNack data) :=
  congrArg _ (codeOf_shortWord _ _)
theorem arbLost : Statement .arbLost :=
  congrArg _ (codeOf_shortWord _ _)
theorem busError : Statement .busError :=
  congrArg _ (codeOf_shortWord _ _)
theorem start (sla : DevAddr) (dir : BitVec 1) : Statement (.start sla dir) :=
  congrArg _ (codeOf_shortWord _ _)
theorem send (byte : Byte) : Statement (.send byte) :=
  congrArg _ (codeOf_shortWord _ _)
theorem recv (ack : Bool) : Statement (.recv ack) :=
  congrArg _ (codeOf_shortWord _ _)
theorem stop : Statement .stop :=
  congrArg _ (codeOf_shortWord _ _)
theorem release : Statement .release :=
  congrArg _ (codeOf_shortWord _ _)
theorem enable : Statement .enable :=
  congrArg _ (codeOf_shortWord _ _)

end Sys2Proof.Laws.OpField
end

