-- ==== Sys2Proof/Tests/Slice0.lean ====
section
/-! SUPPORT. Tests: the spec's own vectors (95_test_vectors: E, B, T, M, W, Q, Y) and worked words, one step each, and a
witness for the hypotheses of every obligation. -/

namespace Sys2Proof.Tests

open Sys2Proof Sys2Proof.Machine

/-! ### Words, from the tables of R91, R92, R99, R100 and vectors E1 to E23 -/

/-- Host command words written out field by field: op, wait, prio, sla, z, reg, a, b. -/
theorem test_words_hc :
    decode (.hc 0b0000_0_000_0000000_0_00000000_00000000_00000000#40 []) = .ok .init ∧
    decode (.hc 0b0001_1_000_0100000_0_00000000_00000010_00000000#40 [0x00#8, 0xFF#8]) =
      .ok (.write true 0x20#7 2#8 [0x00#8, 0xFF#8]) ∧
    decode (.hc 0b0010_0_000_0100000_0_00000000_00000011_00000111#40 []) = .ok (.readInto 0x20#7 3#8 7#8) ∧
    decode (.hc 0b0011_0_000_0100000_0_00000000_00000010_00000101#40 []) = .ok (.nbReadInto 0x20#7 2#8 5#8) ∧
    decode (.hc 0b0100_0_000_0100000_0_00000000_00000001_00001001#40 []) = .ok (.nbReadReg 0x20#7 0#8 1#8 9#8) ∧
    decode (.hc 0b0101_0_000_0100000_0_00010010_00001111_00001111#40 []) =
      .ok (.rmwReg 0x20#7 0x12#8 0x0F#8 0x0F#8) ∧
    decode (.hc 0b0110_0_001_0100000_0_00010011_00000001_00000111#40 []) =
      .ok (.enqRead 1#3 0x20#7 0x13#8 1#8 7#8) ∧
    decode (.hc 0b0111_0_000_0100000_0_00010100_00000001_00000001#40 []) =
      .ok (.enqMwrite 0#3 0x20#7 0x14#8 1#8 1#8) ∧
    decode (.hc 0b1000_0_000_0000000_0_00000000_00000000_00000000#40 []) = .ok .poll := by decide

/-- Event words written out: code, data (E20, E21). -/
theorem test_words_ev :
    decode (.ev 0b0000_00000000#12) = .ok .addrAck ∧ decode (.ev 0b0001_00000000#12) = .ok .addrNack ∧
    decode (.ev 0b0010_00000000#12) = .ok .dataAck ∧ decode (.ev 0b0011_00000000#12) = .ok .dataNack ∧
    decode (.ev 0b0100_00010001#12) = .ok (.rxAck 0x11#8) ∧ decode (.ev 0b0101_11110000#12) = .ok (.rxNack 0xF0#8) ∧
    decode (.ev 0b0110_00000000#12) = .ok .arbLost ∧ decode (.ev 0b0111_00000000#12) = .ok .busError := by decide

/-- PHY command words written out: op, then the address and direction, the byte, or the acknowledge bit (E22, E23). -/
theorem test_words_pc :
    decode (.pc 0b0000_0100000_1#12) = .ok (.start 0x20#7 1#1) ∧ decode (.pc 0b0000_1111111_1#12) = .ok (.start 0x7F#7 1#1) ∧
    decode (.pc 0b0001_11111111#12) = .ok (.send 0xFF#8) ∧ decode (.pc 0b0010_0000000_1#12) = .ok (.recv true) ∧
    decode (.pc 0b0010_0000000_0#12) = .ok (.recv false) ∧ decode (.pc 0b0011_00000000#12) = .ok .stop ∧
    decode (.pc 0b0100_00000000#12) = .ok .release ∧ decode (.pc 0b0101_00000000#12) = .ok .enable := by decide

/-- E14, E9, E10 and the reserved numbers of R103. -/
theorem test_words_corners :
    encode (.enqMwrite 7#3 0x7F#7 0xFF#8 0xFF#8 0xFF#8) = .hc 0x77FEFFFFFF#40 [] ∧
    encode (pseudoSetBits 0x20#7 0x12#8 0x0F#8) = .hc 0x5040120F0F#40 [] ∧
    encode (pseudoClearBits 0x20#7 0x12#8 0xF0#8) = .hc 0x50401200F0#40 [] ∧
    decode (.hc 0xF000000000#40 []) = .error (.hostCommand 0xF#4) ∧ decode (.ev 0x900#12) = .error (.event 9#4) ∧
    decode (.pc 0x600#12) = .error (.phyCommand 6#4) := by decide

/-- Bit 24 and the unused fields of a POLL are ignored (R103). -/
theorem test_unused_fields_are_ignored : decode (.hc 0x8FFFFFFFFF#40 []) = .ok .poll := by decide

/-- The words of E15 to E19 and E24 to E28. -/
theorem test_response_and_completion_words :
    Response.word ⟨0xFF#8, 0#8, []⟩ = 0xFF00#16 ∧ Response.word ⟨0#8, 2#8, []⟩ = 0x0002#16 ∧
    pollCode { State.reset with state := .masterReceive } = 0x02#8 ∧
    pollCode { State.reset with err := .dataNack } = 0x10#8 ∧
    Completion.header ⟨.masterReceive, .busProtocolError, 7#8, 2#8, []⟩ = 0x220702#24 ∧
    Completion.header ⟨.masterTransmit, .arbLost, 0#8, 1#8, []⟩ = 0x190001#24 := by decide

/-! ### Well-formedness: the one check, that a WRITE carries an `N`-byte payload (R93) -/

theorem test_wellFormed_refuses_short_payload : Instr.wellFormed 8 (.write false 0x20#7 1#8 [0xA5#8]) = false := by decide

theorem test_wellFormed_accepts_full_payload :
    Instr.wellFormed 2 (.write false 0x20#7 1#8 [0xA5#8, 0#8]) = true ∧ Instr.wellFormed 2 .poll = true := by decide

/-- R90: a payload goes with a WRITE word alone, `0x1840000200` of R108, not with a POLL. -/
theorem test_payload_of_write_only :
    PayloadOk 8 ⟨0x8000000000#40, []⟩ ∧ ¬PayloadOk 8 ⟨0x1840000200#40, [0x00#8, 0xFF#8]⟩ ∧
      PayloadOk 2 ⟨0x1840000200#40, [0x00#8, 0xFF#8]⟩ := by decide

/-! ### One step -/

/-- A completion record with its `count` meaningful bytes (R63, R101; the other bytes are unspecified). -/
def meaningful (c : Completion) : BusState × ErrRec × Byte × Byte × List Byte :=
  (c.kind, c.err, c.dest, c.count, c.data.take c.count.toNat)

/-- Whether a result is a next state with a property. -/
def nextWith (r : Result) (p : State → Bool) : Bool :=
  match r with
  | .next t => p t
  | _ => false

/-- After hardware reset and INIT performed by the PHY (R41), on a build with `N = 8`, `NPRIO = 2`. -/
def ready : State := { State.reset with inited := true, phy := ⟨true, none, .free⟩ }

/-- A write in flight: `MT, len=2, buf=[00 FF]`. -/
def writing (idx : Byte) : State :=
  { ready with state := .masterTransmit, sla := 0x20#7, len := 2#8, idx := idx, buf := [0#8, 0xFF#8, 0#8, 0#8, 0#8, 0#8, 0#8, 0#8] }

/-- A read in flight: `MR`, `buf=[11 22]`. -/
def reading (len idx : Byte) : State :=
  { ready with
    state := .masterReceive, sla := 0x20#7, dir := 1#1, len := len, idx := idx, dest := 7#8
    buf := [0x11#8, 0x22#8, 0#8, 0#8, 0#8, 0#8, 0#8, 0#8] }

/-- A register read in flight: `MTTR, reg=0x12, len=2, dest=9`. -/
def addressing : State :=
  { ready with state := .masterTransmitThenReceive, sla := 0x20#7, reg := 0x12#8, len := 2#8, dest := 9#8 }

/-- A read-modify-write in flight: `MRMW, reg=0x12, data=0x0F, mask=0x0F`. -/
def modifying (dir : BitVec 1) : State :=
  { ready with
    state := .masterReadModifyWrite, sla := 0x20#7, reg := 0x12#8, len := 1#8, dir := dir, rmwData := 0x0F#8, rmwMask := 0x0F#8 }

/-- B1. -/
theorem test_addrAck_sends_first_byte :
    nextWith (exec .addrAck (writing 0#8)) (fun t => t.pc = [0x100#12] && t.idx = 1#8) = true := by decide

/-- B15, B16. -/
theorem test_addrAck_chooses_acknowledge :
    nextWith (exec .addrAck (reading 3#8 0#8)) (fun t => t.pc = [0x201#12]) = true ∧
    nextWith (exec .addrAck (reading 1#8 0#8)) (fun t => t.pc = [0x200#12]) = true := by decide

/-- B5, B13. -/
theorem test_addrNack_records_and_stops :
    nextWith (exec .addrNack (writing 0#8)) (fun t =>
      t.pc = [0x300#12] && t.state = .ready && t.err = .addrNack && t.cr.map meaningful = [(.masterTransmit, .addrNack, 0#8, 0#8, [])]) = true ∧
    nextWith (exec .addrNack addressing) (fun t => destCount t 9#8 = some 0#8) = true := by decide

/-- B2, B3. -/
theorem test_dataAck_sends_then_stops :
    nextWith (exec .dataAck (writing 1#8)) (fun t => t.pc = [0x1FF#12] && t.idx = 2#8) = true ∧
    nextWith (exec .dataAck (writing 2#8)) (fun t =>
      t.pc = [0x300#12] && t.cr.map meaningful = [(.masterTransmit, .noErr, 0#8, 2#8, [0#8, 0xFF#8])] && t.cr.map (·.data.length) = [8]) = true := by decide

/-- B12, B26. -/
theorem test_dataAck_turns_around :
    nextWith (exec .dataAck addressing) (fun t => t.pc = [0x300#12, 0x041#12] && t.state = .masterReceive && t.dir = 1#1) = true ∧
    nextWith (exec .dataAck (modifying 0#1)) (fun t =>
      t.pc = [0x300#12, 0x041#12] && t.state = .masterReadModifyWrite && t.dir = 1#1) = true := by decide

/-- B6, B29. -/
theorem test_dataNack :
    nextWith (exec .dataNack (writing 1#8)) (fun t => t.err = .dataNack && t.idx = 1#8) = true ∧
    nextWith (exec .dataNack (modifying 1#1)) (fun t => t.err = .busProtocolError && t.pc = [0x300#12]) = true := by decide

/-- B17, B18. -/
theorem test_rxAck_stores :
    nextWith (exec (.rxAck 0x33#8) (reading 3#8 0#8)) (fun t =>
      t.pc = [0x201#12] && t.idx = 1#8 && t.buf.take 2 = [0x33#8, 0x22#8]) = true ∧
    nextWith (exec (.rxAck 0x33#8) (reading 3#8 1#8)) (fun t => t.pc = [0x200#12] && t.idx = 2#8) = true := by decide

/-- B9, B21. -/
theorem test_rxAck_unexpected :
    nextWith (exec (.rxAck 0x99#8) (writing 1#8)) (fun t => t.err = .busProtocolError && t.buf = (writing 1#8).buf) = true ∧
    nextWith (exec (.rxAck 0x33#8) (reading 2#8 1#8)) (fun t => t.err = .busProtocolError && t.idx = 1#8) = true := by decide

/-- B19. -/
theorem test_rxNack_delivers :
    nextWith (exec (.rxNack 0x33#8) (reading 3#8 2#8)) (fun t =>
      t.state = .ready && t.pc = [0x300#12] && destCount t 7#8 = some 3#8 && destData t 7#8 2 = some 0x33#8 &&
        t.cr.map meaningful = [(.masterReceive, .noErr, 7#8, 3#8, [0x11#8, 0x22#8, 0x33#8])]) = true := by decide

/-- B28. -/
theorem test_rxNack_merges :
    nextWith (exec (.rxNack 0xF0#8) (modifying 1#1)) (fun t =>
      t.pc = [0x040#12] && t.state = .masterTransmit && t.len = 2#8 && t.idx = 0#8 && t.dir = 0#1 &&
        t.buf.take 2 = [0x12#8, 0xFF#8]) = true := by decide

/-- B7, B31. -/
theorem test_arbLost_releases :
    nextWith (exec .arbLost (writing 1#8)) (fun t => t.pc = [0x400#12] && t.err = .arbLost) = true ∧
    nextWith (exec .arbLost (modifying 1#1)) (fun t => t.cr.map Completion.header = [0x1C0000#24]) = true := by decide

/-- B8, B33. -/
theorem test_busError :
    nextWith (exec .busError (writing 1#8)) (fun t => t.pc = [0x300#12] && t.err = .busProtocolError) = true ∧
    nextWith (exec .busError { ready with err := .arbLost }) (fun t => t.err = .arbLost && t.pc = [] && t.cr = []) = true := by
  decide

/-- B10, B34. -/
theorem test_reserved_events :
    nextWith (step { writing 0#8 with evtPending := some 0x900#12 }) (fun t => t.err = .busProtocolError && t.pc = [0x300#12]) = true ∧
    nextWith (step { ready with evtPending := some 0xF00#12 }) (fun t => t.state = .ready && t.pc = [] && t.cr = []) = true := by
  decide

/-- Y1, Y2. -/
theorem test_init :
    nextWith (exec .init State.reset) (fun t => t.inited && t.pc = [0x500#12] && t.hr = [⟨0#8, 0#8, []⟩]) = true ∧
    nextWith (exec .init { writing 1#8 with queue := [Level.empty, ⟨some ⟨0x20#7, 0x13#8, 7#8, 1#8⟩, none⟩] }) (fun t =>
      t.state = .ready && t.queue = [Level.empty, Level.empty] && t.cr = [] && t.buf = (writing 1#8).buf) = true := by decide

/-- Y4, Y6. -/
theorem test_poll :
    nextWith (exec .poll (reading 3#8 2#8)) (fun t => t.hr.map Response.word = [0x0202#16]) = true ∧
    nextWith (exec .poll { ready with err := .arbLost, idx := 1#8 }) (fun t => t.hr.map Response.word = [0x1801#16]) = true := by
  decide

/-- T1, T4. -/
theorem test_write :
    nextWith (exec (.write true 0x50#7 1#8 [0xA5#8, 0#8]) ready) (fun t =>
      t.pc = [0x0A0#12] && t.state = .masterTransmit && t.buf.take 1 = [0xA5#8] && t.hr = []) = true ∧
    nextWith (exec (.write false 0x20#7 255#8 []) (writing 1#8)) (fun t =>
      t.hr = [⟨1#8, 0#8, []⟩] && t.state = .masterTransmit) = true := by decide

/-- T11, and T9 up to its claim. -/
theorem test_readInto :
    nextWith (exec (.readInto 0x20#7 9#8 5#8) ready) (fun t =>
      t.hr.map (fun r => (r.code, r.count, r.rdata.length)) = [(0#8, 0#8, 8)] && t.pc = []) = true ∧
    nextWith (exec (.readInto 0x20#7 1#8 5#8) ready) (fun t => t.pc = [0x041#12] && t.dest = 5#8 && t.hr = []) = true := by decide

/-- T14, T15. -/
theorem test_nbReadInto :
    nextWith (exec (.nbReadInto 0x20#7 0#8 5#8) (writing 0#8)) (fun t => t.hr = [⟨0xFE#8, 0#8, []⟩]) = true ∧
    nextWith (exec (.nbReadInto 0x20#7 2#8 5#8) ready) (fun t =>
      t.hr = [⟨0#8, 0#8, []⟩] && t.pc = [0x041#12] && t.dir = 1#1) = true := by decide

/-- T17, T18. -/
theorem test_nbReadReg :
    nextWith (exec (.nbReadReg 0x20#7 0x12#8 1#8 9#8) (writing 0#8)) (fun t => t.hr = [⟨0xFF#8, 0#8, []⟩]) = true ∧
    nextWith (exec (.nbReadReg 0x20#7 0x12#8 2#8 9#8) ready) (fun t =>
      t.pc = [0x040#12] && t.state = .masterTransmitThenReceive && t.reg = 0x12#8 && t.dest = 9#8) = true := by decide

/-- W1, W2. -/
theorem test_rmwReg :
    nextWith (exec (.rmwReg 0x20#7 0x12#8 0x0F#8 0x3F#8) ready) (fun t =>
      t.pc = [0x040#12] && t.len = 1#8 && t.rmwData = 0x0F#8 && t.rmwMask = 0x3F#8) = true ∧
    nextWith (exec (.rmwReg 0x20#7 0x12#8 0x0F#8 0x0F#8) (modifying 0#1)) (fun t => t.hr = [⟨0xFF#8, 0#8, []⟩]) = true := by decide

/-- M1 to M8. -/
theorem test_merge_law :
    merge 0xF0#8 0x0F#8 0x0F#8 = 0xFF#8 ∧ merge 0xA5#8 0xFF#8 0x00#8 = 0xA5#8 ∧ merge 0xA5#8 0x3C#8 0xFF#8 = 0x3C#8 ∧
    merge 0xFF#8 0x00#8 0xF0#8 = 0x0F#8 ∧ merge 0x00#8 0xFF#8 0x81#8 = 0x81#8 ∧ merge 0x5A#8 0xA5#8 0x0F#8 = 0x55#8 ∧
    merge 0x12#8 0x01#8 0x01#8 = 0x13#8 ∧ merge 0xFF#8 0x00#8 0x01#8 = 0xFE#8 := by decide

/-- Q1, Q8. -/
theorem test_enqRead :
    nextWith (exec (.enqRead 0#3 0x20#7 0x12#8 1#8 3#8) (writing 0#8)) (fun t =>
      t.queue = [⟨some ⟨0x20#7, 0x12#8, 3#8, 1#8⟩, none⟩, Level.empty] && t.pc = []) = true ∧
    nextWith (exec (.enqRead 1#3 0x20#7 0x09#8 2#8 6#8) ready) (fun t =>
      t.pc = [0x040#12] && t.reg = 9#8 && t.dest = 6#8 && t.queue = [Level.empty, Level.empty]) = true := by decide

/-- Q4, Q5. -/
theorem test_invalid_priorities :
    nextWith (exec (.enqRead 2#3 0x20#7 0x12#8 1#8 3#8) ready) (fun t => t.hr = [⟨0xFE#8, 0#8, []⟩] && t.pc = []) = true ∧
    nextWith (exec (.enqMwrite 7#3 0x20#7 0x12#8 0x0F#8 0x0F#8) ready) (fun t => t.hr = [⟨0xFE#8, 0#8, []⟩]) = true := by decide

/-- Q12, Q13: level 0's masked write before level 1's read; read before masked write within a level. -/
theorem test_dispatch_order :
    nextWith (exec .dataAck { writing 2#8 with
        queue := [⟨none, some ⟨0x20#7, 1#8, 2#8, 3#8⟩⟩, ⟨some ⟨0x21#7, 4#8, 5#8, 6#8⟩, none⟩] })
      (fun t => t.pc = [0x300#12, 0x040#12] && t.state = .masterReadModifyWrite) = true ∧
    nextWith (exec .dataAck { writing 2#8 with
        queue := [⟨some ⟨0x21#7, 4#8, 5#8, 6#8⟩, some ⟨0x20#7, 1#8, 2#8, 3#8⟩⟩, Level.empty] })
      (fun t => t.pc = [0x300#12, 0x042#12] && t.state = .masterTransmitThenReceive) = true := by decide

/-- R135, R138 to R140: `S`, `Sr`, `P` and the enable. -/
theorem test_phy_commands :
    nextWith (exec (.start 0x20#7 0#1) ready) (fun t => t.wire = [.start, .address 0x20#7 0#1]) = true ∧
    nextWith (exec (.start 0x20#7 1#1) { ready with phy := ⟨true, none, .held⟩ }) (fun t =>
      t.wire = [.repeatedStart, .address 0x20#7 1#1]) = true ∧
    nextWith (exec .stop { ready with phy := ⟨true, none, .held⟩ }) (fun t => t.wire = [.stop] && t.phy.bus = .free) = true ∧
    nextWith (exec .enable State.reset) (fun t => t.phy = ⟨true, none, .free⟩) = true := by decide

/-- R12, R197: an idle host with HC empty sends the next command of its program and keeps the rest; a program that repeats
goes on. -/
theorem test_host_sends_its_program :
    nextWith (step { ready with program := ⟨[⟨1#40, []⟩], [⟨2#40, []⟩]⟩ }) (fun t =>
      t.hc = [⟨1#40, []⟩] && t.program = ⟨[], [⟨2#40, []⟩]⟩) = true ∧
    nextWith (step { ready with program := ⟨[], [⟨2#40, []⟩]⟩ }) (fun t =>
      t.hc = [⟨2#40, []⟩] && t.program = ⟨[], [⟨2#40, []⟩]⟩) = true := by decide

/-- The words of the operation table run as the next step: a host command, and an event. -/
theorem test_withFetchWord :
    nextWith (step (State.reset.withFetchWord 40 0x8000000000)) (fun t => t.hr = [⟨0#8, 0#8, []⟩] && t.hc = []) = true ∧
    nextWith (step ((writing 1#8).withFetchWord 16 0x600)) (fun t => t.pc = [0x400#12] && t.err = .arbLost) = true ∧
    decodeTableWord 40 0x5040120F0F = some (.rmwReg 0x20#7 0x12#8 0x0F#8 0x0F#8) ∧
    decodeTableWord 16 0x5F0 = some (.rxNack 0xF0#8) := by decide

/-! ### Witnesses: each obligation's hypotheses are met together -/

/-- A word with bit 24 clear. -/
theorem witness_HostWordFieldsMakeUpTheWord : (0xFEFEFFFFFF#40).getLsbD 24 = false := by decide

/-- Both sides of each boundary: the last operation number and the first reserved one. -/
theorem witness_ReservedNumbersAreRejectedByName :
    (HostHeader.op 0x8000000000#40).toNat < 9 ∧ ¬(HostHeader.op 0x9000000000#40).toNat < 9 ∧ (codeOf 0x7FF#12).toNat < 8 ∧
      ¬(codeOf 0x800#12).toNat < 8 ∧ (codeOf 0x5FF#12).toNat < 6 ∧ ¬(codeOf 0x600#12).toNat < 6 := by decide

theorem witness_ResetInputResetsTheMachine : ({ writing 1#8 with rst := true } : State).rst = true := by decide

theorem witness_ResetEstablishesTheInvariant :
    Config.LegalN 2 ∧ Config.LegalN 255 ∧ Config.LegalNPRIO 1 ∧ Config.LegalNPRIO 8 := by decide

theorem witness_StepRunsThePendingEvent :
    (∃ s : State, ∃ w i, s.rst = false ∧ s.evtPending = some w ∧ decode (.ev w) = .ok i) ∧
    (∃ s : State, ∃ w e, s.rst = false ∧ s.evtPending = some w ∧ decode (.ev w) = .error e) :=
  ⟨⟨{ writing 1#8 with evtPending := some 0x700#12 }, 0x700#12, .busError, by decide⟩,
    ⟨{ writing 1#8 with evtPending := some 0x800#12 }, 0x800#12, .event 8#4, by decide⟩⟩

/-- The state of a host about to move. -/
def hostMoves (s : State) : State := { s with turns := ⟨[.host], []⟩ }

/-- A POLL and a reserved word on channel HC, a held claim at `Ready` and while busy, and a host held for its transaction. -/
theorem witness_StepRunsTheHostCommand :
    (let s := hostMoves { ready with hc := [⟨0x8000000000#40, []⟩] };
      s.rst = false ∧ s.evtPending = none ∧ s.ev = [] ∧ takeNext s.turns = some (.host, ⟨[], []⟩) ∧ s.hostWait = .idle ∧
        s.hc = [⟨0x8000000000#40, []⟩] ∧ decode (.hc 0x8000000000#40 []) = .ok .poll) ∧
    (let s := hostMoves { ready with hc := [⟨0x9000000000#40, []⟩] };
      s.rst = false ∧ s.evtPending = none ∧ s.ev = [] ∧ takeNext s.turns = some (.host, ⟨[], []⟩) ∧ s.hostWait = .idle ∧
        s.hc = [⟨0x9000000000#40, []⟩] ∧ decode (.hc 0x9000000000#40 []) = .error (.hostCommand 9#4)) ∧
    (let s := hostMoves { ready with program := ⟨[], [⟨0x8000000000#40, []⟩]⟩ };
      s.rst = false ∧ s.evtPending = none ∧ s.ev = [] ∧ takeNext s.turns = some (.host, ⟨[], []⟩) ∧ s.hostWait = .idle ∧
        s.hc = [] ∧ takeNext s.program = some (⟨0x8000000000#40, []⟩, s.program)) ∧
    (let s := hostMoves { ready with hostWait := .waitReady (.readInto 0x20#7 1#8 5#8) };
      s.rst = false ∧ s.evtPending = none ∧ s.ev = [] ∧ takeNext s.turns = some (.host, ⟨[], []⟩) ∧
        s.hostWait = .waitReady (.readInto 0x20#7 1#8 5#8) ∧ s.state = .ready) ∧
    (let s := hostMoves { writing 1#8 with hostWait := .waitReady (.readInto 0x20#7 1#8 5#8) };
      s.rst = false ∧ s.evtPending = none ∧ s.ev = [] ∧ takeNext s.turns = some (.host, ⟨[], []⟩) ∧
        s.hostWait = .waitReady (.readInto 0x20#7 1#8 5#8) ∧ s.state ≠ .ready) ∧
    (let s := hostMoves { reading 3#8 0#8 with hostWait := .waitDone (.readInto 0x20#7 3#8 7#8) };
      s.rst = false ∧ s.evtPending = none ∧ s.ev = [] ∧ takeNext s.turns = some (.host, ⟨[], []⟩) ∧
        s.hostWait = .waitDone (.readInto 0x20#7 3#8 7#8)) := ⟨by decide, by decide, by decide, by decide, by decide, by decide⟩

/-- A START on an idle PHY, an ENABLE behind a SEND, a START on a disabled PHY. -/
theorem witness_StepRunsThePhyCommand :
    (let s : State := { writing 0#8 with turns := ⟨[.phy], []⟩, pc := [0x040#12] };
      s.rst = false ∧ s.evtPending = none ∧ s.ev = [] ∧ takeNext s.turns = some (.phy, ⟨[], []⟩) ∧ s.phy.enabled = true ∧
        s.phy.outstanding = none ∧ (∀ v ∈ s.pc, isEnable v = false) ∧ decode (.pc 0x040#12) = .ok (.start 0x20#7 0#1)) ∧
    (let s : State := { ready with turns := ⟨[.phy], []⟩, pc := [0x100#12] ++ 0x500#12 :: [0x040#12] };
      s.rst = false ∧ s.evtPending = none ∧ s.ev = [] ∧ takeNext s.turns = some (.phy, ⟨[], []⟩) ∧
        (∀ v ∈ [0x100#12], isEnable v = false) ∧ isEnable 0x500#12 = true) ∧
    (let s : State := { State.reset with turns := ⟨[.phy], []⟩, pc := [0x040#12] };
      s.rst = false ∧ s.evtPending = none ∧ s.ev = [] ∧ takeNext s.turns = some (.phy, ⟨[], []⟩) ∧ s.phy.enabled = false ∧
        (∀ v ∈ s.pc, isEnable v = false)) := by decide

/-- A PHY with a RECV outstanding that the bus answers with RX_ACK 0x33, and one without an answer. -/
def receiving (answers : List EventWord) : State :=
  { reading 3#8 0#8 with phy := ⟨true, some (.receiveByte true), .held⟩, answers := ⟨answers, []⟩, turns := ⟨[.phy], []⟩ }

theorem witness_PhyRaisesTheAnswer :
    (let s := receiving [0x433#12];
      s.rst = false ∧ s.evtPending = none ∧ s.ev = [] ∧ takeNext s.turns = some (.phy, ⟨[], []⟩) ∧ s.phy.enabled = true ∧
        s.phy.outstanding = some (.receiveByte true) ∧ (∀ v ∈ s.pc, isEnable v = false) ∧ takeNext s.answers = some (0x433#12, ⟨[], []⟩) ∧
        answerAllowed (.receiveByte true) 0x433#12 = true) ∧
    (let s := receiving [];
      s.rst = false ∧ s.evtPending = none ∧ s.ev = [] ∧ takeNext s.turns = some (.phy, ⟨[], []⟩) ∧ s.phy.enabled = true ∧
        s.phy.outstanding = some (.receiveByte true) ∧ (∀ v ∈ s.pc, isEnable v = false) ∧ takeNext s.answers = none) := by decide

/-- A blocking read with its byte asked for and the answer at hand: the invariant, one answer owed, the contract kept. -/
def heldRead : State := { receiving [0x433#12] with hostWait := .waitDone (.readInto 0x20#7 3#8 7#8) }

theorem heldRead_inv : Inv heldRead where
  legalN := by decide
  legalNPRIO := by decide
  idxRange := by decide
  idxLen := by decide
  phase := by simp only [PhaseOk, heldRead, receiving, reading]; decide
  stored := by
    intro l hl r hr
    have h : l = Level.empty := List.eq_of_mem_replicate hl
    rw [h] at hr
    cases hr
  readyEmpty := by decide
  hold := ⟨rfl, by decide⟩
  payloads := by decide
  oneCommand := by decide
  responses := by decide
  records := by decide
  issued := by decide
  destWf := by decide

theorem heldRead_contract : OneAnswerOwed heldRead ∧ ContractKept heldRead ∧ NextAnswerAllowed heldRead := by
  refine ⟨by simp only [OneAnswerOwed]; decide, ⟨?_, fun w h => absurd h (by simp [heldRead, receiving, reading, ready, State.reset, State.resetOf]), rfl⟩, ?_⟩
  · intro r hr
    have : r = .receiveByte true := by simpa using (show r ∈ [PhyRequest.receiveByte true] from hr)
    subst this
    exact .inl ⟨rfl, rfl⟩
  · intro r w rest ho ha
    cases ho
    cases ha
    rfl

/-- The step of `heldRead`: the RX_ACK becomes pending. -/
theorem heldRead_steps : ∃ t, step heldRead = .next t ∧ t.evtPending = some 0x433#12 := ⟨_, rfl, rfl⟩

/-- A state with a busy engine, its last acknowledge pending, and the step to `Ready`. -/
def lastAck : State := { writing 2#8 with evtPending := some 0x200#12, hostWait := .waitDone (.write true 0x20#7 2#8 [0#8, 0xFF#8]) }

theorem lastAck_inv : Inv lastAck where
  legalN := by decide
  legalNPRIO := by decide
  idxRange := by decide
  idxLen := by decide
  phase := by simp only [PhaseOk, lastAck, writing]; decide
  stored := by
    intro l hl r hr
    have h : l = Level.empty := List.eq_of_mem_replicate hl
    rw [h] at hr
    cases hr
  readyEmpty := by decide
  hold := ⟨⟨rfl, rfl⟩, by decide⟩
  payloads := by decide
  oneCommand := by decide
  responses := by decide
  records := by decide
  issued := by decide
  destWf := by decide

theorem lastAck_steps : ∃ t, step lastAck = .next t ∧ t.state = .ready ∧ t.hostWait = .idle ∧ t.hr = [⟨0#8, 0#8, []⟩] :=
  ⟨_, rfl, rfl, rfl, rfl⟩

theorem witness_EveryStepKeepsTheInvariant : ∃ s t, Inv s ∧ step s = .next t :=
  ⟨heldRead, _, heldRead_inv, heldRead_steps.choose_spec.1⟩

theorem witness_ReadyMeansEveryStepLeavesTheQueueEmpty : ∃ s t, Inv s ∧ step s = .next t ∧ t.state = .ready :=
  ⟨lastAck, _, lastAck_inv, lastAck_steps.choose_spec.1, lastAck_steps.choose_spec.2.1⟩

theorem witness_EveryStepKeepsOneAnswerOwed : ∃ s t, Inv s ∧ OneAnswerOwed s ∧ step s = .next t :=
  ⟨heldRead, _, heldRead_inv, heldRead_contract.1, heldRead_steps.choose_spec.1⟩

theorem witness_ContractKeepingPhyCausesNoUnexpectedEvent :
    ∃ s t, Inv s ∧ OneAnswerOwed s ∧ ContractKept s ∧ NextAnswerAllowed s ∧ step s = .next t :=
  ⟨heldRead, _, heldRead_inv, heldRead_contract.1, heldRead_contract.2.1, heldRead_contract.2.2, heldRead_steps.choose_spec.1⟩

theorem witness_NoStepStopsTheMachine : ∃ s, Inv s := ⟨heldRead, heldRead_inv⟩

theorem witness_StepsKeepTheBuildParameters : ∃ s t, step s = .next t := ⟨heldRead, _, heldRead_steps.choose_spec.1⟩

theorem witness_InitedIsNeverCleared : ∃ s t, s.rst = false ∧ step s = .next t ∧ s.inited = true :=
  ⟨heldRead, _, rfl, heldRead_steps.choose_spec.1, rfl⟩

theorem witness_BusyIsLeftOnlyByEventInitOrReset : ∃ s t, step s = .next t ∧ s.state ≠ .ready ∧ t.state ≠ s.state :=
  ⟨lastAck, _, lastAck_steps.choose_spec.1, by decide, by rw [lastAck_steps.choose_spec.2.1]; decide⟩

theorem witness_OnlyTheHandlerWritesTheBusyTransaction :
    ∃ s t, step s = .next t ∧ s.rst = false ∧ s.evtPending = none ∧ s.state ≠ .ready :=
  ⟨heldRead, _, heldRead_steps.choose_spec.1, rfl, rfl, by decide⟩

theorem witness_DestIsWrittenOnlyByTheHandler : ∃ s t, step s = .next t ∧ s.evtPending = none ∧ s.rst = false :=
  ⟨heldRead, _, heldRead_steps.choose_spec.1, rfl, rfl⟩

/-- An ENQ_READ offered to level 0 of a busy engine whose level 0 holds both requests. -/
def slotTaken : State :=
  hostMoves { writing 1#8 with
    queue := [⟨some ⟨0x20#7, 0x12#8, 3#8, 1#8⟩, some ⟨0x20#7, 0x14#8, 1#8, 1#8⟩⟩, Level.empty]
    hc := [⟨0x6042120104#40, []⟩] }

theorem witness_OccupiedSlotKeepsItsRequestWhileBusy :
    ∃ t l, step slotTaken = .next t ∧ slotTaken.rst = false ∧ slotTaken.evtPending = none ∧ slotTaken.state ≠ .ready ∧
      t.state ≠ .ready ∧ slotTaken.queue[0]? = some l ∧ l.rq ≠ none ∧ l.wq ≠ none :=
  ⟨_, _, rfl, rfl, rfl, by decide, (fun h => by cases h), rfl, by simp, by simp⟩

theorem witness_QuiescentMachineStaysQuiescent : ∃ s t, Quiescent s ∧ takeNext s.program = none ∧ step s = .next t ∧ s.pc = [0x300#12] :=
  ⟨{ ready with pc := [0x300#12] }, _, ⟨rfl, by decide, rfl, rfl, rfl, by decide⟩, rfl, rfl, rfl⟩

theorem witness_ReservedCommandIsAnsweredOtherError :
    9 ≤ (HostHeader.op 0x9000000000#40).toNat ∧ 9 ≤ (HostHeader.op 0xF000000000#40).toNat := by decide

theorem witness_DataAckTurnsTheBusAround :
    addressing.state = .masterTransmitThenReceive ∧ (modifying 0#1).state = .masterReadModifyWrite ∧ (modifying 0#1).dir = 0#1 := by
  decide

theorem witness_SendReceiveStopReleaseActOnTheBus : ready.phy.enabled = true := by decide

/-- Lengths at both ends of their range, at `Ready`. -/
theorem witness_WriteClaimsAtReady :
    ready.state = .ready ∧ 1 ≤ (1#8).toNat ∧ (8#8).toNat ≤ ready.N ∧ (8#8).toNat ≤ (List.replicate 8 0xA5#8).length := by decide

theorem witness_WriteRejectsOrWaits :
    (0#8 = 0#8 ∧ ready.N < (9#8).toNat) ∧ (1 ≤ (8#8).toNat ∧ (8#8).toNat ≤ (writing 1#8).N ∧ (writing 1#8).state ≠ .ready) ∧
    (1 ≤ (2#8).toNat ∧ (2#8).toNat ≤ ready.N ∧ ready.state = .ready ∧ [0xA5#8].length < (2#8).toNat) := by decide

/-- The clauses of the other claims: a valid length at `Ready` and while busy, an invalid one. -/
theorem witness_readClaims :
    (1 ≤ (1#8).toNat ∧ (8#8).toNat ≤ ready.N ∧ ready.state = .ready) ∧
    (1 ≤ (1#8).toNat ∧ (8#8).toNat ≤ (writing 1#8).N ∧ (writing 1#8).state ≠ .ready) ∧ ready.N < (9#8).toNat := by decide

theorem witness_RmwRegClaimsOrAnswersBusy : ready.state = .ready ∧ (modifying 0#1).state ≠ .ready := by decide

/-- Priorities at the boundary of `NPRIO = 2`; an occupied and an empty slot of level 1. -/
theorem witness_EnqReadStoresOrRejects :
    ready.NPRIO ≤ (2#3).toNat ∧ ((1#3).toNat < ready.NPRIO ∧ ready.N < (9#8).toNat) ∧
    (slotTaken.queue[(0#3).toNat]?).map (fun l => decide (l.rq ≠ none)) = some true ∧
    (slotTaken.queue[(1#3).toNat]?).map (fun l => decide (l.rq = none)) = some true ∧
    slotTaken.state ≠ .ready ∧ 1 ≤ (1#8).toNat ∧ (8#8).toNat ≤ slotTaken.N ∧ ready.state = .ready ∧
    ready.queue[(1#3).toNat]? = some ⟨none, none⟩ := by decide

theorem witness_EnqMwriteStoresOrRejects :
    ready.NPRIO ≤ (2#3).toNat ∧ (slotTaken.queue[(0#3).toNat]?).map (fun l => decide (l.wq ≠ none)) = some true ∧
    (slotTaken.queue[(1#3).toNat]?).map (fun l => decide (l.wq = none)) = some true ∧ slotTaken.state ≠ .ready ∧
    ready.state = .ready ∧ ready.queue[(1#3).toNat]? = some ⟨none, none⟩ := by decide

theorem witness_EnqueueWhileIdleStartsAtOnce :
    ready.state = .ready ∧ QueueEmpty ready.queue ∧ (1#3).toNat < ready.NPRIO := by decide

theorem witness_DispatchIsPriorityMajor :
    QueueEmpty ready.queue ∧ slotTaken.queue[0]?.map (fun l => decide (l.rq ≠ none)) = some true ∧
      QueueEmpty (slotTaken.queue.take 0) ∧
    (let q : List Level := [Level.empty, ⟨none, some ⟨0x20#7, 1#8, 2#8, 3#8⟩⟩];
      QueueEmpty (q.take 1) ∧ q[1]?.map (fun l => decide (l.rq = none ∧ l.wq ≠ none)) = some true) := by decide

/-- The three clauses: a byte left to send, none left, and an index beyond BUF (no run reaches it). -/
theorem witness_AcknowledgeInTransmitSendsOrEnds :
    ((writing 1#8).state = .masterTransmit ∧ (writing 1#8).idx.toNat < (writing 1#8).len.toNat ∧
      (writing 1#8).buf[(writing 1#8).idx.toNat]? = some 0xFF#8) ∧
    ((writing 2#8).len.toNat ≤ (writing 2#8).idx.toNat ∧ (writing 2#8).idx.toNat ≤ (writing 2#8).N) ∧
    (let s : State := { writing 8#8 with len := 9#8 };
      s.state = .masterTransmit ∧ s.idx.toNat < s.len.toNat ∧ s.N ≤ s.idx.toNat) := by decide

theorem witness_AddressAckSendsRegisterOrReceives :
    addressing.state = .masterTransmitThenReceive ∧
    ((modifying 0#1).state = .masterReadModifyWrite ∧ (modifying 0#1).dir = 0#1) ∧ (reading 1#8 0#8).state = .masterReceive ∧
    ((modifying 1#1).state = .masterReadModifyWrite ∧ (modifying 1#1).dir = 1#1) := by decide

/-- The byte before the last two, and an index beyond BUF. -/
theorem witness_RxAckStoresAndAsksForTheNext :
    ((reading 2#8 0#8).state = .masterReceive ∧ (reading 2#8 0#8).idx.toNat + 2 ≤ (reading 2#8 0#8).len.toNat ∧
      (reading 2#8 0#8).idx.toNat < (reading 2#8 0#8).N) ∧
    ((reading 10#8 8#8).idx.toNat + 2 ≤ (reading 10#8 8#8).len.toNat ∧ (reading 10#8 8#8).N ≤ (reading 10#8 8#8).idx.toNat) := by
  decide

theorem witness_RxNackStoresTheLastByteAndEnds :
    ((reading 8#8 7#8).state = .masterReceive ∧ (reading 8#8 7#8).idx.toNat + 1 = (reading 8#8 7#8).len.toNat ∧
      (reading 8#8 7#8).idx.toNat < (reading 8#8 7#8).N) ∧
    ((reading 9#8 8#8).idx.toNat + 1 = (reading 9#8 8#8).len.toNat ∧ (reading 9#8 8#8).N ≤ (reading 9#8 8#8).idx.toNat) := by
  decide

theorem witness_RxNackMergesAndWritesBack :
    (modifying 1#1).state = .masterReadModifyWrite ∧ (modifying 1#1).dir = 1#1 ∧ 2 ≤ (modifying 1#1).N ∧
    ({ modifying 1#1 with buf := [0#8] } : State).N < 2 := by decide

theorem witness_ErrorEventsEndTheTransaction :
    (reading 8#8 7#8).state ≠ .ready ∧ (reading 8#8 7#8).idx.toNat ≤ (reading 8#8 7#8).N ∧
    ((modifying 0#1).state = .masterReadModifyWrite ∧ (modifying 0#1).dir = 0#1) ∧ (writing 2#8).state = .masterTransmit ∧
    addressing.state = .masterTransmitThenReceive := by decide

theorem witness_EndBeyondTheBufferFaults :
    ((writing 9#8).state = .masterTransmit ∧ (writing 9#8).N < (writing 9#8).idx.toNat) ∧
    ((reading 2#8 9#8).state = .masterReceive ∧ (reading 2#8 9#8).N < (reading 2#8 9#8).idx.toNat) ∧
    (let s : State := { addressing with idx := 9#8 }; s.state = .masterTransmitThenReceive ∧ s.N < s.idx.toNat) ∧
    (let s : State := { modifying 0#1 with idx := 9#8 }; s.state = .masterReadModifyWrite ∧ s.dir = 0#1 ∧ s.N < s.idx.toNat) ∧
    (let s : State := { modifying 1#1 with idx := 9#8 }; s.state = .masterReadModifyWrite ∧ s.dir = 1#1 ∧ s.N < s.idx.toNat) ∧
    ((Instr.rxAck 0#8).channel = .ev ∧ (writing 8#8).idx.toNat ≤ (writing 8#8).N ∧ (writing 8#8).len.toNat ≤ (writing 8#8).N ∧
      2 ≤ (writing 8#8).N) := by decide

/-- One state for each clause; a read with its last byte due, and one with two bytes due. -/
theorem witness_UnexpectedEventsAreBusProtocolErrors :
    (reading 2#8 1#8).idx.toNat ≤ (reading 2#8 1#8).N ∧ (reading 2#8 1#8).state = .masterReceive ∧
    (reading 2#8 1#8).len.toNat < (reading 2#8 1#8).idx.toNat + 2 ∧
    (reading 2#8 0#8).idx.toNat + 1 ≠ (reading 2#8 0#8).len.toNat ∧
    ((modifying 1#1).state = .masterReadModifyWrite ∧ (modifying 1#1).dir = 1#1) ∧ (writing 1#8).state ≠ .ready := by decide

theorem witness_EventsInReadyAreDiscarded : ready.state = .ready := by decide

theorem witness_EndOfAReadDeliversCountAndBytes :
    (reading 8#8 8#8).idx.toNat ≤ (reading 8#8 8#8).N ∧ (reading 8#8 8#8).N ≤ 255 ∧ (reading 8#8 8#8).state = .masterReceive ∧
    addressing.idx.toNat ≤ addressing.N ∧ addressing.state = .masterTransmitThenReceive := by decide

theorem witness_BlockingCommandEndsWithAnIdleEngine :
    ∃ t, Inv lastAck ∧ lastAck.rst = false ∧ lastAck.hostWait = .waitDone (.write true 0x20#7 2#8 [0#8, 0xFF#8]) ∧
      step lastAck = .next t :=
  ⟨_, lastAck_inv, rfl, rfl, lastAck_steps.choose_spec.1⟩

theorem witness_StartProducesStartAndAddress :
    ready.phy.enabled = true ∧ ready.phy.bus = .free ∧ heldRead.phy.enabled = true ∧ heldRead.phy.bus = .held := by decide

theorem witness_DisabledPhyDoesNothing : State.reset.phy.enabled = false := by decide

theorem witness_EnableMakesThePhyIdle :
    (State.reset.phy.outstanding = none ∧ State.reset.phy.bus = .free) ∧ heldRead.phy.outstanding ≠ none := by decide

/-- The whole transactions start at `Ready` with nothing queued; lengths at both ends of their range. -/
theorem witness_wholeTransactions :
    ready.state = .ready ∧ QueueEmpty ready.queue ∧ ready.hostWait = .idle ∧ ready.N ≤ 255 ∧ 2 ≤ ready.N ∧
    1 ≤ (1#8).toNat ∧ (8#8).toNat ≤ ready.N ∧ (8#8).toNat ≤ (List.replicate 8 0#8).length ∧
    (8#8).toNat = (List.replicate 7 0#8).length + 1 ∧ (List.replicate 7 0#8).length < (8#8).toNat := by decide

end Sys2Proof.Tests
end

section
/-! PROOFS. The build parameters `N` and `NPRIO` are fixed: no effect of a step changes either (R5, R6, R12). -/

namespace Sys2Proof.Machine

/-- Two states of the same build: the buffer capacity and the number of priority levels agree (R5, R6). -/
def SameBuild (s t : State) : Prop := t.N = s.N ∧ t.NPRIO = s.NPRIO

theorem SameBuild.trans {s t u : State} (h : SameBuild s t) (k : SameBuild t u) : SameBuild s u :=
  ⟨k.1.trans h.1, k.2.trans h.2⟩

/-! ### The shared operations -/

theorem sameBuild_dispatch (s : State) : SameBuild s (dispatch s) := ⟨dispatch_N s, dispatch_NPRIO s⟩

theorem sameBuild_queue_set (s : State) (p : Nat) (l : Level) : SameBuild s { s with queue := s.queue.set p l } :=
  ⟨rfl, List.length_set⟩

/-- `begin_write` overwrites the first `l` bytes of BUF: its capacity stays, because the claim checked that BUF and the
payload hold `l` bytes (R131, R195). -/
theorem sameBuild_beginWrite {s : State} (a : DevAddr) {l : Byte} {p : List Byte} (hl : l.toNat ≤ s.N)
    (hp : l.toNat ≤ p.length) : SameBuild s (beginWrite a l p s) := by
  refine ⟨?_, rfl⟩
  simp only [State.N] at hl ⊢
  simp only [beginWrite_buf, List.length_append, List.length_take, List.length_drop]
  omega

theorem sameBuild_mergeAndWriteBack (old : Byte) (s : State) : SameBuild s (mergeAndWriteBack old s) :=
  ⟨by simp [State.N, mergeAndWriteBack], rfl⟩

theorem sameBuild_execInit {s t : State} (h : execInit s = .next t) : SameBuild s t := by
  cases h
  exact ⟨rfl, List.length_replicate⟩

theorem sameBuild_hardReset (s : State) : SameBuild s (hardReset s) :=
  ⟨resetOf_N s.N s.NPRIO, resetOf_NPRIO s.N s.NPRIO⟩

/-! ### The effects -/

theorem Continues.sameBuild {s t : State} (h : Continues s t) : SameBuild s t := by
  cases h with
  | merge old => exact sameBuild_mergeAndWriteBack old s
  | store b => exact ⟨storeByte_N b s, rfl⟩
  | sendByte | sendRegister | receiveFirst | receiveOld | turnToReceive | turnToReadOld =>
    exact ⟨rfl, rfl⟩

theorem EndsFrom.sameBuild {s u : State} (h : EndsFrom s u) : SameBuild s u := by
  cases h with
  | same | marked => exact ⟨rfl, rfl⟩
  | stored b => exact ⟨storeByte_N b s, rfl⟩

theorem EventEffect.sameBuild {s t : State} (h : EventEffect s t) : SameBuild s t := by
  cases h with
  | discarded => exact ⟨rfl, rfl⟩
  | ended u e w _ hu =>
    have he : SameBuild u (endedBy e w u) := ⟨rfl, rfl⟩
    exact (hu.sameBuild.trans he).trans (sameBuild_dispatch _)
  | continued _ hc => exact hc.sameBuild

theorem HostEffect.sameBuild {s t : State} (h : HostEffect s t) : SameBuild s t := by
  cases h with
  | initialised _ hi => exact sameBuild_execInit hi
  | wroteWaiting a l p _ hl hp => exact sameBuild_beginWrite (s := noteUse s) a (lenValid_iff.mp hl).2 hp
  | wrote a l p _ hl hp => exact sameBuild_beginWrite (s := noteUse s) a (lenValid_iff.mp hl).2 hp
  | enqueued p _ l' => exact sameBuild_queue_set s p l'
  | enqueuedIdle p _ l' => exact (sameBuild_queue_set s p l').trans (sameBuild_dispatch _)
  | answered | rejectedRead | polled | heldWrite | heldRead | readWaiting | read | regread | rmw =>
    exact ⟨rfl, rfl⟩

/-- A PHY command writes nothing of the engine. -/
theorem sameBuild_of_phyCommand {i : Instr} {s t : State} (hc : i.channel = .pc) (h : exec i s = .next t) :
    SameBuild s t := by
  obtain ⟨phy, wire, draws, rfl⟩ := exec_phy_frame hc h
  exact ⟨rfl, rfl⟩

/-- A claim runs in `Ready`, where every operation keeps the build, whichever command is held. -/
theorem sameBuild_of_exec_ready {i : Instr} {s t : State} (hs : s.state = .ready) (h : exec i s = .next t) :
    SameBuild s t := by
  rcases exec_ready hs h with he | rfl | ⟨phy, wire, draws, rfl⟩
  · exact he.sameBuild
  · exact ⟨rfl, rfl⟩
  · exact ⟨rfl, rfl⟩

theorem StepEffect.sameBuild {s t : State} (h : StepEffect s t) : SameBuild s t := by
  cases h with
  | reset => exact sameBuild_hardReset s
  | handled _ _ _ _ _ he => exact he.sameBuild
  | enabled _ _ _ _ _ _ _ _ _ _ _ hx =>
    obtain ⟨bus, wire, rfl⟩ := enable_frame hx
    exact ⟨rfl, rfl⟩
  | raised ts q w rest _ he hv =>
    rw [raiseEvent_eq (s := { s with turns := ts, answers := rest }) q w he hv]
    exact ⟨rfl, rfl⟩
  | performed _ ts _ rest _ _ _ _ _ _ _ _ hd hx =>
    have hb : SameBuild { s with turns := ts, pc := rest } t := sameBuild_of_phyCommand (decode_pc_channel hd) hx
    exact hb
  | commanded _ _ _ _ _ _ _ _ _ hx => exact (runHostCommand_effect hx).sameBuild
  | claimed _ ts _ _ _ _ _ hs hx =>
    have hb : SameBuild { s with turns := ts, hostWait := .idle } t := sameBuild_of_exec_ready hs hx
    exact hb
  | latched | stood | sent => exact ⟨rfl, rfl⟩

/-- Settles O17: everything a step can do keeps the lengths of BUF and of the queue. -/
theorem stepsKeepTheBuildParameters : Obligations.StepsKeepTheBuildParameters :=
  fun _ _ h => (step_effect h).sameBuild

end Sys2Proof.Machine
end

section
/-! PROOFS. Every step keeps the invariant of the machine (R5, R6, R26, R32, R39, R40, R43). `Inv` is taken apart into what
holds of the build and the channels whatever is on the bus (`ChannelsOk`) and what holds of the transaction on the bus. -/

namespace Sys2Proof.Machine

/-! ### The two parts of the invariant -/

/-- The part of `Inv` that does not speak of the transaction on the bus: the build, the stored lengths, the commands on
their way, and the words on HR, CR, PC and in DEST. -/
structure ChannelsOk (s : State) : Prop where
  legalN : Config.LegalN s.N
  legalNPRIO : Config.LegalNPRIO s.NPRIO
  stored : StoredLengthsValid s
  payloads : ∀ c ∈ s.hc ++ s.program.now ++ s.program.again, PayloadOk s.N c
  oneCommand : OneCommand s
  responses : ResponsesOk s
  records : RecordsOk s
  issued : ∀ w ∈ s.pc, IssuedWord w
  destWf : Memory.wf s.destMem = true

theorem Inv.channels {s : State} (h : Inv s) : ChannelsOk s := { h with }

/-- R26 follows from R40 in a busy state. -/
theorem PhaseOk.idx_le {s : State} (h : PhaseOk s) (hs : s.state ≠ .ready) :
    s.idx.toNat ≤ s.len.toNat ∧ s.idx.toNat ≤ s.N := by
  unfold PhaseOk at h
  split at h
  · contradiction
  · omega
  · simp [h.2.2.2]
  · omega
  · simp [h.2]

theorem ChannelsOk.inv_of_busy {s : State} (c : ChannelsOk s) (hs : s.state ≠ .ready) (hp : PhaseOk s) (hh : HoldOk s) :
    Inv s :=
  have hi := hp.idx_le hs
  { c with
    idxRange := hi.2
    idxLen := hi.1
    phase := hp
    readyEmpty := fun h => absurd h hs
    hold := hh }

theorem ChannelsOk.inv_of_ready {s : State} (c : ChannelsOk s) (hs : s.state = .ready) (hN : s.idx.toNat ≤ s.N)
    (hl : s.idx.toNat ≤ s.len.toNat) (hq : QueueEmpty s.queue) (hh : HoldOk s) : Inv s :=
  { c with
    idxRange := hN
    idxLen := hl
    phase := by rw [PhaseOk, hs]; trivial
    readyEmpty := fun _ => hq
    hold := hh }

/-! ### What writing one register leaves of each part -/

theorem ChannelsOk.issue {s : State} {w : PhyWord} (c : ChannelsOk s) (hw : IssuedWord w) : ChannelsOk (issue w s) :=
  { c with
    issued := fun v hv => by
      rcases List.mem_append.mp hv with hv | hv
      · exact c.issued v hv
      · rw [List.mem_singleton.mp hv]; exact hw }

/-- BUF may be overwritten, not resized: everything else speaks of its capacity only. -/
theorem ChannelsOk.withBuf {s : State} {b : List Byte} (c : ChannelsOk s) (hb : b.length = s.N) :
    ChannelsOk { s with buf := b } :=
  have hN : State.N { s with buf := b } = s.N := hb
  { c with
    legalN := hN.symm ▸ c.legalN
    stored := fun l hl r hr => hN.symm ▸ c.stored l hl r hr
    payloads := fun k hk => hN.symm ▸ c.payloads k hk
    responses := fun r hr => hN.symm ▸ c.responses r hr
    records := fun k hk => hN.symm ▸ c.records k hk }

theorem ChannelsOk.withQueue {s : State} {q : List Level} (c : ChannelsOk s) (hq : q.length = s.NPRIO)
    (hst : StoredLengthsValid { s with queue := q }) : ChannelsOk { s with queue := q } :=
  have hP : State.NPRIO { s with queue := q } = s.NPRIO := hq
  { c with
    legalNPRIO := hP.symm ▸ c.legalNPRIO
    stored := hst }

theorem Inv.respond {s : State} {d : List Byte} (h : Inv s) (code count : Byte) (hd : d = [] ∨ d.length = s.N) :
    Inv (respond code count d s) :=
  { h with
    responses := fun r hr => by
      rcases List.mem_append.mp hr with hr | hr
      · exact h.responses r hr
      · rw [List.mem_singleton.mp hr]; exact hd }

theorem Inv.noteUse {s : State} (h : Inv s) : Inv (noteUse s) := { h with }

theorem Inv.notePhy {s : State} (h : Inv s) : Inv (notePhy s) := { h with }

/-- The host may take up any hold that fits, once it has no command on HC. -/
theorem Inv.withHostWait {s : State} {w : HostWait} (h : Inv s) (hc : s.hc = []) (hw : HoldOk { s with hostWait := w }) :
    Inv { s with hostWait := w } :=
  { h with
    oneCommand := .inl hc
    hold := hw }

theorem Holdable.of_sameCapacity {s t : State} {cmd : Instr} (h : Holdable s cmd) (hN : t.N = s.N) : Holdable t cmd := by
  unfold Holdable at h
  split at h
  · obtain ⟨hl, hp⟩ := h
    exact ⟨by rwa [lenValid, hN], hp.trans hN.symm⟩
  · rwa [Holdable, lenValid, hN]
  · exact h.elim

theorem HoldsOwnTransaction.state_eq {s : State} {cmd : Instr} (h : HoldsOwnTransaction s cmd) :
    s.state = .masterTransmit ∨ s.state = .masterReceive := by
  unfold HoldsOwnTransaction at h
  split at h
  · exact .inl h.2
  · exact .inr h
  · exact h.elim

theorem HoldsOwnTransaction.of_sameState {s t : State} {cmd : Instr} (h : HoldsOwnTransaction s cmd)
    (hst : t.state = s.state) : HoldsOwnTransaction t cmd := by
  unfold HoldsOwnTransaction at h ⊢
  rwa [hst]

/-- A host that is held stays rightly held as long as a transaction it may wait for stays on the bus with nothing queued
behind it. -/
theorem HoldOk.keep {s t : State} (h : HoldOk s) (hw : t.hostWait = s.hostWait) (hN : t.N = s.N)
    (hb : s.state = .masterTransmit ∨ s.state = .masterReceive → t.state = s.state ∧ t.queue = s.queue) : HoldOk t := by
  unfold HoldOk at h ⊢
  rw [hw]
  split at h
  · trivial
  · exact h.of_sameCapacity hN
  · obtain ⟨ho, hq⟩ := h
    obtain ⟨hst, hqu⟩ := hb ho.state_eq
    rw [hqu]
    exact ⟨ho.of_sameState hst, hq⟩

theorem holdOk_of_idle {s : State} (h : s.hostWait = .idle) : HoldOk s := by
  rw [HoldOk, h]; trivial

/-- In `Ready` no host waits for the end of a transaction, so a started one disturbs no hold. -/
theorem HoldOk.of_ready {s t : State} (h : HoldOk s) (hs : s.state = .ready) (hw : t.hostWait = s.hostWait)
    (hN : t.N = s.N) : HoldOk t :=
  h.keep hw hN fun hb => by simp [hs] at hb

/-! ### The words the engine issues -/

theorem issuedWord_startWord (a : DevAddr) (d : BitVec 1) : IssuedWord (startWord a d) := by
  simp [IssuedWord, startWord, codeOf_shortWord]

theorem issuedWord_sendWord (b : Byte) : IssuedWord (sendWord b) := by
  simp [IssuedWord, sendWord, codeOf_shortWord]

theorem issuedWord_recvWord (ack : Bool) : IssuedWord (recvWord ack) := by
  simp [IssuedWord, recvWord, codeOf_shortWord]

theorem issuedWord_stopWord : IssuedWord stopWord := by decide

theorem issuedWord_releaseWord : IssuedWord releaseWord := by decide

theorem issuedWord_enableWord : IssuedWord enableWord := by decide

/-! ### Starting a transaction (R131, R243) -/

/-- Taking a request leaves the other levels as they are and one level without a read. -/
theorem ChannelsOk.takeRequest {s : State} {before after : List Level} {l l' : Level} (c : ChannelsOk s)
    (hq : s.queue = before ++ l :: after) (hl : l'.rq = none) :
    ChannelsOk { s with queue := before ++ l' :: after } := by
  refine c.withQueue (by simp [State.NPRIO, hq]) fun k hk r hr => ?_
  rcases List.mem_append.mp hk with hk | hk
  · exact c.stored k (by simp [hq, hk]) r hr
  · rcases List.mem_cons.mp hk with rfl | hk
    · rw [hl] at hr; cases hr
    · exact c.stored k (by simp [hq, hk]) r hr

section
variable {s : State} (c : ChannelsOk s) (hs : s.state = .ready) (hh : HoldOk s)
include c hs hh

theorem inv_beginWrite (a : DevAddr) {l : Byte} {p : List Byte} (hl : lenValid s l = true) (hp : l.toNat ≤ p.length) :
    Inv (beginWrite a l p s) := by
  obtain ⟨hl1, hlN⟩ := lenValid_iff.mp hl
  have hN := (sameBuild_beginWrite a hlN hp).1
  have hc : ChannelsOk (beginWrite a l p s) := { (c.withBuf hN).issue (issuedWord_startWord a 0#1) with }
  exact hc.inv_of_busy nofun ⟨rfl, hl1, hN.symm ▸ hlN, Nat.zero_le _⟩ (hh.of_ready hs rfl hN)

theorem inv_beginRead (a : DevAddr) (t : Byte) {l : Byte} (hl : lenValid s l = true) : Inv (beginRead a t l s) := by
  obtain ⟨hl1, hlN⟩ := lenValid_iff.mp hl
  have hc : ChannelsOk (beginRead a t l s) := { c.issue (issuedWord_startWord a 1#1) with }
  exact hc.inv_of_busy nofun ⟨rfl, hl1, hlN, hl1⟩ (hh.of_ready hs rfl rfl)

theorem inv_beginRegread (a : DevAddr) (r t : Byte) {l : Byte} (hl1 : 1 ≤ l.toNat) (hlN : l.toNat ≤ s.N) :
    Inv (beginRegread a r t l s) := by
  have hc : ChannelsOk (beginRegread a r t l s) := { c.issue (issuedWord_startWord a 0#1) with }
  exact hc.inv_of_busy nofun ⟨rfl, hl1, hlN, rfl⟩ (hh.of_ready hs rfl rfl)

theorem inv_beginRmw (a : DevAddr) (r d m : Byte) : Inv (beginRmw a r d m s) := by
  have hc : ChannelsOk (beginRmw a r d m s) := { c.issue (issuedWord_startWord a 0#1) with }
  exact hc.inv_of_busy nofun ⟨rfl, rfl⟩ (hh.of_ready hs rfl rfl)

/-- `dispatch()` is what makes `Ready` mean that the queue is empty (R39). -/
theorem inv_dispatch (hN : s.idx.toNat ≤ s.N) (hl : s.idx.toNat ≤ s.len.toNat) : Inv (dispatch s) := by
  rcases dispatch_cases s with ⟨he, hd⟩ | ⟨before, after, l, _, hq, ⟨x, hx, hd⟩ | ⟨x, hx, _, hd⟩⟩ <;> rw [hd]
  · exact c.inv_of_ready hs hN hl he hh
  · obtain ⟨hx1, hxN⟩ := c.stored l (by simp [hq]) x hx
    exact inv_beginRegread (c.takeRequest hq rfl) hs (hh.of_ready hs rfl rfl) x.sla x.reg x.dest hx1 hxN
  · exact inv_beginRmw (c.takeRequest hq rfl) hs (hh.of_ready hs rfl rfl) x.sla x.reg x.data x.mask

end

/-! ### Inside a transaction -/

/-- Counting a byte does not wrap around (R26). -/
theorem toNat_succ_of_lt {i n : Byte} (h : i.toNat < n.toNat) : (i + 1#8).toNat = i.toNat + 1 := by
  have := n.isLt
  rw [BitVec.toNat_add]
  exact Nat.mod_eq_of_lt (by simp; omega)

theorem ChannelsOk.storeByte {s : State} (c : ChannelsOk s) (b : Byte) : ChannelsOk (storeByte b s) :=
  { c.withBuf (b := s.buf.set s.idx.toNat b) List.length_set with }

theorem ChannelsOk.turnAround {s : State} (c : ChannelsOk s) : ChannelsOk (turnAround s) :=
  { (c.issue issuedWord_stopWord).issue (issuedWord_startWord s.sla 1#1) with }

theorem ChannelsOk.mergeAndWriteBack {s : State} (c : ChannelsOk s) (old : Byte) : ChannelsOk (mergeAndWriteBack old s) :=
  { (c.withBuf (sameBuild_mergeAndWriteBack old s).1).issue (issuedWord_startWord s.sla 0#1) with }

theorem Continues.channels {s t : State} (h : Continues s t) (c : ChannelsOk s) : ChannelsOk t := by
  cases h with
  | sendByte b => exact { c.issue (issuedWord_sendWord b) with }
  | sendRegister => exact c.issue (issuedWord_sendWord _)
  | receiveFirst => exact c.issue (issuedWord_recvWord _)
  | receiveOld => exact c.issue (issuedWord_recvWord _)
  | turnToReceive => exact { c.turnAround with }
  | turnToReadOld => exact c.turnAround
  | store b => exact (c.storeByte b).issue (issuedWord_recvWord _)
  | merge old => exact c.mergeAndWriteBack old

theorem Continues.busy {s t : State} (h : Continues s t) : t.state ≠ .ready := by
  cases h with
  | sendByte _ hs | receiveFirst hs | receiveOld hs | store _ hs => simp [hs]
  | sendRegister hs => rcases hs with hs | hs <;> simp [hs]
  | turnToReadOld hs => exact fun ht => by simp [show s.state = .ready from ht] at hs
  | turnToReceive | merge => nofun

/-- R40, from arm to arm. -/
theorem Continues.phase {s t : State} (h : Continues s t) (hp : PhaseOk s) : PhaseOk t := by
  cases h with
  | sendByte b hs hl =>
    simp only [PhaseOk, hs] at hp
    obtain ⟨hd, h1, hN, _⟩ := hp
    simp only [PhaseOk, issue_state, hs]
    exact ⟨hd, h1, hN, by simp only [issue_idx, issue_len, toNat_succ_of_lt hl]; exact hl⟩
  | sendRegister | receiveFirst | receiveOld => exact hp
  | turnToReceive hs =>
    simp only [PhaseOk, hs] at hp
    obtain ⟨_, h1, hN, _⟩ := hp
    exact ⟨rfl, h1, hN, h1⟩
  | turnToReadOld hs =>
    simp only [PhaseOk, hs] at hp
    simp only [PhaseOk, turnAround, issue_state, hs]
    exact ⟨hp.1, rfl⟩
  | store b hs hm =>
    simp only [PhaseOk, hs] at hp
    obtain ⟨hd, h1, hN, hl⟩ := hp
    simp only [PhaseOk, issue_state, storeByte_state, hs]
    refine ⟨hd, h1, ?_, ?_⟩
    · simpa [State.N] using hN
    · simp only [issue_idx, issue_len, storeByte_idx, storeByte_len, toNat_succ_of_lt hl]; omega
  | merge old hs hd hn => exact ⟨rfl, one_le_two, (sameBuild_mergeAndWriteBack old s).1.symm ▸ hn, Nat.zero_le _⟩

theorem Continues.hold {s t : State} (h : Continues s t) (hh : HoldOk s) : HoldOk t := by
  refine hh.keep ?_ h.sameBuild.1 ?_
  · cases h <;> rfl
  · cases h with
    | turnToReceive hs | merge _ hs => simp [hs]
    | sendByte | sendRegister | receiveFirst | receiveOld | turnToReadOld | store => exact fun _ => ⟨rfl, rfl⟩

theorem Continues.inv {s t : State} (h : Continues s t) (hi : Inv s) : Inv t :=
  (h.channels hi.channels).inv_of_busy h.busy (h.phase hi.phase) (h.hold hi.hold)

/-! ### The end of a transaction -/

theorem EndsFrom.channels {s u : State} (h : EndsFrom s u) (c : ChannelsOk s) : ChannelsOk u := by
  cases h with
  | same => exact c
  | marked => exact { c with }
  | stored b => exact c.storeByte b

theorem EndsFrom.idx_le_len {s u : State} (h : EndsFrom s u) (hi : s.idx.toNat ≤ s.len.toNat) :
    u.idx.toNat ≤ u.len.toNat := by
  cases h with
  | same | marked => exact hi
  | stored b _ hl =>
    rw [storeByte_idx, storeByte_len, toNat_succ_of_lt (n := s.len) (by omega)]
    exact hl.le

/-- An end is reached with the engine's state, its queue and the host's hold untouched. -/
theorem EndsFrom.frame {s u : State} (h : EndsFrom s u) :
    u.state = s.state ∧ u.queue = s.queue ∧ u.hostWait = s.hostWait := by
  cases h <;> exact ⟨rfl, rfl, rfl⟩

theorem EndsFrom.hold {s u : State} (h : EndsFrom s u) (hh : HoldOk s) : HoldOk u :=
  hh.keep h.frame.2.2 h.sameBuild.1 fun _ => ⟨h.frame.1, h.frame.2.1⟩

theorem heldResponses_payload {s : State} (e : ErrRec) :
    ∀ r ∈ heldResponses e s, r.rdata = [] ∨ r.rdata.length = s.N := by
  intro r hr
  unfold heldResponses at hr
  split at hr
  · rw [List.mem_singleton.mp hr]; exact .inl rfl
  · rw [List.mem_singleton.mp hr]; exact .inr (length_padTo _ (List.length_take_le' _ _))
  · cases hr

theorem ChannelsOk.endedBy {u : State} {w : PhyWord} (c : ChannelsOk u) (e : ErrRec) (hs : u.state ≠ .ready)
    (hi : u.idx.toNat ≤ u.N) (hw : IssuedWord w) : ChannelsOk (endedBy e w u) :=
  { c.issue hw with
    oneCommand := by
      refine c.oneCommand.imp_right fun ⟨hl, hidle⟩ => ⟨hl, ?_⟩
      simp [Machine.endedBy, hidle]
    responses := fun r hr => by
      rcases List.mem_append.mp hr with hr | hr
      · exact c.responses r hr
      · exact heldResponses_payload (s := u) e r hr
    records := fun k hk => by
      rcases List.mem_append.mp hk with hk | hk
      · exact c.records k hk
      · rw [List.mem_singleton.mp hk]
        exact ⟨hs, hi, length_padTo _ (List.length_take_le' _ _)⟩
    destWf := by
      simp only [Machine.endedBy]
      split
      · exact deliver_wf c.destWf
      · exact c.destWf }

/-- R190 (c): the end of the transaction a host waits for answers it. -/
theorem HoldsOwnTransaction.heldResponses_ne_nil {s : State} {cmd : Instr} (h : HoldsOwnTransaction s cmd)
    (hw : s.hostWait = .waitDone cmd) (e : ErrRec) : heldResponses e s ≠ [] := by
  unfold HoldsOwnTransaction at h
  split at h
  · simp [heldResponses, hw]
  · simp [heldResponses, hw]
  · exact h.elim

/-- A host that waited for the end is answered by it; one that waits for its claim goes on waiting. -/
theorem HoldOk.endedBy {u : State} (h : HoldOk u) (e : ErrRec) (w : PhyWord) : HoldOk (endedBy e w u) := by
  cases hw : u.hostWait with
  | idle => exact holdOk_of_idle (by simp [Machine.endedBy, hw])
  | waitReady cmd =>
    have hr : (Machine.endedBy e w u).hostWait = .waitReady cmd := by simp [Machine.endedBy, heldResponses, hw]
    rw [HoldOk, hw] at h
    rw [HoldOk, hr]
    exact h
  | waitDone cmd =>
    rw [HoldOk, hw] at h
    exact holdOk_of_idle (if_neg (h.1.heldResponses_ne_nil hw e))

theorem issuedWord_of_end {w : PhyWord} (h : w = stopWord ∨ w = releaseWord) : IssuedWord w := by
  rcases h with rfl | rfl
  · exact issuedWord_stopWord
  · exact issuedWord_releaseWord

theorem EventEffect.inv {s t : State} (h : EventEffect s t) (hi : Inv s) : Inv t := by
  cases h with
  | discarded => exact hi.notePhy
  | continued _ hc => exact hc.inv hi
  | ended u e w hs hu hw hN =>
    have hc := (hu.channels hi.channels).endedBy e (hu.frame.1 ▸ hs) hN (issuedWord_of_end hw)
    exact inv_dispatch hc rfl ((hu.hold hi.hold).endedBy e w) hN (hu.idx_le_len hi.idxLen)

/-! ### The host's commands -/

theorem storedLengths_fill {s : State} {p : Nat} {l l' : Level} (h : StoredLengthsValid s) (hp : s.queue[p]? = some l)
    (hf : Fills s l l') : StoredLengthsValid { s with queue := s.queue.set p l' } := by
  intro k hk r hr
  rcases List.mem_or_eq_of_mem_set hk with hk | rfl
  · exact h k hk r hr
  · cases hf with
    | read _ _ hl => cases hr; exact hl
    | maskedWrite => exact h l (List.mem_of_getElem? hp) r hr

theorem ChannelsOk.fill {s : State} {p : Nat} {l l' : Level} (c : ChannelsOk s) (hp : s.queue[p]? = some l)
    (hf : Fills s l l') : ChannelsOk { s with queue := s.queue.set p l' } :=
  c.withQueue List.length_set (storedLengths_fill c.stored hp hf)

theorem queueEmpty_replicate (n : Nat) : QueueEmpty (List.replicate n Level.empty) := by
  intro l hl
  rw [List.eq_of_mem_replicate hl]
  exact ⟨rfl, rfl⟩

theorem storedLengths_of_empty {s : State} (h : QueueEmpty s.queue) : StoredLengthsValid s := by
  intro l hl r hr
  rw [(h l hl).1] at hr
  cases hr

theorem inv_execInit {s t : State} (h : execInit s = .next t) (hi : Inv s) (hc : s.hc = []) : Inv t := by
  cases h
  have hq := queueEmpty_replicate s.NPRIO
  have c := (hi.channels.issue issuedWord_enableWord).withQueue (q := List.replicate s.NPRIO Level.empty)
    List.length_replicate (storedLengths_of_empty hq)
  apply Inv.respond _ _ _ (.inl rfl)
  exact ChannelsOk.inv_of_ready { c with oneCommand := .inl hc } rfl (Nat.zero_le _) (Nat.zero_le _) hq
    (holdOk_of_idle rfl)

/-- What a host command does keeps the invariant, once a WRITE that has to wait is known to have its payload. -/
theorem HostEffect.inv {s t : State} (h : HostEffect s t) (hi : Inv s) (hw : s.hostWait = .idle) (hc : s.hc = [])
    (hpay : ∀ wait a l p, t.hostWait = .waitReady (.write wait a l p) → p.length = s.N) : Inv t := by
  have c : ChannelsOk (noteUse s) := hi.noteUse.channels
  have hold : HoldOk (noteUse s) := holdOk_of_idle hw
  cases h with
  | answered => exact hi.noteUse.respond _ _ (.inl rfl)
  | rejectedRead =>
    have hd : (padTo s.N s.draws []).length = s.N := length_padTo _ (Nat.zero_le _)
    exact { hi.noteUse.respond codeOk 0#8 (.inr hd) with }
  | polled => exact hi.respond _ _ (.inl rfl)
  | initialised _ hx => exact inv_execInit hx hi hc
  | heldWrite _ _ _ _ _ hl => exact hi.noteUse.withHostWait hc ⟨hl, hpay _ _ _ _ rfl⟩
  | heldRead _ _ _ _ hl => exact hi.noteUse.withHostWait hc hl
  | wroteWaiting a l p hs hl hp =>
    exact (inv_beginWrite c hs hold a hl hp).withHostWait hc ⟨⟨rfl, rfl⟩, hi.readyEmpty hs⟩
  | wrote a l p hs hl hp => exact (inv_beginWrite c hs hold a hl hp).respond _ _ (.inl rfl)
  | readWaiting a l d hs hl => exact (inv_beginRead c hs hold a d hl).withHostWait hc ⟨rfl, hi.readyEmpty hs⟩
  | read a l d hs hl => exact (inv_beginRead c hs hold a d hl).respond _ _ (.inl rfl)
  | regread a r l d hs hl =>
    obtain ⟨hl1, hlN⟩ := lenValid_iff.mp hl
    exact (inv_beginRegread c hs hold a r d hl1 hlN).respond _ _ (.inl rfl)
  | rmw a r d m hs => exact (inv_beginRmw c hs hold a r d m).respond _ _ (.inl rfl)
  | enqueued p l l' hs hp hf =>
    have cf : ChannelsOk { noteUse s with queue := s.queue.set p l' } := { hi.channels.fill hp hf with }
    exact (cf.inv_of_busy hs hi.phase (holdOk_of_idle hw)).respond _ _ (.inl rfl)
  | enqueuedIdle p l l' hs hp hf =>
    have cf : ChannelsOk { noteUse s with queue := s.queue.set p l' } := { hi.channels.fill hp hf with }
    exact (inv_dispatch cf hs (holdOk_of_idle hw) hi.idxRange hi.idxLen).respond _ _ (.inl rfl)

/-- R190: a command leaves the host free or held on that command, whichever it is. -/
theorem exec_hostWait {i : Instr} {s t : State} (hc : i.channel = .hc) (h : exec i s = .next t)
    (hw : s.hostWait = .idle) : t.hostWait = .idle ∨ t.hostWait = .waitReady i ∨ t.hostWait = .waitDone i := by
  cases i <;> simp [Instr.channel] at hc
  all_goals
    simp only [exec, execInit, execWrite, execReadInto, execNbReadInto, execNbReadReg, execRmwReg, execEnqRead,
      execEnqMwrite, execPoll, dispatchIfReady] at h
    repeat' split at h
  all_goals cases h
  all_goals simp [hw]

theorem exec_waitReady_self {i cmd : Instr} {s t : State} (hc : i.channel = .hc) (h : exec i s = .next t)
    (hw : s.hostWait = .idle) (ht : t.hostWait = .waitReady cmd) : cmd = i := by
  have hwait := exec_hostWait hc h hw
  rw [ht] at hwait
  simpa using hwait

/-- R93: only a word with `op` 1 decodes to a WRITE, and its payload is the word's. -/
theorem decode_hc_write {w : HostHeader} {d p : List Byte} {wait : Bool} {a : DevAddr} {l : Byte}
    (h : decode (.hc w d) = .ok (.write wait a l p)) : HostHeader.op w = 0x1#4 ∧ p = d := by
  simp only [decode, decodeHost] at h
  split at h <;> cases h
  exact ⟨‹_›, rfl⟩

theorem inv_runHostCommand {c : HostCommand} {s t : State} (h : runHostCommand c s = .next t) (hi : Inv s)
    (hw : s.hostWait = .idle) (hc : s.hc = []) (hp : PayloadOk s.N c) : Inv t := by
  refine (runHostCommand_effect h).inv hi hw hc fun wait a l p ht => ?_
  unfold runHostCommand at h
  split at h
  · next i hd =>
    obtain rfl := exec_waitReady_self (decode_hc_channel hd) h hw ht
    obtain ⟨hop, rfl⟩ := decode_hc_write hd
    exact hp hop
  · cases h
    simp [hw] at ht

theorem Holdable.channel {s : State} {i : Instr} (h : Holdable s i) : i.channel = .hc := by
  unfold Holdable at h
  split at h
  · rfl
  · rfl
  · exact h.elim

theorem HoldOk.holdable {s : State} {cmd : Instr} (h : HoldOk s) (hw : s.hostWait = .waitReady cmd) : Holdable s cmd := by
  simpa only [HoldOk, hw] using h

/-- R190 (b): a claim is made in `Ready`, where no command is held a second time. -/
theorem inv_claim {i : Instr} {s t : State} (h : exec i s = .next t) (hi : Inv s) (hw : s.hostWait = .idle)
    (hc : s.hc = []) (hh : Holdable s i) : Inv t := by
  refine (exec_host_effect hh.channel h).inv hi hw hc fun wait a l p ht => ?_
  obtain rfl := exec_waitReady_self hh.channel h hw ht
  exact hh.2

/-! ### One step -/

/-- R41: reset leaves an idle engine; DEST and the program may hold anything canonical (log entry 11). -/
theorem inv_resetOf {n nprio : Nat} (hn : Config.LegalN n) (hp : Config.LegalNPRIO nprio) {m : Memory}
    {prog : Feed HostCommand} (hm : Memory.wf m = true) (hprog : ∀ c ∈ prog.now ++ prog.again, PayloadOk n c) :
    Inv { State.resetOf n nprio with destMem := m, program := prog } where
  legalN := (resetOf_N n nprio).symm ▸ hn
  legalNPRIO := (resetOf_NPRIO n nprio).symm ▸ hp
  idxRange := Nat.zero_le _
  idxLen := Nat.zero_le _
  phase := trivial
  stored := storedLengths_of_empty (queueEmpty_replicate nprio)
  readyEmpty := fun _ => queueEmpty_replicate nprio
  hold := trivial
  payloads := fun c hc => (resetOf_N n nprio).symm ▸ hprog c hc
  oneCommand := .inl rfl
  responses := nofun
  records := nofun
  issued := nofun
  destWf := hm

theorem inv_hardReset {s : State} (h : Inv s) : Inv (hardReset s) :=
  have hprog : ∀ c ∈ s.program.now ++ s.program.again, PayloadOk s.N c := fun c hc =>
    h.payloads c (by rw [List.append_assoc]; exact List.mem_append_right _ hc)
  { inv_resetOf h.legalN h.legalNPRIO h.destWf hprog with }

/-- With no command held, taking the one on HC leaves HC empty (R197). -/
theorem OneCommand.rest_nil {s : State} {c : HostCommand} {rest : List HostCommand} (h : OneCommand s)
    (hc : s.hc = c :: rest) : rest = [] := by
  rcases h with h | ⟨h, _⟩
  · simp [hc] at h
  · simpa [hc] using h

theorem OneCommand.hc_nil {s : State} (h : OneCommand s) (hw : s.hostWait ≠ .idle) : s.hc = [] :=
  h.resolve_right fun ⟨_, hi⟩ => hw hi

theorem StepEffect.inv {s t : State} (h : StepEffect s t) (hi : Inv s) : Inv t := by
  cases h with
  | reset => exact inv_hardReset hi
  | handled _ _ _ _ _ he => exact he.inv { hi with }
  | latched | stood => exact { hi with }
  | enabled _ ts before rest w _ _ _ hp _ _ hx =>
    obtain ⟨bus, wire, rfl⟩ := enable_frame hx
    exact { hi with issued := fun v hv => hi.issued v (by simp [hp, show v ∈ rest from hv]) }
  | raised ts q w rest _ he hv =>
    rw [raiseEvent_eq (s := { s with turns := ts, answers := rest }) q w he hv]
    exact { hi with }
  | performed _ ts w rest _ _ _ _ _ _ _ hp hd hx =>
    obtain ⟨phy, wire, draws, rfl⟩ := exec_phy_frame (decode_pc_channel hd) hx
    exact { hi with issued := fun v hv => hi.issued v (by simp [hp, show v ∈ rest from hv]) }
  | commanded _ ts c rest _ _ _ hw hc hx =>
    obtain rfl := hi.oneCommand.rest_nil hc
    refine inv_runHostCommand hx { hi with payloads := fun k hk => ?_, oneCommand := .inl rfl } hw rfl ?_
    · exact hi.payloads k (by simpa [hc] using .inr (by simpa using hk))
    · exact hi.payloads c (by simp [hc])
  | sent ts c rest _ _ _ hw hc hp =>
    obtain ⟨hmem, hrest⟩ := takeNext_mem hp
    refine { hi with payloads := fun k hk => hi.payloads k ?_, oneCommand := .inr ⟨rfl, hw⟩ }
    rw [hc]
    rcases List.mem_cons.mp hk with rfl | hk
    · exact hmem
    · exact hrest k hk
  | claimed _ ts cmd _ _ _ hw _ hx =>
    have hc : s.hc = [] := hi.oneCommand.hc_nil (by simp [hw])
    exact inv_claim hx { hi with hold := trivial, oneCommand := .inl hc } rfl hc
      (hi.hold.holdable hw)

/-- Settles O12: every effect of a step keeps the invariant. -/
theorem everyStepKeepsTheInvariant : Obligations.EveryStepKeepsTheInvariant :=
  fun _ _ hi h => (step_effect h).inv hi

/-- Settles O13: what the invariant says of `Ready` holds after the step. -/
theorem readyMeansEveryStepLeavesTheQueueEmpty : Obligations.ReadyMeansEveryStepLeavesTheQueueEmpty :=
  fun s t hi h => (everyStepKeepsTheInvariant s t hi h).readyEmpty

end Sys2Proof.Machine
end

section
/-! PROOFS. Exactly one answer is owed in a busy state and none in `Ready` (R40, R35, R151): what each PHY command the engine
issues adds to the answers owed, then what each effect of a step does to their number. -/

namespace Sys2Proof.Machine

theorem oneAnswerOwed_of_ready {s : State} (hs : s.state = .ready) : OneAnswerOwed s ↔ answersOwed s = 0 := by
  rw [OneAnswerOwed, if_pos hs]

theorem oneAnswerOwed_of_busy {s : State} (hs : s.state ≠ .ready) (h : answersOwed s = 1) : OneAnswerOwed s := by
  rwa [OneAnswerOwed, if_neg hs]

/-! ### What a word of channel PC asks for (R141 (a)) -/

theorem requestOf_startWord (a : DevAddr) (d : BitVec 1) : requestOf (startWord a d) = some .address := by
  simp [requestOf, decode, decodePhy, startWord, codeOf_shortWord]

theorem requestOf_sendWord (b : Byte) : requestOf (sendWord b) = some .sendByte := by
  simp [requestOf, decode, decodePhy, sendWord, codeOf_shortWord]

theorem requestOf_recvWord (ack : Bool) : requestOf (recvWord ack) = some (.receiveByte ack) := by
  cases ack <;> decide

theorem requestOf_of_end {w : PhyWord} (h : w = stopWord ∨ w = releaseWord) : requestOf w = none := by
  rcases h with rfl | rfl <;> decide

theorem isEnable_of_end {w : PhyWord} (h : w = stopWord ∨ w = releaseWord) : isEnable w = false := by
  rcases h with rfl | rfl <;> decide

/-- Issuing a command adds the answer it asks for. -/
theorem answersOwed_issue {w : PhyWord} (hw : isEnable w = false) (s : State) :
    answersOwed (issue w s) = answersOwed s + (requestOf w).toList.length := by
  simp only [answersOwed, owedRequests, issue_pc, issue_phy, issue_ev, issue_evtPending, owedAfter_append, hw,
    Bool.false_eq_true, if_false, List.length_append]
  omega

theorem answersOwed_start (a : DevAddr) (d : BitVec 1) (s : State) :
    answersOwed (issue (startWord a d) s) = answersOwed s + 1 := by
  rw [answersOwed_issue (isEnable_shortWord _ _), requestOf_startWord]
  rfl

theorem answersOwed_send (b : Byte) (s : State) : answersOwed (issue (sendWord b) s) = answersOwed s + 1 := by
  rw [answersOwed_issue (isEnable_shortWord _ _), requestOf_sendWord]
  rfl

theorem answersOwed_recv (ack : Bool) (s : State) : answersOwed (issue (recvWord ack) s) = answersOwed s + 1 := by
  rw [answersOwed_issue (isEnable_shortWord _ _), requestOf_recvWord]
  rfl

theorem answersOwed_end {w : PhyWord} (h : w = stopWord ∨ w = releaseWord) (s : State) :
    answersOwed (issue w s) = answersOwed s := by
  rw [answersOwed_issue (isEnable_of_end h), requestOf_of_end h]
  rfl

/-! ### The handler -/

theorem answersOwed_turnAround (s : State) : answersOwed (turnAround s) = answersOwed s + 1 :=
  (answersOwed_start s.sla 1#1 _).trans (congrArg (· + 1) (answersOwed_end (.inl rfl) _))

/-- Every arm that continues a transaction asks for one answer. -/
theorem Continues.answersOwed {s t : State} (h : Continues s t) : answersOwed t = answersOwed s + 1 := by
  cases h with
  | sendByte b => exact answersOwed_send b _
  | sendRegister => exact answersOwed_send s.reg s
  | receiveFirst | receiveOld => exact answersOwed_recv _ s
  | turnToReceive | turnToReadOld => exact answersOwed_turnAround s
  | store b => exact answersOwed_recv _ (storeByte b s)
  | merge => exact answersOwed_start s.sla 0#1 _

theorem EndsFrom.answersOwed {s u : State} (h : EndsFrom s u) : answersOwed u = answersOwed s := by
  cases h <;> rfl

theorem answersOwed_endedBy {w : PhyWord} (h : w = stopWord ∨ w = releaseWord) (e : ErrRec) (s : State) :
    answersOwed (endedBy e w s) = answersOwed s :=
  answersOwed_end h s

/-- `dispatch()` asks for one answer when it leaves the engine busy. -/
theorem oneAnswerOwed_dispatch {s : State} (hs : s.state = .ready) (h : answersOwed s = 0) :
    OneAnswerOwed (dispatch s) := by
  rcases dispatch_cases s with ⟨_, hd⟩ | ⟨_, _, _, _, _, ⟨x, _, hd⟩ | ⟨x, _, _, hd⟩⟩ <;> rw [hd]
  · exact (oneAnswerOwed_of_ready hs).mpr h
  · exact oneAnswerOwed_of_busy nofun ((answersOwed_start x.sla 0#1 _).trans (congrArg (· + 1) h))
  · exact oneAnswerOwed_of_busy nofun ((answersOwed_start x.sla 0#1 _).trans (congrArg (· + 1) h))

/-- The handler takes the one answer owed and asks for the next, or for none when it leaves the engine idle. -/
theorem EventEffect.oneAnswerOwed {s t : State} (h : EventEffect s t) (hs : s.state ≠ .ready) (ho : answersOwed s = 0) :
    OneAnswerOwed t := by
  cases h with
  | discarded hr => exact absurd hr hs
  | continued _ hc => exact oneAnswerOwed_of_busy hc.busy (by rw [hc.answersOwed, ho])
  | ended u e w _ hu hw =>
    exact oneAnswerOwed_dispatch rfl ((answersOwed_endedBy hw e u).trans (hu.answersOwed.trans ho))

/-! ### The host -/

/-- INIT abandons whatever was owed (R140, R270). -/
theorem oneAnswerOwed_execInit {s t : State} (h : execInit s = .next t) (hv : s.ev = []) : OneAnswerOwed t := by
  cases h
  refine (oneAnswerOwed_of_ready rfl).mpr ?_
  have hen : isEnable enableWord = true := by decide
  simp [answersOwed, owedRequests, owedAfter_append, hen, hv]

theorem HostEffect.oneAnswerOwed {s t : State} (h : HostEffect s t) (ho : OneAnswerOwed s) (hv : s.ev = []) :
    OneAnswerOwed t := by
  have started (hs : s.state = .ready) {u : State} (a : DevAddr) (d : BitVec 1) (hu : answersOwed u = answersOwed s) :
      answersOwed (issue (startWord a d) u) = 1 := by
    rw [answersOwed_start, hu, (oneAnswerOwed_of_ready hs).mp ho]
  cases h with
  | answered | rejectedRead | polled | heldWrite | heldRead | enqueued => exact ho
  | initialised _ hx => exact oneAnswerOwed_execInit hx hv
  | wroteWaiting a _ _ hs | wrote a _ _ hs | regread a _ _ _ hs | rmw a _ _ _ hs =>
    exact oneAnswerOwed_of_busy nofun (started hs a 0#1 rfl)
  | readWaiting a _ _ hs | read a _ _ hs => exact oneAnswerOwed_of_busy nofun (started hs a 1#1 rfl)
  | enqueuedIdle p l l' hs => exact oneAnswerOwed_dispatch hs ((oneAnswerOwed_of_ready hs).mp ho)

/-! ### The PHY -/

/-- A command an idle, enabled PHY performs leaves outstanding what it asks for (R141). -/
theorem exec_phy_outstanding {w : PhyWord} {i : Instr} {s t : State} (hd : decode (.pc w) = .ok i)
    (hen : s.phy.enabled = true) (ho : s.phy.outstanding = none) (h : exec i s = .next t) :
    t.phy.outstanding = requestOf w := by
  have hc := decode_pc_channel hd
  unfold requestOf
  rw [hd]
  cases i <;> simp [Instr.channel] at hc
  case enable =>
    simp only [exec, execEnable] at h
    split at h <;> cases h <;> rfl
  all_goals
    simp only [exec, execStart, execSend, execRecv, execStop, execRelease, hen, if_true] at h
    cases h
    simp [ho]

/-- Raising the answer moves it from the PHY to the engine (R35, R285). -/
theorem answersOwed_raiseEvent {s : State} {q : PhyRequest} (w : EventWord) (he : s.evtPending = none) (hv : s.ev = [])
    (hb : ∀ v ∈ s.pc, isEnable v = false) (ho : s.phy.outstanding = some q) :
    answersOwed (raiseEvent q w s) = answersOwed s := by
  rw [raiseEvent_eq q w he hv]
  simp [answersOwed, owedRequests, owedAfter_of_no_enable _ hb, he, hv, ho]

/-- R40 reads `state` and the number of answers owed only. -/
theorem OneAnswerOwed.of_eq {s t : State} (h : OneAnswerOwed s) (hs : t.state = s.state)
    (ha : answersOwed t = answersOwed s) : OneAnswerOwed t := by
  rwa [OneAnswerOwed, hs, ha]

theorem StepEffect.oneAnswerOwed {s t : State} (h : StepEffect s t) (hi : Inv s) (ho : OneAnswerOwed s) :
    OneAnswerOwed t := by
  cases h with
  | reset => rfl
  | handled _ w _ hw _ he =>
    have hcount : answersOwed s = answersOwed { s with evtPending := none } + 1 := by
      simp [answersOwed, owedRequests, hw]
    rw [OneAnswerOwed, hcount] at ho
    split at ho
    · omega
    · next hs => exact he.oneAnswerOwed hs (by omega)
  | latched w rest _ he hv =>
    exact ho.of_eq rfl (by simp [answersOwed, owedRequests, he, hv]; omega)
  | stood | sent => exact ho
  | enabled _ ts before rest w _ _ _ hp hb hw hx =>
    obtain ⟨bus, wire, rfl⟩ := enable_frame hx
    exact ho.of_eq rfl (by simp [answersOwed, owedRequests, hp, owedAfter_enable _ hb hw])
  | raised ts q w rest _ he hv hb _ hq =>
    refine OneAnswerOwed.of_eq ho ?_ (answersOwed_raiseEvent w he hv hb hq)
    rw [raiseEvent_eq (s := { s with turns := ts, answers := rest }) q w he hv]
  | performed _ ts w rest _ _ _ _ hb hen hq hp hd hx =>
    have hout := exec_phy_outstanding (s := { s with turns := ts, pc := rest }) hd hen hq hx
    obtain ⟨phy, wire, draws, rfl⟩ := exec_phy_frame (decode_pc_channel hd) hx
    have hw : isEnable w = false := hb w (by simp [hp])
    refine ho.of_eq rfl ?_
    simp only at hout
    simp [answersOwed, owedRequests, owedAfter, hp, hw, hq, hout]
  | commanded _ _ _ _ _ _ hv _ _ hx => exact (runHostCommand_effect hx).oneAnswerOwed ho hv
  | claimed _ _ cmd _ _ hv hw _ hx =>
    exact (exec_host_effect (hi.hold.holdable hw).channel hx).oneAnswerOwed ho hv

/-- Settles O14: a step hands the one answer on, or takes it and asks for the next. -/
theorem everyStepKeepsOneAnswerOwed : Obligations.EveryStepKeepsOneAnswerOwed :=
  fun _ _ hi ho h => (step_effect h).oneAnswerOwed hi ho

end Sys2Proof.Machine
end

section
/-! PROOFS. What one step may do to `inited`, to a busy `state` and to the occupied slots of the queue, and the base case of
the invariants: reset and the numbers of the registers (R21, R22, R24, R34, R36, R41). -/

namespace Sys2Proof.Machine

/-! ### Reset -/

/-- Settles O7: an idle engine with every channel empty. -/
theorem resetEstablishesTheInvariant : Obligations.ResetEstablishesTheInvariant := by
  intro n nprio hn hp
  have hi : Inv (State.resetOf n nprio) := { inv_resetOf (m := []) (prog := ⟨[], []⟩) hn hp rfl nofun with }
  have hc : ContractKept (State.resetOf n nprio) := { requests := nofun, pending := nofun, channelEmpty := rfl }
  exact ⟨hi, rfl, hc⟩

/-! ### `inited` (R36, R42) -/

theorem EventEffect.inited {s t : State} (h : EventEffect s t) : t.inited = s.inited := by
  cases h with
  | discarded => rfl
  | ended u e w _ hu => rw [dispatch_inited]; cases hu <;> rfl
  | continued _ hc => cases hc <;> rfl

/-- A host command keeps `inited` set; INIT sets it. -/
theorem HostEffect.inited {s t : State} (h : HostEffect s t) (hs : s.inited = true) : t.inited = true := by
  cases h with
  | initialised _ hx => cases hx; rfl
  | enqueuedIdle => rw [respond_inited, dispatch_inited]; exact hs
  | answered | rejectedRead | polled | heldWrite | heldRead | wroteWaiting | wrote | readWaiting | read | regread | rmw
  | enqueued => exact hs

theorem StepEffect.inited {s t : State} (h : StepEffect s t) (hr : s.rst = false) (hs : s.inited = true) :
    t.inited = true := by
  cases h with
  | reset h => simp [h] at hr
  | handled _ _ _ _ _ he => rw [he.inited]; exact hs
  | latched | stood | sent => exact hs
  | enabled _ _ _ _ _ _ _ _ _ _ _ hx =>
    obtain ⟨bus, wire, rfl⟩ := enable_frame hx
    exact hs
  | raised ts q w rest _ he hv =>
    rw [raiseEvent_eq (s := { s with turns := ts, answers := rest }) q w he hv]
    exact hs
  | performed _ _ _ _ _ _ _ _ _ _ _ _ hd hx =>
    obtain ⟨phy, wire, draws, rfl⟩ := exec_phy_frame (decode_pc_channel hd) hx
    exact hs
  | commanded _ _ _ _ _ _ _ _ _ hx => exact (runHostCommand_effect hx).inited hs
  | claimed _ ts _ _ _ _ _ hready hx =>
    rcases exec_ready (s := { s with turns := ts, hostWait := .idle }) hready hx with he | rfl | ⟨phy, wire, draws, rfl⟩
    · exact he.inited hs
    · exact hs
    · exact hs

/-- Settles O18: no effect but reset clears `inited`. -/
theorem initedIsNeverCleared : Obligations.InitedIsNeverCleared :=
  fun _ _ hr h hs => (step_effect h).inited hr hs

/-! ### A busy engine, outside the handler (R22, R34 (b), R242) -/

/-- Every occupied slot of the one queue stands in the other with the same request. -/
def RequestsKept (q q' : List Level) : Prop :=
  ∀ (p : Nat) (l : Level), q[p]? = some l →
    ∃ l', q'[p]? = some l' ∧ (l.rq ≠ none → l'.rq = l.rq) ∧ (l.wq ≠ none → l'.wq = l.wq)

theorem requestsKept_refl (q : List Level) : RequestsKept q q :=
  fun _ l hl => ⟨l, hl, fun _ => rfl, fun _ => rfl⟩

/-- An enqueue fills an empty slot. -/
theorem Fills.keeps {s : State} {l l' : Level} (h : Fills s l l') :
    (l.rq ≠ none → l'.rq = l.rq) ∧ (l.wq ≠ none → l'.wq = l.wq) := by
  cases h with
  | read _ he => exact ⟨fun h => absurd he h, fun _ => rfl⟩
  | maskedWrite _ he => exact ⟨fun _ => rfl, fun h => absurd he h⟩

theorem requestsKept_fill {s : State} {q : List Level} {p : Nat} {l l' : Level} (hp : q[p]? = some l)
    (hf : Fills s l l') : RequestsKept q (q.set p l') := by
  intro k m hk
  by_cases hpk : p = k
  · subst hpk
    obtain rfl : l = m := Option.some.inj (hp.symm.trans hk)
    obtain ⟨hlt, -⟩ := List.getElem?_eq_some_iff.mp hp
    exact ⟨l', List.getElem?_set_self hlt, hf.keeps⟩
  · exact ⟨m, by rw [List.getElem?_set_ne hpk, hk], fun _ => rfl, fun _ => rfl⟩

/-- With no event pending and no reset, a busy engine either runs INIT or keeps its state and its queued requests. -/
theorem StepEffect.of_busy {s t : State} (h : StepEffect s t) (hr : s.rst = false) (he : s.evtPending = none)
    (hs : s.state ≠ .ready) :
    (t.state = .ready ∧ ∃ c rest, s.hostWait = .idle ∧ s.hc = c :: rest ∧ decode (.hc c.header c.wdata) = .ok .init) ∨
      (t.state = s.state ∧ RequestsKept s.queue t.queue) := by
  have same := requestsKept_refl s.queue
  cases h with
  | reset h => simp [h] at hr
  | handled _ _ _ h => simp [h] at he
  | latched | stood | sent => exact .inr ⟨rfl, same⟩
  | enabled _ _ _ _ _ _ _ _ _ _ _ hx =>
    obtain ⟨bus, wire, rfl⟩ := enable_frame hx
    exact .inr ⟨rfl, same⟩
  | raised ts q w rest _ _ hv =>
    rw [raiseEvent_eq (s := { s with turns := ts, answers := rest }) q w he hv]
    exact .inr ⟨rfl, same⟩
  | performed _ _ _ _ _ _ _ _ _ _ _ _ hd hx =>
    obtain ⟨phy, wire, draws, rfl⟩ := exec_phy_frame (decode_pc_channel hd) hx
    exact .inr ⟨rfl, same⟩
  | commanded _ ts c rest _ _ _ hw hc hx =>
    rcases runHostCommand_busy hx hs with ⟨hd, hinit⟩ | ⟨_, _, _, q, _, rfl, hq⟩
    · cases hinit
      exact .inl ⟨rfl, c, rest, hw, hc, hd⟩
    · refine .inr ⟨rfl, ?_⟩
      rcases hq with rfl | ⟨p, l, l', hp, hf, rfl⟩
      · exact same
      · exact requestsKept_fill hp hf
  | claimed _ _ _ _ _ _ _ hready => exact absurd hready hs

/-- Settles O19: outside reset and handler, only INIT changes a busy state. -/
theorem busyIsLeftOnlyByEventInitOrReset : Obligations.BusyIsLeftOnlyByEventInitOrReset := by
  intro s t h hs hne
  cases hr : s.rst with
  | true => exact .inl rfl
  | false =>
    cases he : s.evtPending with
    | some w => exact .inr (.inl nofun)
    | none =>
      rcases (step_effect h).of_busy hr he hs with ⟨_, hinit⟩ | ⟨hst, _⟩
      · exact .inr (.inr hinit)
      · exact absurd hst hne

/-- Settles O22: INIT, which alone takes requests out of the queue there, leaves the engine idle. -/
theorem occupiedSlotKeepsItsRequestWhileBusy : Obligations.OccupiedSlotKeepsItsRequestWhileBusy := by
  intro s t p l h hr he hs ht hl
  rcases (step_effect h).of_busy hr he hs with ⟨hready, _⟩ | ⟨_, hkept⟩
  · exact absurd hready ht
  · exact hkept p l hl

/-! ### The numbers of `state`, `err` and the status (R21, R24, R97) -/

theorem busCode_lt (x : BusState) : (busCode x).toNat < 5 := by
  cases x <;> decide

theorem errCode_lt (e : ErrRec) : (errCode e).toNat < 5 := by
  cases e <;> decide

/-- Settles O26: the three tables, entry by entry, and their bounds. -/
theorem stateErrorAndStatusNumbers : Obligations.StateErrorAndStatusNumbers :=
  ⟨⟨rfl, rfl, rfl, rfl, rfl⟩, ⟨rfl, rfl, rfl, rfl, rfl⟩, ⟨rfl, rfl, rfl, rfl, rfl⟩, busCode_lt, errCode_lt⟩

end Sys2Proof.Machine
end

section
/-! PROOFS. Who writes DEST and channel CR, and no access beyond BUF: with no event pending a step delivers nothing (R62,
R63); an end with `idx` beyond `N` faults, and with `idx` and `len` within `N` no event stops (R61, R290). -/

namespace Sys2Proof.Machine

/-! ### DEST and channel CR (R62, R63) -/

/-- Nothing was delivered from the one state to the other: DEST and channel CR stand as they were. -/
def DeliversNothing (s t : State) : Prop := t.destMem = s.destMem ∧ t.cr = s.cr

theorem HostEffect.deliversNothing {s t : State} (h : HostEffect s t) : DeliversNothing s t := by
  cases h with
  | initialised _ hx => cases hx; exact ⟨rfl, rfl⟩
  | enqueuedIdle => exact ⟨dispatch_destMem _, dispatch_cr _⟩
  | answered | rejectedRead | polled | heldWrite | heldRead | wroteWaiting | wrote | readWaiting | read | regread | rmw
  | enqueued => exact ⟨rfl, rfl⟩

/-- Outside reset and handler no effect of a step delivers. -/
theorem StepEffect.deliversNothing {s t : State} (h : StepEffect s t) (hr : s.rst = false) (he : s.evtPending = none) :
    DeliversNothing s t := by
  cases h with
  | reset h => simp [h] at hr
  | handled _ _ _ h => simp [h] at he
  | latched | stood | sent => exact ⟨rfl, rfl⟩
  | enabled _ _ _ _ _ _ _ _ _ _ _ hx =>
    obtain ⟨bus, wire, rfl⟩ := enable_frame hx
    exact ⟨rfl, rfl⟩
  | raised ts q w rest _ _ hv =>
    rw [raiseEvent_eq (s := { s with turns := ts, answers := rest }) q w he hv]
    exact ⟨rfl, rfl⟩
  | performed _ _ _ _ _ _ _ _ _ _ _ _ hd hx =>
    obtain ⟨phy, wire, draws, rfl⟩ := exec_phy_frame (decode_pc_channel hd) hx
    exact ⟨rfl, rfl⟩
  | commanded _ _ _ _ _ _ _ _ _ hx => exact (runHostCommand_effect hx).deliversNothing
  | claimed _ ts _ _ _ _ _ hready hx =>
    rcases exec_ready (s := { s with turns := ts, hostWait := .idle }) hready hx with hh | rfl | ⟨phy, wire, draws, rfl⟩
    · exact hh.deliversNothing
    · exact ⟨rfl, rfl⟩
    · exact ⟨rfl, rfl⟩

/-- Settles O21: with no event pending only the reset input is left to write either, and it keeps DEST. -/
theorem destIsWrittenOnlyByTheHandler : Obligations.DestIsWrittenOnlyByTheHandler := by
  intro s t h he
  cases hr : s.rst with
  | true =>
    rw [step, if_pos hr] at h
    cases h
    exact ⟨rfl, nofun⟩
  | false =>
    obtain ⟨hdest, hcr⟩ := (step_effect h).deliversNothing hr he
    exact ⟨hdest, fun _ => hcr⟩

/-! ### The events that end the transaction of every busy state (R143, R145, R148 to R150), and events in `Ready` (R151) -/

section
variable {s : State} (hs : s.state ≠ .ready)
include hs

theorem execAddrNack_busy : execAddrNack s = fail .addrNack s := by
  unfold execAddrNack
  split
  · contradiction
  · rfl

theorem execDataNack_busy : execDataNack s = fail .dataNack s ∨ execDataNack s = unexpected s := by
  unfold execDataNack
  split
  · exact .inl rfl
  · exact .inl rfl
  · split
    · exact .inl rfl
    · exact .inr rfl
  · exact .inr rfl
  · contradiction

theorem execArbLost_busy : execArbLost s = fail .arbLost s := by
  unfold execArbLost
  split
  · contradiction
  · rfl

theorem execBusError_busy : execBusError s = fail .busProtocolError s := by
  unfold execBusError
  split
  · contradiction
  · rfl

theorem reservedEvent_busy : reservedEvent s = unexpected s := by
  unfold reservedEvent
  split
  · contradiction
  · rfl

end

theorem exec_event_ready {i : Instr} {s : State} (hc : i.channel = .ev) (hs : s.state = .ready) :
    exec i s = discardEvent s := by
  cases i with
  | addrAck => simp only [exec, execAddrAck, hs]
  | addrNack => simp only [exec, execAddrNack, hs]
  | dataAck => simp only [exec, execDataAck, hs]
  | dataNack => simp only [exec, execDataNack, hs]
  | rxAck => simp only [exec, execRxAck, hs]
  | rxNack => simp only [exec, execRxNack, hs]
  | arbLost => simp only [exec, execArbLost, hs]
  | busError => simp only [exec, execBusError, hs]
  | init | write | readInto | nbReadInto | nbReadReg | rmwReg | enqRead | enqMwrite | poll => nomatch hc
  | start | send | recv | stop | release | enable => nomatch hc

theorem reservedEvent_ready {s : State} (hs : s.state = .ready) : reservedEvent s = discardEvent s := by
  simp only [reservedEvent, hs]

/-! ### An end with `idx` beyond BUF faults (R61) -/

section
variable {s : State} (h : s.N < s.idx.toNat)
include h

theorem fail_fault (e : ErrRec) : fail e s = .fault .bufferRange :=
  complete_fault (s := issue _ { s with err := e }) h

theorem unexpected_fault : unexpected s = .fault .bufferRange :=
  fail_fault (s := notePhy s) h .busProtocolError

/-- Whether bytes seem to remain or not: BUF has no byte at `idx` to send, and no record of `idx` bytes. -/
theorem sendNext_fault : sendNext s = .fault .bufferRange := by
  unfold sendNext
  split
  · rw [List.getElem?_eq_none h.le]
  · exact complete_fault (s := issue stopWord s) h

theorem execAddrAck_fault (hs : s.state = .masterTransmit) : execAddrAck s = .fault .bufferRange := by
  simp only [execAddrAck, hs]
  exact sendNext_fault h

theorem execDataAck_fault (hs : s.state = .masterTransmit ∨ s.state = .masterReceive ∨
    (s.state = .masterReadModifyWrite ∧ s.dir = 1#1)) : execDataAck s = .fault .bufferRange := by
  rcases hs with hs | hs | ⟨hs, hd⟩
  · simp only [execDataAck, hs]
    exact sendNext_fault h
  · simp only [execDataAck, hs]
    exact unexpected_fault h
  · simp only [execDataAck, hs, hd]
    exact unexpected_fault h

theorem execRxAck_fault (b : Byte) (hs : s.state ≠ .ready) : execRxAck b s = .fault .bufferRange := by
  unfold execRxAck
  split
  · split
    · rw [if_neg h.le.not_gt]
    · exact unexpected_fault h
  · exact unexpected_fault h
  · exact unexpected_fault h
  · exact unexpected_fault h
  · contradiction

/-- RX_NACK faults but where it merges. -/
theorem execRxNack_fault (b : Byte) (hs : s.state ≠ .ready) (hm : s.state = .masterReadModifyWrite → s.dir ≠ 1#1) :
    execRxNack b s = .fault .bufferRange := by
  unfold execRxNack
  split
  · split
    · rw [if_neg h.le.not_gt]
    · exact unexpected_fault h
  · next hst =>
    rw [if_neg (hm hst)]
    exact unexpected_fault h
  · exact unexpected_fault h
  · exact unexpected_fault h
  · contradiction

end

/-! ### Within BUF no event stops (R61, R290) -/

section
variable {s : State} (hi : s.idx.toNat ≤ s.N)
include hi

theorem fail_next (e : ErrRec) : ∃ t, fail e s = .next t := ⟨_, fail_eq e hi⟩

theorem unexpected_next : ∃ t, unexpected s = .next t := ⟨_, unexpected_eq hi⟩

/-- A byte still to be sent lies below `len`, so within BUF. -/
theorem sendNext_next (hl : s.len.toNat ≤ s.N) : ∃ t, sendNext s = .next t := by
  unfold sendNext
  split
  · next hm =>
    have hlt : s.idx.toNat < s.buf.length := (of_decide_eq_true hm).trans_le hl
    rw [List.getElem?_eq_getElem hlt]
    exact ⟨_, rfl⟩
  · exact ⟨_, complete_issue stopWord hi⟩

theorem execAddrAck_next (hl : s.len.toNat ≤ s.N) : ∃ t, execAddrAck s = .next t := by
  unfold execAddrAck
  split
  · exact sendNext_next hi hl
  · exact ⟨_, rfl⟩
  · exact ⟨_, rfl⟩
  · split <;> exact ⟨_, rfl⟩
  · exact ⟨_, rfl⟩

theorem execDataAck_next (hl : s.len.toNat ≤ s.N) : ∃ t, execDataAck s = .next t := by
  unfold execDataAck
  split
  · exact sendNext_next hi hl
  · exact ⟨_, rfl⟩
  · split
    · exact ⟨_, rfl⟩
    · exact unexpected_next hi
  · exact unexpected_next hi
  · exact ⟨_, rfl⟩

/-- A byte with at least one more to come has its place below `len`. -/
theorem execRxAck_next (b : Byte) (hl : s.len.toNat ≤ s.N) : ∃ t, execRxAck b s = .next t := by
  unfold execRxAck
  split
  · split
    · next hm =>
      have hlen : s.idx.toNat + 2 ≤ s.len.toNat := of_decide_eq_true hm
      rw [if_pos (by omega)]
      exact ⟨_, rfl⟩
    · exact unexpected_next hi
  · exact unexpected_next hi
  · exact unexpected_next hi
  · exact unexpected_next hi
  · exact ⟨_, rfl⟩

/-- The last byte has its place below `len`, and counting it gives `len`; the merge writes the first two places of BUF. -/
theorem execRxNack_next (b : Byte) (hl : s.len.toNat ≤ s.N) (hN : 2 ≤ s.N) : ∃ t, execRxNack b s = .next t := by
  unfold execRxNack
  split
  · split
    · next hm =>
      have hlen : s.idx.toNat + 1 = s.len.toNat := of_decide_eq_true hm
      have hcount : (s.idx + 1#8).toNat = s.idx.toNat + 1 := toNat_succ_of_lt (n := s.len) (by omega)
      have hstored : (storeByte b s).idx.toNat ≤ (storeByte b s).N := by
        rw [storeByte_idx, storeByte_N, hcount]
        omega
      rw [if_pos (by omega)]
      exact ⟨_, complete_issue stopWord hstored⟩
    · exact unexpected_next hi
  · split
    · exact ⟨_, rfl⟩
    · exact unexpected_next hi
  · exact unexpected_next hi
  · exact unexpected_next hi
  · exact ⟨_, rfl⟩

theorem reservedEvent_next : ∃ t, reservedEvent s = .next t := by
  by_cases hs : s.state = .ready
  · exact ⟨_, reservedEvent_ready hs⟩
  · rw [reservedEvent_busy hs]
    exact unexpected_next hi

/-- R290: every event has a rule that answers, whatever the state. -/
theorem exec_event_next {i : Instr} (hc : i.channel = .ev) (hl : s.len.toNat ≤ s.N) (hN : 2 ≤ s.N) :
    ∃ t, exec i s = .next t := by
  by_cases hs : s.state = .ready
  · exact ⟨_, exec_event_ready hc hs⟩
  cases i with
  | addrAck => exact execAddrAck_next hi hl
  | addrNack => exact (fail_next hi _).imp fun _ => (execAddrNack_busy hs).trans
  | dataAck => exact execDataAck_next hi hl
  | dataNack =>
    rcases execDataNack_busy hs with h | h
    · exact (fail_next hi _).imp fun _ => h.trans
    · exact (unexpected_next hi).imp fun _ => h.trans
  | rxAck b => exact execRxAck_next hi b hl
  | rxNack b => exact execRxNack_next hi b hl hN
  | arbLost => exact (fail_next hi _).imp fun _ => (execArbLost_busy hs).trans
  | busError => exact (fail_next hi _).imp fun _ => (execBusError_busy hs).trans
  | init | write | readInto | nbReadInto | nbReadReg | rmwReg | enqRead | enqMwrite | poll => nomatch hc
  | start | send | recv | stop | release | enable => nomatch hc

end

/-- Settles O46: event by event, the two sides of the bound on `idx`. -/
theorem endBeyondTheBufferFaults : Obligations.EndBeyondTheBufferFaults := by
  constructor
  · intro s b hs h
    have hdata : execDataNack s = .fault .bufferRange :=
      (execDataNack_busy hs).elim (·.trans (fail_fault h _)) (·.trans (unexpected_fault h))
    refine ⟨(execAddrNack_busy hs).trans (fail_fault h _), hdata, (execArbLost_busy hs).trans (fail_fault h _),
      (execBusError_busy hs).trans (fail_fault h _), execRxAck_fault h b hs,
      (reservedEvent_busy hs).trans (unexpected_fault h), execAddrAck_fault h, execDataAck_fault h, fun hst => ?_⟩
    refine execRxNack_fault h b hs fun hm => ?_
    obtain ⟨_, hd⟩ : s.state = .masterReadModifyWrite ∧ s.dir = 0#1 := by simpa [hm] using hst
    simp [hd]
  · exact fun s i hc hi hl hN => ⟨exec_event_next hi hc hl hN, reservedEvent_next hi⟩

end Sys2Proof.Machine
end

section
/-! PROOFS. Encoding (R91 to R103, R108): the fields of a host command word, decoding after encoding, the reserved
numbers, and the code that POLL answers. -/

namespace Sys2Proof

/-! ### The fields of a word put together by `hostWord` (R91) -/

section
variable (op : BitVec 4) (wait : Bool) (prio : Prio) (sla : DevAddr) (reg a b : Byte)

@[simp] theorem wait_hostWord : HostHeader.wait (hostWord op wait prio sla reg a b) = wait :=
  hostWord_getLsbD ..

@[simp] theorem prio_hostWord : HostHeader.prio (hostWord op wait prio sla reg a b) = prio := by
  simp (disch := omega) only [HostHeader.prio, hostWord, BitVec.extractLsb'_append_eq_of_le]
  exact BitVec.extractLsb'_append_eq_right

@[simp] theorem sla_hostWord : HostHeader.sla (hostWord op wait prio sla reg a b) = sla := by
  simp (disch := omega) only [HostHeader.sla, hostWord, BitVec.extractLsb'_append_eq_of_le]
  exact BitVec.extractLsb'_append_eq_right

@[simp] theorem reg_hostWord : HostHeader.reg (hostWord op wait prio sla reg a b) = reg := by
  simp (disch := omega) only [HostHeader.reg, hostWord, BitVec.extractLsb'_append_eq_of_le]
  exact BitVec.extractLsb'_append_eq_right

@[simp] theorem a_hostWord : HostHeader.a (hostWord op wait prio sla reg a b) = a := by
  simp (disch := omega) only [HostHeader.a, hostWord, BitVec.extractLsb'_append_eq_of_le]
  exact BitVec.extractLsb'_append_eq_right

@[simp] theorem b_hostWord : HostHeader.b (hostWord op wait prio sla reg a b) = b :=
  BitVec.extractLsb'_append_eq_right

theorem getLsbD_24_hostWord : (hostWord op wait prio sla reg a b).getLsbD 24 = false :=
  hostWord_getLsbD ..

end

/-- One bit, as a field of width 1. -/
theorem ofBool_getLsbD {n : Nat} (w : BitVec n) (p : Nat) : BitVec.ofBool (w.getLsbD p) = w.extractLsb' p 1 := by
  apply BitVec.eq_of_getLsbD_eq
  intro i hi
  obtain rfl : i = 0 := by omega
  simp

/-- R91: the eight fields stand side by side, so they join to the whole word. -/
theorem hostWord_of_fields {w : HostHeader} (h : w.getLsbD 24 = false) :
    hostWord (HostHeader.op w) (HostHeader.wait w) (HostHeader.prio w) (HostHeader.sla w) (HostHeader.reg w)
      (HostHeader.a w) (HostHeader.b w) = w := by
  have hz : 0#1 = w.extractLsb' 24 1 := by rw [← ofBool_getLsbD, h]; rfl
  simp only [hostWord, HostHeader.op, HostHeader.wait, HostHeader.prio, HostHeader.sla, HostHeader.reg, HostHeader.a,
    HostHeader.b, hz, ofBool_getLsbD]
  simp (disch := decide) only [BitVec.extractLsb'_append_extractLsb'_eq_extractLsb']
  exact BitVec.extractLsb'_eq_self

/-- Settles O2: field by field, and the fields joined again. -/
theorem hostWordFieldsMakeUpTheWord : Obligations.HostWordFieldsMakeUpTheWord :=
  ⟨fun _ _ _ _ _ _ _ =>
    ⟨op_hostWord .., wait_hostWord .., prio_hostWord .., sla_hostWord .., reg_hostWord .., a_hostWord .., b_hostWord ..,
      getLsbD_24_hostWord ..⟩,
    fun _ => hostWord_of_fields⟩

/-! ### Decoding after encoding -/

/-- Settles O1: each channel's decoder reads back the operation number, then the operands of that operation. -/
theorem decodeOfEncodeIsTheInstruction : Obligations.DecodeOfEncodeIsTheInstruction := by
  intro i
  cases i with
  | init | write | readInto | nbReadInto | nbReadReg | rmwReg | enqRead | enqMwrite | poll =>
    simp [encode, decode, decodeHost, op_hostWord]
  | addrAck | addrNack | dataAck | dataNack | rxAck | rxNack | arbLost | busError =>
    simp [encode, decode, decodeEvent, codeOf_shortWord, argOf_shortWord]
  | start sla dir =>
    simp [encode, decode, decodePhy, startWord, codeOf_shortWord, argOf_shortWord]
    exact ⟨BitVec.extractLsb'_append_eq_left, BitVec.extractLsb'_append_eq_right⟩
  | send byte => simp [encode, decode, decodePhy, sendWord, codeOf_shortWord, argOf_shortWord]
  | recv ack =>
    simp [encode, decode, decodePhy, recvWord, codeOf_shortWord, argOf_shortWord]
    cases ack <;> rfl
  | stop | release | enable => rfl

/-! ### The reserved operation numbers (R103) -/

/-- A host word decodes when its number is below 9 and is rejected by name when it is not (R92). -/
theorem decode_hc_by_number (w : HostHeader) (d : List Byte) :
    if (HostHeader.op w).toNat < 9 then ∃ i, decode (.hc w d) = .ok i
      else decode (.hc w d) = .error (.hostCommand (HostHeader.op w)) := by
  simp only [ite_prop_iff_or, decode, decodeHost]
  split
  case h_10 =>
    refine .inr ⟨?_, rfl⟩
    simp only [imp_false] at *
    bv_omega
  all_goals exact .inl ⟨by bv_omega, _, rfl⟩

/-- An event word decodes when its code is below 8 and is rejected by name when it is not (R99). -/
theorem decode_ev_by_number (w : EventWord) :
    if (codeOf w).toNat < 8 then ∃ i, decode (.ev w) = .ok i else decode (.ev w) = .error (.event (codeOf w)) := by
  simp only [ite_prop_iff_or, decode, decodeEvent]
  split
  case h_9 =>
    refine .inr ⟨?_, rfl⟩
    simp only [imp_false] at *
    bv_omega
  all_goals exact .inl ⟨by bv_omega, _, rfl⟩

/-- A PHY word decodes when its number is below 6 and is rejected by name when it is not (R100). -/
theorem decode_pc_by_number (w : PhyWord) :
    if (codeOf w).toNat < 6 then ∃ i, decode (.pc w) = .ok i
      else decode (.pc w) = .error (.phyCommand (codeOf w)) := by
  simp only [ite_prop_iff_or, decode, decodePhy]
  split
  case h_7 =>
    refine .inr ⟨?_, rfl⟩
    simp only [imp_false] at *
    bv_omega
  all_goals exact .inl ⟨by bv_omega, _, rfl⟩

/-- Settles O3, channel by channel. -/
theorem reservedNumbersAreRejectedByName : Obligations.ReservedNumbersAreRejectedByName :=
  ⟨decode_hc_by_number, decode_ev_by_number, decode_pc_by_number⟩

/-- Settles O4: the decoder run on the six words. -/
theorem wordsOfTheSpecDecodeAsItSays : Obligations.WordsOfTheSpecDecodeAsItSays :=
  ⟨fun _ => rfl, fun _ => rfl, fun _ => rfl, rfl, rfl, rfl⟩

namespace Machine

/-! ### The code of a POLL (R98) -/

theorem pollCode_state (s : State) : (pollCode s).extractLsb' 0 3 = busCode s.state :=
  BitVec.extractLsb'_append_eq_right

theorem pollCode_err (s : State) : (pollCode s).extractLsb' 3 3 = errCode s.err :=
  BitVec.extractLsb'_append_eq_of_le (by decide) |>.trans BitVec.extractLsb'_append_eq_right

theorem pollCode_top (s : State) : (pollCode s).extractLsb' 6 2 = 0#2 :=
  BitVec.extractLsb'_append_eq_of_le (by decide) |>.trans BitVec.extractLsb'_append_eq_left

/-- Settles O25: the response is `pollCode`, read field by field. -/
theorem pollReportsTheRegisters : Obligations.PollReportsTheRegisters :=
  fun s => ⟨pollCode s, rfl, pollCode_state s, pollCode_err s, pollCode_top s⟩

end Machine

end Sys2Proof
end

section
/-! PROOFS. The event rules (40_bus_fsm section 3), arm by arm: what each event does in each phase, as an equation
(R142 to R151), and what the end of a read delivers (R134). -/

namespace Sys2Proof.Machine

/-! ### The comparisons of the event rules -/

theorem moreToSend_iff {s : State} : moreToSend s = true ↔ s.idx.toNat < s.len.toNat := by simp [moreToSend]

theorem moreExpected_iff {s : State} : moreExpected s = true ↔ s.idx.toNat + 2 ≤ s.len.toNat := by simp [moreExpected]

theorem lastExpected_iff {s : State} : lastExpected s = true ↔ s.idx.toNat + 1 = s.len.toNat := by simp [lastExpected]

/-- The word of a RECV whose acknowledge answers a question about the bytes to come (R103, R137). -/
theorem recvWord_decide (p : Prop) [Decidable p] : recvWord (decide p) = if p then 0x201#12 else 0x200#12 := by
  by_cases hp : p <;> simp only [hp] <;> rfl

/-! ### Acknowledge in MT: the next byte or the end (R142, R144) -/

theorem sendNext_of_more {s : State} {b : Byte} (hl : s.idx.toNat < s.len.toNat) (hb : s.buf[s.idx.toNat]? = some b) :
    sendNext s = .next (issue (sendWord b) { s with idx := s.idx + 1#8 }) := by
  rw [sendNext, if_pos (moreToSend_iff.mpr hl), hb]

theorem sendNext_of_all_sent {s : State} (hl : s.len.toNat ≤ s.idx.toNat) (hi : s.idx.toNat ≤ s.N) :
    sendNext s = .next (dispatch (endedBy s.err stopWord s)) := by
  rw [sendNext, if_neg (moreToSend_iff.not.mpr hl.not_gt), complete_issue stopWord hi]

theorem sendNext_beyond_buffer {s : State} (hl : s.idx.toNat < s.len.toNat) (hN : s.N ≤ s.idx.toNat) :
    sendNext s = .fault .bufferRange := by
  rw [sendNext, if_pos (moreToSend_iff.mpr hl), List.getElem?_eq_none hN]

/-- R142, R144: in MT both acknowledges have the same arm. -/
theorem acknowledge_masterTransmit {s : State} (hs : s.state = .masterTransmit) :
    exec .addrAck s = sendNext s ∧ exec .dataAck s = sendNext s := by
  simp only [exec, execAddrAck, execDataAck, hs, and_self]

/-- Settles O39: the arm of both acknowledges, by the number of bytes left to send. -/
theorem acknowledgeInTransmitSendsOrEnds : Obligations.AcknowledgeInTransmitSendsOrEnds := by
  intro s hs
  rw [(acknowledge_masterTransmit hs).1, (acknowledge_masterTransmit hs).2]
  refine ⟨fun b hl hb => ?_, fun hl hi => ?_, fun hl hN => ?_⟩
  · exact and_self_iff.mpr (sendNext_of_more hl hb)
  · exact and_self_iff.mpr (sendNext_of_all_sent hl hi)
  · exact and_self_iff.mpr (sendNext_beyond_buffer hl hN)

/-! ### The address and the register address acknowledged (R142, R144) -/

theorem execAddrAck_sendsRegister {s : State} (hs : s.state = .masterTransmitThenReceive ∨
    (s.state = .masterReadModifyWrite ∧ s.dir = 0#1)) : execAddrAck s = .next (issue (sendWord s.reg) s) := by
  rcases hs with hs | ⟨hs, hd⟩ <;> simp only [execAddrAck, hs]
  exact if_pos hd

theorem execAddrAck_receives {s : State} (hs : s.state = .masterReceive) :
    execAddrAck s = .next (issue (recvWord (moreExpected s)) s) := by
  simp only [execAddrAck, hs]

theorem execAddrAck_readsOld {s : State} (hs : s.state = .masterReadModifyWrite) (hd : s.dir = 1#1) :
    execAddrAck s = .next (issue (recvWord false) s) := by
  simp only [execAddrAck, hs]
  exact if_neg (by simp [hd])

/-- Settles O40, phase by phase. -/
theorem addressAckSendsRegisterOrReceives : Obligations.AddressAckSendsRegisterOrReceives := by
  refine fun s => ⟨execAddrAck_sendsRegister, fun hs => (execAddrAck_receives hs).trans ?_, execAddrAck_readsOld⟩
  rw [moreExpected, recvWord_decide]
  rfl

theorem turnAround_eq (s : State) : turnAround s =
    { s with dir := 1#1, idx := 0#8, pc := s.pc ++ [stopWord, startWord s.sla 1#1] } := by
  simp [turnAround, issue]

theorem execDataAck_turnsToReceive {s : State} (hs : s.state = .masterTransmitThenReceive) :
    execDataAck s = .next { turnAround s with state := .masterReceive } := by
  simp only [execDataAck, hs]

theorem execDataAck_turnsToReadOld {s : State} (hs : s.state = .masterReadModifyWrite) (hd : s.dir = 0#1) :
    execDataAck s = .next (turnAround s) := by
  simp only [execDataAck, hs]
  exact if_pos hd

/-- Settles O41: both arms turn the bus around, and the first takes MTTR to MR. -/
theorem dataAckTurnsTheBusAround : Obligations.DataAckTurnsTheBusAround := by
  refine fun s => ⟨fun hs => (execDataAck_turnsToReceive hs).trans ?_,
    fun hs hd => (execDataAck_turnsToReadOld hs hd).trans ?_⟩ <;> rw [turnAround_eq] <;> rfl

/-! ### A received byte (R146, R147) -/

theorem execRxAck_more {s : State} (b : Byte) (hs : s.state = .masterReceive) (hm : s.idx.toNat + 2 ≤ s.len.toNat) :
    execRxAck b s = if s.idx.toNat < s.N then
      .next (issue (recvWord (moreExpected (storeByte b s))) (storeByte b s)) else .fault .bufferRange := by
  simp only [execRxAck, hs]
  exact if_pos (moreExpected_iff.mpr hm)

/-- R146: the acknowledge of the next RECV is chosen once the byte is counted. -/
theorem moreExpected_storeByte {s : State} (b : Byte) (hl : s.idx.toNat < s.len.toNat) :
    moreExpected (storeByte b s) = decide (s.idx.toNat + 3 ≤ s.len.toNat) := by
  rw [moreExpected, storeByte_idx, storeByte_len, toNat_succ_of_lt hl]

/-- Settles O42: with two or more bytes to come, by whether BUF has a place at `idx`. -/
theorem rxAckStoresAndAsksForTheNext : Obligations.RxAckStoresAndAsksForTheNext := by
  intro s b hs hm
  have hx := execRxAck_more b hs hm
  refine ⟨fun hi => hx.trans ?_, fun hN => hx.trans (if_neg hN.not_gt)⟩
  rw [if_pos hi, moreExpected_storeByte b (by omega), recvWord_decide]
  rfl

theorem execRxNack_last {s : State} (b : Byte) (hs : s.state = .masterReceive) (hl : s.idx.toNat + 1 = s.len.toNat) :
    execRxNack b s = if s.idx.toNat < s.N then complete (issue stopWord (storeByte b s)) else .fault .bufferRange := by
  simp only [execRxNack, hs]
  exact if_pos (lastExpected_iff.mpr hl)

/-- Settles O43: the byte stored below N leaves `idx` within BUF, so the end is the one of R133. -/
theorem rxNackStoresTheLastByteAndEnds : Obligations.RxNackStoresTheLastByteAndEnds := by
  intro s b hs hl
  have hx := execRxNack_last b hs hl
  refine ⟨fun hi => hx.trans ?_, fun hN => hx.trans (if_neg hN.not_gt)⟩
  have hstored : (storeByte b s).idx.toNat ≤ (storeByte b s).N := by
    rw [storeByte_idx, storeByte_N, toNat_succ_of_lt (n := s.len) (by omega)]
    exact hi
  rw [if_pos hi, complete_issue stopWord hstored]
  rfl

theorem execRxNack_merges {s : State} (old : Byte) (hs : s.state = .masterReadModifyWrite) (hd : s.dir = 1#1) :
    execRxNack old s = if 2 ≤ s.N then .next (mergeAndWriteBack old s) else .fault .bufferRange := by
  simp only [execRxNack, hs]
  exact if_pos hd

/-- The merge writes the first two bytes of BUF and keeps the others (R221, R222). -/
theorem mergeAndWriteBack_eq {s : State} (old : Byte) (hN : 2 ≤ s.N) : mergeAndWriteBack old s =
    issue (startWord s.sla 0#1)
      { s with
        buf := s.reg :: merge old s.rmwData s.rmwMask :: s.buf.drop 2
        len := 2#8, idx := 0#8, dir := 0#1, state := .masterTransmit } := by
  have hbuf : ((s.buf.set 0 old).set 0 s.reg).set 1 (merge old s.rmwData s.rmwMask) =
      s.reg :: merge old s.rmwData s.rmwMask :: s.buf.drop 2 := by
    match hb : s.buf, (show 2 ≤ s.buf.length from hN) with
    | _ :: _ :: _, _ => rfl
  rw [mergeAndWriteBack, hbuf]

/-- Settles O44: the repeated start is the only word issued. -/
theorem rxNackMergesAndWritesBack : Obligations.RxNackMergesAndWritesBack := by
  intro s old hs hd
  have hx := execRxNack_merges old hs hd
  refine ⟨fun hN => hx.trans ?_, fun hN => hx.trans (if_neg hN.not_ge)⟩
  rw [if_pos hN, mergeAndWriteBack_eq old hN]
  rfl

/-! ### The events that end the transaction, and the events of `Ready` (R143, R145, R148 to R151) -/

/-- R145: the transmit phases, where a data byte may be answered. -/
theorem execDataNack_transmit {s : State} (hs : s.state = .masterTransmit ∨ s.state = .masterTransmitThenReceive ∨
    (s.state = .masterReadModifyWrite ∧ s.dir = 0#1)) : execDataNack s = fail .dataNack s := by
  rcases hs with hs | hs | ⟨hs, hd⟩ <;> simp only [execDataNack, hs]
  exact if_pos hd

/-- Settles O45: each is the error exit with its own error record. -/
theorem errorEventsEndTheTransaction : Obligations.ErrorEventsEndTheTransaction :=
  fun _ hs hi =>
    ⟨(execAddrNack_busy hs).trans (fail_eq .addrNack hi),
      fun hst => (execDataNack_transmit hst).trans (fail_eq .dataNack hi),
      (execArbLost_busy hs).trans (fail_eq .arbLost hi),
      (execBusError_busy hs).trans (fail_eq .busProtocolError hi)⟩

/-- R150: no data byte of this master is on the bus in a receive phase. -/
theorem dataEvents_receive {s : State} (hs : s.state = .masterReceive ∨
    (s.state = .masterReadModifyWrite ∧ s.dir = 1#1)) :
    execDataAck s = unexpected s ∧ execDataNack s = unexpected s := by
  rcases hs with hs | ⟨hs, hd⟩ <;> simp [execDataAck, execDataNack, hs]
  simp [hd]

/-- R150: RX_ACK has an arm in MR with two or more bytes to come only. -/
theorem execRxAck_unexpected {s : State} (b : Byte) (hs : s.state = .masterTransmit ∨
    s.state = .masterTransmitThenReceive ∨ s.state = .masterReadModifyWrite ∨
    (s.state = .masterReceive ∧ s.len.toNat < s.idx.toNat + 2)) : execRxAck b s = unexpected s := by
  rcases hs with hs | hs | hs | ⟨hs, hl⟩ <;> simp only [execRxAck, hs]
  exact if_neg (moreExpected_iff.not.mpr hl.not_ge)

/-- R150: RX_NACK has an arm in MR with exactly one byte to come, and where it merges. -/
theorem execRxNack_unexpected {s : State} (b : Byte) (hs : s.state = .masterTransmit ∨
    s.state = .masterTransmitThenReceive ∨ (s.state = .masterReadModifyWrite ∧ s.dir = 0#1) ∨
    (s.state = .masterReceive ∧ s.idx.toNat + 1 ≠ s.len.toNat)) : execRxNack b s = unexpected s := by
  rcases hs with hs | hs | ⟨hs, hd⟩ | ⟨hs, hl⟩ <;> simp only [execRxNack, hs]
  · exact if_neg (by simp [hd])
  · exact if_neg (lastExpected_iff.not.mpr hl)

/-- Settles O47: each is the error exit of R150. -/
theorem unexpectedEventsAreBusProtocolErrors : Obligations.UnexpectedEventsAreBusProtocolErrors := by
  intro s b hi
  have hu := unexpected_eq hi
  refine ⟨fun hs => ?_, fun hs => (execRxAck_unexpected b hs).trans hu,
    fun hs => (execRxNack_unexpected b hs).trans hu, fun hs => (reservedEvent_busy hs).trans hu⟩
  exact (dataEvents_receive hs).imp (·.trans hu) (·.trans hu)

/-- Settles O48: each event is of channel EV, and R151 has one rule for all of them. -/
theorem eventsInReadyAreDiscarded : Obligations.EventsInReadyAreDiscarded := by
  intro s b hs
  refine ⟨fun i hi => exec_event_ready ?_ hs, reservedEvent_ready hs⟩
  revert i
  simp [Instr.channel]

/-! ### What the end of a read delivers (R134) -/

section
variable {s : State} (hi : s.idx.toNat ≤ s.N)

/-- The count cell lies below the data cells of its tag (R62). -/
theorem read_deliver_count : Memory.read (deliver s).destMem (countAddr s.dest) = some s.idx := by
  rw [deliver_destMem, Memory.read_writeBytes, if_neg (by simp only [countAddr, dataAddr]; omega), Memory.read_write_same]

include hi

theorem length_take_idx : (s.buf.take s.idx.toNat).length = s.idx.toNat := by
  simpa [State.N] using hi

theorem read_deliver_data {i : Nat} (hlt : i < s.idx.toNat) :
    Memory.read (deliver s).destMem (dataAddr s.dest i) = s.buf[i]? := by
  have hoff : dataAddr s.dest i - dataAddr s.dest 0 = i := by simp only [dataAddr]; omega
  rw [deliver_destMem, Memory.read_writeBytes, length_take_idx hi, if_pos (by simp only [dataAddr]; omega), hoff,
    List.getElem?_take_of_lt hlt]

/-- Delivering writes the count and the bytes received, and no other cell (R62). -/
theorem read_deliver_other {a : Nat} (hc : a ≠ countAddr s.dest) (hd : ∀ i, i < s.idx.toNat → a ≠ dataAddr s.dest i) :
    Memory.read (deliver s).destMem a = Memory.read s.destMem a := by
  have hout : ¬ (dataAddr s.dest 0 ≤ a ∧ a < dataAddr s.dest 0 + s.idx.toNat) := fun ⟨hle, hlt⟩ =>
    hd (a - dataAddr s.dest 0) (by omega) (by simp only [dataAddr] at *; omega)
  rw [deliver_destMem, Memory.read_writeBytes, length_take_idx hi, if_neg hout, Memory.read_write_other _ _ hc]

end

theorem endedBy_destMem {s : State} (e : ErrRec) (w : PhyWord)
    (hs : s.state = .masterReceive ∨ s.state = .masterTransmitThenReceive) :
    (endedBy e w s).destMem = (deliver s).destMem :=
  if_pos hs

/-- Settles O49: the end of a read writes DEST as `deliver()` does; a data cell at or beyond `idx` is none it writes. -/
theorem endOfAReadDeliversCountAndBytes : Obligations.EndOfAReadDeliversCountAndBytes := by
  intro s e w hi _ hs t
  have hmem : t.destMem = (deliver s).destMem := endedBy_destMem e w hs
  refine ⟨?_, fun i hlt => ?_, fun i hge => ?_, fun a hc hd => ?_⟩
  · rw [destCount, hmem, read_deliver_count]
  · rw [destData, if_pos (show i < t.N from hlt.trans_le hi), hmem, read_deliver_data hi hlt]
  · have hkept : Memory.read (deliver s).destMem (dataAddr s.dest i) = Memory.read s.destMem (dataAddr s.dest i) :=
      read_deliver_other hi (by simp only [dataAddr, countAddr]; omega) fun j hj => by simp only [dataAddr]; omega
    rw [destData, destData, hmem, hkept]
    rfl
  · rw [hmem, read_deliver_other hi hc hd]

end Sys2Proof.Machine
end

section
/-! PROOFS. Under the PHY contract no event is unexpected (R141, R150, R151): which events may answer which request, that
such an event marks nothing, and that every effect of a step leaves requests that fit the phase. -/

namespace Sys2Proof.Machine

/-! ### An answer to a request that fits the phase is expected -/

/-- The events that may answer a request, as operations (R135 to R137, R141 (a)). -/
inductive Answers : PhyRequest → Instr → Prop where
  | addrAck : Answers .address .addrAck
  | addrNack : Answers .address .addrNack
  | dataAck : Answers .sendByte .dataAck
  | dataNack : Answers .sendByte .dataNack
  | rxAck (b : Byte) : Answers (.receiveByte true) (.rxAck b)
  | rxNack (b : Byte) : Answers (.receiveByte false) (.rxNack b)
  | arbLost (r : PhyRequest) : Answers r .arbLost
  | busError (r : PhyRequest) : Answers r .busError

/-- An allowed word has none of the reserved codes. -/
theorem answers_of_answerAllowed {r : PhyRequest} {w : EventWord} (h : answerAllowed r w = true) :
    ∃ i, decode (.ev w) = .ok i ∧ Answers r i := by
  rcases r with _ | _ | _ | _ <;>
    simp only [answerAllowed, List.mem_cons, List.not_mem_nil, or_false, decide_eq_true_eq] at h
  · rcases h with hc | hc | hc | hc
    · exact ⟨.addrAck, by simp only [decode, decodeEvent, hc], .addrAck⟩
    · exact ⟨.addrNack, by simp only [decode, decodeEvent, hc], .addrNack⟩
    · exact ⟨.arbLost, by simp only [decode, decodeEvent, hc], .arbLost _⟩
    · exact ⟨.busError, by simp only [decode, decodeEvent, hc], .busError _⟩
  · rcases h with hc | hc | hc | hc
    · exact ⟨.dataAck, by simp only [decode, decodeEvent, hc], .dataAck⟩
    · exact ⟨.dataNack, by simp only [decode, decodeEvent, hc], .dataNack⟩
    · exact ⟨.arbLost, by simp only [decode, decodeEvent, hc], .arbLost _⟩
    · exact ⟨.busError, by simp only [decode, decodeEvent, hc], .busError _⟩
  · rcases h with hc | hc | hc
    · exact ⟨.rxNack (argOf w), by simp only [decode, decodeEvent, hc], .rxNack _⟩
    · exact ⟨.arbLost, by simp only [decode, decodeEvent, hc], .arbLost _⟩
    · exact ⟨.busError, by simp only [decode, decodeEvent, hc], .busError _⟩
  · rcases h with hc | hc | hc
    · exact ⟨.rxAck (argOf w), by simp only [decode, decodeEvent, hc], .rxAck _⟩
    · exact ⟨.arbLost, by simp only [decode, decodeEvent, hc], .arbLost _⟩
    · exact ⟨.busError, by simp only [decode, decodeEvent, hc], .busError _⟩

theorem RequestFits.busy {s : State} {r : PhyRequest} (h : RequestFits s r) : s.state ≠ .ready := by
  cases r with
  | address => exact h
  | sendByte => rcases h with hs | hs | ⟨hs, _⟩ <;> simp [hs]
  | receiveByte => rcases h with ⟨hs, _⟩ | ⟨hs, _⟩ <;> simp [hs]

theorem marks_of_complete {s t : State} (h : complete s = .next t) : t.marks = s.marks := by
  unfold complete at h
  split at h
  · cases h
  · next hi =>
    cases h
    rw [dispatch_marks, goIdle_eq (not_lt.mp hi)]

theorem marks_of_fail {e : ErrRec} {s t : State} (h : fail e s = .next t) : t.marks = s.marks :=
  (marks_of_complete h).trans rfl

theorem marks_of_sendNext {s t : State} (h : sendNext s = .next t) : t.marks = s.marks := by
  unfold sendNext at h
  split at h
  · split at h <;> cases h
    rfl
  · exact (marks_of_complete h).trans rfl

/-- R40 and the contract leave exactly one byte to come when RX_NACK may answer in MR. -/
theorem last_to_come_of_phase {s : State} (hp : PhaseOk s) (hs : s.state = .masterReceive)
    (hm : moreExpected s = false) : s.idx.toNat + 1 = s.len.toNat := by
  rw [PhaseOk, hs] at hp
  obtain ⟨_, _, _, hidx⟩ := hp
  have hle : ¬ s.idx.toNat + 2 ≤ s.len.toNat := of_decide_eq_false hm
  omega

/-- An event that may answer a request of the present phase is expected there, so it marks nothing (R150). -/
theorem Answers.marks {r : PhyRequest} {i : Instr} {s t : State} (ha : Answers r i) (hf : RequestFits s r)
    (hp : PhaseOk s) (h : exec i s = .next t) : t.marks = s.marks := by
  cases ha with
  | addrAck =>
    simp only [exec, execAddrAck] at h
    split at h
    · exact marks_of_sendNext h
    · cases h; rfl
    · cases h; rfl
    · split at h <;> cases h <;> rfl
    · contradiction
  | addrNack => exact marks_of_fail ((execAddrNack_busy hf).symm.trans h)
  | dataAck =>
    rcases hf with hs | hs | ⟨hs, hd⟩
    · exact marks_of_sendNext ((acknowledge_masterTransmit hs).2.symm.trans h)
    · cases (execDataAck_turnsToReceive hs).symm.trans h; rfl
    · cases (execDataAck_turnsToReadOld hs hd).symm.trans h; rfl
  | dataNack => exact marks_of_fail ((execDataNack_transmit hf).symm.trans h)
  | rxAck b =>
    rcases hf with ⟨hs, hm⟩ | ⟨_, _, hb⟩
    · rw [exec, execRxAck_more b hs (moreExpected_iff.mp hm.symm)] at h
      split at h <;> cases h
      rfl
    · cases hb
  | rxNack b =>
    rcases hf with ⟨hs, hm⟩ | ⟨hs, hd, _⟩
    · rw [exec, execRxNack_last b hs (last_to_come_of_phase hp hs hm.symm)] at h
      split at h
      · exact (marks_of_complete h).trans rfl
      · cases h
    · rw [exec, execRxNack_merges b hs hd] at h
      split at h <;> cases h
      rfl
  | arbLost => exact marks_of_fail ((execArbLost_busy hf.busy).symm.trans h)
  | busError => exact marks_of_fail ((execBusError_busy hf.busy).symm.trans h)

/-! ### A request issued when nothing is owed -/

theorem answersOwed_eq_zero {s : State} (h : answersOwed s = 0) :
    owedRequests s = [] ∧ s.ev = [] ∧ s.evtPending = none := by
  simpa [answersOwed, and_assoc] using h

theorem owedRequests_issue {w : PhyWord} (hw : isEnable w = false) (s : State) :
    owedRequests (issue w s) = owedRequests s ++ (requestOf w).toList := by
  simp [owedRequests, owedAfter_append, hw]

theorem contractKept_of_nothing_owed {s : State} (h : answersOwed s = 0) : ContractKept s := by
  obtain ⟨hreq, hev, hpend⟩ := answersOwed_eq_zero h
  exact { requests := by simp [hreq], pending := by simp [hpend], channelEmpty := hev }

/-- With nothing owed, the contract speaks of the request just issued only. -/
theorem contractKept_issue {w : PhyWord} {r : PhyRequest} {s : State} (h : answersOwed s = 0) (hw : isEnable w = false)
    (hr : requestOf w = some r) (hf : RequestFits (issue w s) r) : ContractKept (issue w s) := by
  obtain ⟨hreq, hev, hpend⟩ := answersOwed_eq_zero h
  refine { requests := fun q hq => ?_, pending := by simp [hpend], channelEmpty := hev }
  rw [owedRequests_issue hw, hreq, hr] at hq
  exact List.mem_singleton.mp hq ▸ hf

theorem contractKept_start (a : DevAddr) (d : BitVec 1) {s : State} (h : answersOwed s = 0) (hs : s.state ≠ .ready) :
    ContractKept (issue (startWord a d) s) :=
  contractKept_issue h (isEnable_shortWord _ _) (requestOf_startWord a d) hs

theorem contractKept_send (b : Byte) {s : State} (h : answersOwed s = 0) (hf : RequestFits s .sendByte) :
    ContractKept (issue (sendWord b) s) :=
  contractKept_issue h (isEnable_shortWord _ _) (requestOf_sendWord b) hf

theorem contractKept_recv {ack : Bool} {s : State} (h : answersOwed s = 0) (hf : RequestFits s (.receiveByte ack)) :
    ContractKept (issue (recvWord ack) s) :=
  contractKept_issue h (isEnable_shortWord _ _) (requestOf_recvWord ack) hf

theorem contractKept_dispatch {s : State} (h : answersOwed s = 0) : ContractKept (dispatch s) := by
  rcases dispatch_cases s with ⟨_, hd⟩ | ⟨_, _, _, _, _, ⟨x, _, hd⟩ | ⟨x, _, _, hd⟩⟩ <;> rw [hd]
  · exact contractKept_of_nothing_owed h
  · exact contractKept_start x.sla 0#1 h nofun
  · exact contractKept_start x.sla 0#1 h nofun

/-! ### The handler -/

/-- Every arm that continues a transaction makes a request of its own phase. -/
theorem Continues.contractKept {s t : State} (h : Continues s t) (ho : Machine.answersOwed s = 0) : ContractKept t := by
  have hbusy := h.busy
  cases h with
  | sendByte b hs => exact contractKept_send (s := { s with idx := s.idx + 1#8 }) b ho (.inl hs)
  | sendRegister hs => exact contractKept_send s.reg ho (.inr hs)
  | receiveFirst hs => exact contractKept_recv ho (.inl ⟨hs, rfl⟩)
  | receiveOld hs hd => exact contractKept_recv ho (.inr ⟨hs, hd, rfl⟩)
  | turnToReceive =>
    exact contractKept_start (s := issue stopWord { s with dir := 1#1, idx := 0#8, state := .masterReceive }) s.sla 1#1
      ((answersOwed_end (.inl rfl) _).trans ho) nofun
  | turnToReadOld => exact contractKept_start s.sla 1#1 ((answersOwed_end (.inl rfl) _).trans ho) hbusy
  | store b hs => exact contractKept_recv (s := storeByte b s) ho (.inl ⟨hs, rfl⟩)
  | merge => exact contractKept_start s.sla 0#1 ho nofun

theorem EventEffect.contractKept {s t : State} (h : EventEffect s t) (ho : answersOwed s = 0) : ContractKept t := by
  cases h with
  | discarded => exact contractKept_of_nothing_owed ho
  | continued _ hc => exact hc.contractKept ho
  | ended u e w _ hu hw => exact contractKept_dispatch ((answersOwed_endedBy hw e u).trans (hu.answersOwed.trans ho))

/-- The handler takes the one answer owed. -/
theorem answersOwed_handled {s : State} {w : EventWord} (ho : OneAnswerOwed s) (hw : s.evtPending = some w) :
    answersOwed { s with evtPending := none } = 0 := by
  have hcount : answersOwed s = answersOwed { s with evtPending := none } + 1 := by
    simp [answersOwed, owedRequests, hw]
  rw [OneAnswerOwed, hcount] at ho
  split at ho <;> omega

/-! ### The host -/

/-- Starting a transaction makes the first request; a command that starts none leaves all that is owed. -/
theorem HostEffect.contractKept {s t : State} (h : HostEffect s t) (hk : ContractKept s) (ho : OneAnswerOwed s) :
    ContractKept t := by
  have idle (hs : s.state = .ready) : answersOwed s = 0 := (oneAnswerOwed_of_ready hs).mp ho
  have started (hs : s.state = .ready) {u : State} (a : DevAddr) (d : BitVec 1)
      (hu : u = issue (startWord a d) { u with pc := s.pc }) (hn : answersOwed { u with pc := s.pc } = answersOwed s)
      (hb : u.state ≠ .ready) : ContractKept u := by
    rw [hu]
    exact contractKept_start a d (hn.trans (idle hs)) hb
  cases h with
  | answered | rejectedRead | polled | heldWrite | heldRead | enqueued => exact { hk with }
  | initialised _ hx =>
    have hready : t.state = .ready := by cases hx; rfl
    exact contractKept_of_nothing_owed ((oneAnswerOwed_of_ready hready).mp (oneAnswerOwed_execInit hx hk.channelEmpty))
  | wroteWaiting a _ _ hs | wrote a _ _ hs | regread a _ _ _ hs | rmw a _ _ _ hs =>
    exact started hs a 0#1 rfl rfl nofun
  | readWaiting a _ _ hs | read a _ _ hs => exact started hs a 1#1 rfl rfl nofun
  | enqueuedIdle p l l' hs =>
    exact { contractKept_dispatch (s := { noteUse s with queue := s.queue.set p l' }) (idle hs) with }

theorem HostEffect.phyContract {s t : State} (h : HostEffect s t) : t.marks.phyContract = s.marks.phyContract := by
  cases h with
  | initialised _ hx => cases hx; rfl
  | enqueuedIdle p l l' => simp
  | answered | rejectedRead | polled | heldWrite | heldRead | enqueued | wroteWaiting | wrote | regread | rmw |
    readWaiting | read => rfl

/-! ### One step -/

/-- The contract reads the phase, the requests, the pending event and channel EV only. -/
theorem ContractKept.of_eq {s t : State} (h : ContractKept s) (hf : ∀ r, RequestFits s r → RequestFits t r)
    (hr : owedRequests t = owedRequests s) (he : t.evtPending = s.evtPending) (hv : t.ev = s.ev) : ContractKept t where
  requests := fun r hm => hf r (h.requests r (hr ▸ hm))
  pending := fun w hw => (h.pending w (he ▸ hw)).imp fun r => .imp_left (hf r)
  channelEmpty := hv.trans h.channelEmpty

/-- The answer the PHY raises is one that its outstanding request allows (R141). -/
theorem contractKept_raiseEvent {s : State} {q : PhyRequest} {w : EventWord} (h : ContractKept s)
    (he : s.evtPending = none) (hb : ∀ v ∈ s.pc, isEnable v = false) (ho : s.phy.outstanding = some q)
    (ha : answerAllowed q w = true) : ContractKept (raiseEvent q w s) := by
  have howed : owedRequests s = q :: owedRequests (raiseEvent q w s) := by
    rw [raiseEvent_eq q w he h.channelEmpty]
    simp [owedRequests, owedAfter_of_no_enable _ hb, ho]
  rw [raiseEvent_eq q w he h.channelEmpty] at howed ⊢
  refine ⟨fun r hm => h.requests r (howed ▸ List.mem_cons_of_mem _ hm), fun v hv => ?_, h.channelEmpty⟩
  cases hv
  exact ⟨q, h.requests q (howed ▸ List.mem_cons_self), ha⟩

theorem StepEffect.contractKept {s t : State} (h : StepEffect s t) (hi : Inv s) (ho : OneAnswerOwed s)
    (hk : ContractKept s) (hn : NextAnswerAllowed s) :
    ContractKept t ∧ t.marks.phyContract = s.marks.phyContract := by
  cases h with
  | reset => exact ⟨contractKept_of_nothing_owed rfl, rfl⟩
  | handled _ w _ hw hx he =>
    obtain ⟨r, hf, ha⟩ := hk.pending w hw
    obtain ⟨i, hd, hans⟩ := answers_of_answerAllowed ha
    rw [runEventWord, hd] at hx
    have hm : t.marks = s.marks := hans.marks (s := { s with evtPending := none }) hf hi.phase hx
    exact ⟨he.contractKept (answersOwed_handled ho hw), congrArg _ hm⟩
  | latched w rest _ _ hv => cases hv.symm.trans hk.channelEmpty
  | stood | sent => exact ⟨{ hk with }, rfl⟩
  | enabled _ ts before rest w _ _ _ hp hb hw hx =>
    obtain ⟨bus, wire, rfl⟩ := enable_frame hx
    exact ⟨hk.of_eq (fun _ => id) (by simp [owedRequests, hp, owedAfter_enable _ hb hw]) rfl rfl, rfl⟩
  | raised ts q w rest _ he hv hb _ hq ha =>
    have hallowed := hn q w rest hq ha
    refine ⟨contractKept_raiseEvent { hk with } he hb hq hallowed, ?_⟩
    rw [raiseEvent_eq (s := { s with turns := ts, answers := rest }) q w he hv]
    simp [hallowed]
  | performed _ ts w rest _ _ _ _ hb hen hq hp hd hx =>
    have hout := exec_phy_outstanding (s := { s with turns := ts, pc := rest }) hd hen hq hx
    obtain ⟨phy, wire, draws, rfl⟩ := exec_phy_frame (decode_pc_channel hd) hx
    have hw : isEnable w = false := hb w (by simp [hp])
    simp only at hout
    exact ⟨hk.of_eq (fun _ => id) (by simp [owedRequests, owedAfter, hp, hw, hq, hout]) rfl rfl, rfl⟩
  | commanded _ ts c rest _ _ _ _ _ hx =>
    have he := runHostCommand_effect hx
    exact ⟨he.contractKept { hk with } ho, he.phyContract⟩
  | claimed _ ts cmd _ _ _ hw _ hx =>
    have he := exec_host_effect (hi.hold.holdable hw).channel hx
    exact ⟨he.contractKept { hk with } ho, he.phyContract⟩

/-- Settles O15: a pending event answers a request of the present phase, which expects it; every request a step issues fits
the phase it leaves. -/
theorem contractKeepingPhyCausesNoUnexpectedEvent : Obligations.ContractKeepingPhyCausesNoUnexpectedEvent :=
  fun _ _ hi ho hk hn h => (step_effect h).contractKept hi ho hk hn

end Sys2Proof.Machine
end

section
/-! PROOFS. What a step runs when an event is pending and when it is the PHY's turn (R71, R130, R140, R141), and what the PHY
commands do on the bus (R135 to R140). -/

namespace Sys2Proof.Machine

/-! ### The handler's and the PHY's turn -/

theorem step_of_pending {s : State} {w : EventWord} (hr : s.rst = false) (hp : s.evtPending = some w) :
    step s = runEventWord w { s with evtPending := none } := by
  simp only [step, hr, hp, Bool.false_eq_true, if_false]

/-- Settles O8: the word runs as it decodes. -/
theorem stepRunsThePendingEvent : Obligations.StepRunsThePendingEvent := by
  refine fun s w hr hp => ⟨fun i hd => ?_, fun e hd => ?_⟩ <;> rw [step_of_pending hr hp, runEventWord, hd]

/-- With no event at hand the agent whose turn it is moves; a PHY without a move lets the machine stand still. -/
theorem step_of_phy_turn {s : State} {ts : Feed Agent} (hr : s.rst = false) (he : s.evtPending = none) (hv : s.ev = [])
    (ht : takeNext s.turns = some (.phy, ts)) :
    step s = (phyTurn { s with turns := ts }).getD (.next { s with turns := ts }) := by
  simp only [step, hr, he, hv, Bool.false_eq_true, if_false, foregroundStep, ht, agentTurn]

/-! ### The PHY's move, case by case -/

/-- R140: an ENABLE in PC is performed whatever the PHY is doing. -/
theorem phyTurn_enable {s : State} {before rest : List PhyWord} {w : PhyWord} (hp : s.pc = before ++ w :: rest)
    (hb : ∀ v ∈ before, isEnable v = false) (hw : isEnable w = true) :
    phyTurn s = some (exec .enable (abandonQueued (!before.isEmpty) { s with pc := rest })) := by
  simp only [phyTurn, hp, findEnable_append hb hw, runPhyWord, decode_enable hw]

section
variable {s : State} (hb : ∀ v ∈ s.pc, isEnable v = false)
include hb

theorem phyTurn_disabled (hen : s.phy.enabled = false) : phyTurn s = none := by
  simp only [phyTurn, findEnable_none.mpr hb, hen, Bool.false_eq_true, if_false]

theorem phyTurn_answered {r : PhyRequest} {w : EventWord} {rest : Feed EventWord} (hen : s.phy.enabled = true)
    (ho : s.phy.outstanding = some r) (ha : takeNext s.answers = some (w, rest)) :
    phyTurn s = some (.next (raiseEvent r w { s with answers := rest })) := by
  simp only [phyTurn, findEnable_none.mpr hb, hen, if_true, ho, ha]

theorem phyTurn_unanswered {r : PhyRequest} (hen : s.phy.enabled = true) (ho : s.phy.outstanding = some r)
    (ha : takeNext s.answers = none) : phyTurn s = none := by
  simp only [phyTurn, findEnable_none.mpr hb, hen, if_true, ho, ha]

theorem phyTurn_idle {w : PhyWord} {rest : List PhyWord} (hen : s.phy.enabled = true) (ho : s.phy.outstanding = none)
    (hp : s.pc = w :: rest) : phyTurn s = some (runPhyWord w { s with pc := rest }) := by
  simp only [phyTurn, findEnable_none.mpr hb, hen, if_true, ho]
  rw [hp]

end

/-- Settles O10: the turn's move is the head of PC, the first ENABLE, or none. -/
theorem stepRunsThePhyCommand : Obligations.StepRunsThePhyCommand := by
  intro s ts hr he hv ht
  rw [step_of_phy_turn hr he hv ht]
  refine ⟨fun w rest i hen ho hp hb hd => ?_, fun before w rest hp hb hw => ?_, fun hen hb => ?_⟩
  · rw [phyTurn_idle (s := { s with turns := ts }) hb hen ho hp, runPhyWord, hd]
    rfl
  · rw [phyTurn_enable (s := { s with turns := ts }) hp hb hw]
    cases before <;> rfl
  · rw [phyTurn_disabled (s := { s with turns := ts }) hb hen]
    rfl

/-- Settles O11: the answer becomes pending at once, since no event is pending or on EV. -/
theorem phyRaisesTheAnswer : Obligations.PhyRaisesTheAnswer := by
  intro s ts r hr he hv ht hen ho hb
  rw [step_of_phy_turn hr he hv ht]
  refine ⟨fun w rest ha hok => ?_, fun ha => ?_⟩
  · rw [phyTurn_answered (s := { s with turns := ts }) hb hen ho ha,
      raiseEvent_eq (s := { s with turns := ts, answers := rest }) r w he hv, if_pos hok]
    rfl
  · rw [phyTurn_unanswered (s := { s with turns := ts }) hb hen ho ha]
    rfl

/-! ### The commands on the bus -/

theorem startSymbol_cases (s : State) : startSymbol s = .start ∨ startSymbol s = .repeatedStart := by
  unfold startSymbol
  split
  · exact .inl rfl
  · exact .inr rfl
  · split
    · exact .inr rfl
    · exact .inl rfl

/-- Settles O51: the start symbol is the one `startSymbol` picks by the tenure of the bus. -/
theorem startProducesStartAndAddress : Obligations.StartProducesStartAndAddress := by
  intro s sla dir hen
  refine ⟨startSymbol s, if s.phy.bus = .unknown then s.draws + 1 else s.draws, ?_, fun hb => ?_, fun hb => ?_,
    startSymbol_cases s, fun hb => if_neg hb⟩
  · simp only [exec, execStart, hen, if_true]
  · simp only [startSymbol, hb]
  · simp only [startSymbol, hb]

/-- Settles O52: the enabled branch of each command. -/
theorem sendReceiveStopReleaseActOnTheBus : Obligations.SendReceiveStopReleaseActOnTheBus := by
  intro s b ack hen
  simp only [exec, execSend, execRecv, execStop, execRelease, hen, if_true, and_self]

/-- Settles O54: an idle PHY on a free bus has nothing to abandon. -/
theorem enableMakesThePhyIdle : Obligations.EnableMakesThePhyIdle :=
  fun _ => ⟨fun ho hb => if_pos ⟨ho, hb⟩, fun h => if_neg (by simpa [imp_iff_not_or] using h)⟩

end Sys2Proof.Machine
end

section
/-! PROOFS. The host's turn (R190, R197) and the claims of the transfer commands (R191 to R195). -/

namespace Sys2Proof.Machine

/-! ### The host's turn -/

/-- With no event at hand the agent whose turn it is moves; a host without a move lets the machine stand still. -/
theorem step_of_host_turn {s : State} {ts : Feed Agent} (hr : s.rst = false) (he : s.evtPending = none) (hv : s.ev = [])
    (ht : takeNext s.turns = some (.host, ts)) :
    step s = (hostTurn { s with turns := ts }).getD (.next { s with turns := ts }) := by
  simp only [step, hr, he, hv, Bool.false_eq_true, if_false, foregroundStep, ht, agentTurn]

theorem hostTurn_command {s : State} {c : HostCommand} {rest : List HostCommand} (hw : s.hostWait = .idle)
    (hc : s.hc = c :: rest) : hostTurn s = some (runHostCommand c { s with hc := rest }) := by
  simp only [hostTurn, hw, hc]

theorem hostTurn_send {s : State} {c : HostCommand} {rest : Feed HostCommand} (hw : s.hostWait = .idle) (hc : s.hc = [])
    (hp : takeNext s.program = some (c, rest)) : hostTurn s = some (.next { s with program := rest, hc := [c] }) := by
  simp only [hostTurn, hw, hc, hp]

/-- R190 (b): the claim of a held command is made at `Ready` only. -/
theorem hostTurn_waitReady {s : State} {cmd : Instr} (hw : s.hostWait = .waitReady cmd) :
    hostTurn s = if s.state = .ready then some (exec cmd { s with hostWait := .idle }) else none := by
  simp only [hostTurn, hw]

theorem hostTurn_waitDone {s : State} {cmd : Instr} (hw : s.hostWait = .waitDone cmd) : hostTurn s = none := by
  simp only [hostTurn, hw]

/-- Settles O9: the turn's move, by what the host is held on and what stands on HC. -/
theorem stepRunsTheHostCommand : Obligations.StepRunsTheHostCommand := by
  intro s ts hr he hv ht
  rw [step_of_host_turn hr he hv ht]
  refine ⟨fun c rest i hw hc hd => ?_, fun c rest e hw hc hd => ?_, fun c rest hw hc hp => ?_, fun cmd hw hs => ?_,
    fun cmd hw hs => ?_, fun cmd hw => ?_⟩
  · rw [hostTurn_command (s := { s with turns := ts }) hw hc, runHostCommand, hd]
    rfl
  · rw [hostTurn_command (s := { s with turns := ts }) hw hc, runHostCommand, hd]
    rfl
  · rw [hostTurn_send (s := { s with turns := ts }) hw hc hp]
    rfl
  · rw [hostTurn_waitReady (s := { s with turns := ts }) hw, if_pos hs]
    rfl
  · rw [hostTurn_waitReady (s := { s with turns := ts }) hw, if_neg hs]
    rfl
  · rw [hostTurn_waitDone (s := { s with turns := ts }) hw]
    rfl

/-! ### The claims

Every transfer command tests its length first, then whether the engine is busy (R191 to R195, D14). -/

section
variable {s : State} {len : Byte} {rejected busy claim : Result}

theorem lenTest_rejects (h : len = 0#8 ∨ s.N < len.toNat) :
    (if !lenValid s len then rejected else if s.state ≠ .ready then busy else claim) = rejected := by
  have hl : lenValid s len = false := by
    refine Bool.eq_false_iff.mpr fun hv => ?_
    obtain ⟨h1, hN⟩ := lenValid_iff.mp hv
    rcases h with rfl | h
    · exact absurd h1 (by decide)
    · omega
  simp only [hl, Bool.not_false, if_true]

variable (h1 : 1 ≤ len.toNat) (hN : len.toNat ≤ s.N)
include h1 hN

theorem lenTest_passes_busy (hs : s.state ≠ .ready) :
    (if !lenValid s len then rejected else if s.state ≠ .ready then busy else claim) = busy := by
  simp only [lenValid_iff.mpr ⟨h1, hN⟩, Bool.not_true, Bool.false_eq_true, if_false, if_pos hs]

theorem lenTest_passes_ready (hs : s.state = .ready) :
    (if !lenValid s len then rejected else if s.state ≠ .ready then busy else claim) = claim := by
  simp only [lenValid_iff.mpr ⟨h1, hN⟩, Bool.not_true, Bool.false_eq_true, if_false, ne_eq, hs, not_true_eq_false]

end

/-- Settles O28: the claim, with and without `wait`. -/
theorem writeClaimsAtReady : Obligations.WriteClaimsAtReady := by
  intro s wait sla len wdata hs h1 hN hp
  refine (lenTest_passes_ready h1 hN hs).trans ?_
  rw [if_neg hp.not_gt]
  cases wait <;> rfl

/-- Settles O29: the three ways not to claim. -/
theorem writeRejectsOrWaits : Obligations.WriteRejectsOrWaits := by
  intro s wait sla len wdata
  refine ⟨fun h => ?_, fun h1 hN hs => ?_, fun h1 hN hs hp => ?_⟩
  · exact lenTest_rejects h
  · exact lenTest_passes_busy h1 hN hs
  · exact (lenTest_passes_ready h1 hN hs).trans (if_pos hp)

/-- Settles O30: the claim, the wait and the rejection are the three outcomes of the tests. -/
theorem readIntoClaimsRejectsOrWaits : Obligations.ReadIntoClaimsRejectsOrWaits :=
  fun _ _ _ _ =>
    ⟨lenTest_passes_ready, lenTest_passes_busy, lenTest_rejects⟩

/-- Settles O31, test by test. -/
theorem nbReadIntoClaimsOrAnswersBusy : Obligations.NbReadIntoClaimsOrAnswersBusy :=
  fun _ _ _ _ =>
    ⟨lenTest_passes_ready, lenTest_passes_busy, lenTest_rejects⟩

/-- Settles O32, test by test. -/
theorem nbReadRegClaimsOrAnswersBusy : Obligations.NbReadRegClaimsOrAnswersBusy :=
  fun _ _ _ _ _ =>
    ⟨lenTest_passes_ready, lenTest_passes_busy, lenTest_rejects⟩

end Sys2Proof.Machine
end

section
/-! PROOFS. A blocking command is answered by the end of its own transaction (R190 (c), R198). -/

namespace Sys2Proof.Machine

/-- The host is still held, and no response and no record has come. -/
def StillHeld (s t : State) : Prop := t.hostWait = s.hostWait ∧ t.hr = s.hr ∧ t.cr = s.cr

/-- The response a held command gets from the record of its transaction (R95, R97): the count and the bytes of a
read, the status of a write. -/
def AnsweredFrom (c : Completion) (s t : State) : Prop :=
  if c.kind = .masterReceive then
    ∃ rdata, t.hr = s.hr ++ [⟨0#8, c.count, rdata⟩] ∧ rdata.length = s.N ∧
      rdata.take c.count.toNat = c.data.take c.count.toNat
  else t.hr = s.hr ++ [⟨status c.err, 0#8, []⟩]

theorem Continues.stillHeld {s t : State} (h : Continues s t) : StillHeld s t := by
  cases h <;> exact ⟨rfl, rfl, rfl⟩

theorem EndsFrom.stillHeld {s u : State} (h : EndsFrom s u) : StillHeld s u := by
  cases h <;> exact ⟨rfl, rfl, rfl⟩

/-- The record of the transaction the host waits for is the one it is answered from. -/
theorem HoldsOwnTransaction.answeredFrom {u : State} {cmd : Instr} (h : HoldsOwnTransaction u cmd)
    (hw : u.hostWait = .waitDone cmd) (hi : u.idx.toNat ≤ u.N) (e : ErrRec) (w : PhyWord) :
    ∃ c, (endedBy e w u).cr = u.cr ++ [c] ∧ AnsweredFrom c u (endedBy e w u) := by
  refine ⟨_, rfl, ?_⟩
  unfold HoldsOwnTransaction at h
  split at h
  · obtain ⟨-, hs⟩ := h
    simp [AnsweredFrom, hs, endedBy, heldResponses, hw]
  · refine (if_pos h).mpr ⟨padTo u.N (u.draws + 1) (u.buf.take u.idx.toNat), ?_, ?_, ?_⟩
    · simp [endedBy, heldResponses, hw]
    · exact length_padTo _ (List.length_take_le' _ _)
    · exact (take_padTo_buf _ _ hi).trans (take_padTo_buf _ _ hi).symm
  · exact h.elim

/-- With nothing queued, no transaction follows the one that ends. -/
theorem dispatch_endedBy {s : State} (e : ErrRec) (w : PhyWord) (hq : QueueEmpty s.queue) :
    dispatch (endedBy e w s) = endedBy e w s :=
  dispatch_of_empty (s := endedBy e w s) hq

/-- With nothing queued behind it, the transaction of a held command ends in an idle engine. -/
theorem EventEffect.of_waitDone {s t : State} {cmd : Instr} (h : EventEffect s t) (hw : s.hostWait = .waitDone cmd)
    (ho : HoldsOwnTransaction s cmd) (hq : QueueEmpty s.queue) :
    StillHeld s t ∨ (t.hostWait = .idle ∧ t.state = .ready ∧ QueueEmpty t.queue ∧
      ∃ c, t.cr = s.cr ++ [c] ∧ AnsweredFrom c s t) := by
  cases h with
  | discarded => exact .inl ⟨rfl, rfl, rfl⟩
  | continued _ hc => exact .inl hc.stillHeld
  | ended u e w _ hu _ hi =>
    obtain ⟨hst, hqu, -⟩ := hu.frame
    obtain ⟨hwu, hhr, hcr⟩ := hu.stillHeld
    have hou : HoldsOwnTransaction u cmd := ho.of_sameState hst
    have hqe : QueueEmpty u.queue := hqu.symm ▸ hq
    obtain ⟨c, hc, ha⟩ := hou.answeredFrom (hwu.trans hw) hi e w
    rw [dispatch_endedBy e w hqe]
    refine .inr ⟨if_neg (hou.heldResponses_ne_nil (hwu.trans hw) e), rfl, hqe, c, hcr ▸ hc, ?_⟩
    rwa [AnsweredFrom, hhr, hu.sameBuild.1] at ha

/-- Settles O50: only the handler moves on while the host waits; the other agents' steps leave HR, CR and the hold. -/
theorem blockingCommandEndsWithAnIdleEngine : Obligations.BlockingCommandEndsWithAnIdleEngine := by
  intro s t cmd hi hr hw h
  obtain ⟨ho, hq⟩ : HoldsOwnTransaction s cmd ∧ QueueEmpty s.queue := by simpa only [HoldOk, hw] using hi.hold
  cases step_effect h with
  | reset hrst => cases hr.symm.trans hrst
  | handled _ _ _ _ _ he => exact he.of_waitDone hw (ho.of_sameState rfl) hq
  | latched | stood => exact .inl ⟨rfl, rfl, rfl⟩
  | enabled _ _ _ _ _ _ _ _ _ _ _ hx =>
    obtain ⟨bus, wire, rfl⟩ := enable_frame hx
    exact .inl ⟨rfl, rfl, rfl⟩
  | raised ts q w rest _ he hv =>
    rw [raiseEvent_eq (s := { s with turns := ts, answers := rest }) q w he hv]
    exact .inl ⟨rfl, rfl, rfl⟩
  | performed _ _ _ _ _ _ _ _ _ _ _ _ hd hx =>
    obtain ⟨phy, wire, draws, rfl⟩ := exec_phy_frame (decode_pc_channel hd) hx
    exact .inl ⟨rfl, rfl, rfl⟩
  | commanded _ _ _ _ _ _ _ hidle | sent _ _ _ _ _ _ hidle => simp [hw] at hidle
  | claimed _ _ _ _ _ _ hready => simp [hw] at hready

end Sys2Proof.Machine
end

section
/-! PROOFS. Whole transactions of the blocking commands, event by event: a write acknowledged throughout, a complete read
and a read cut short (R191, R192, R142, R144, R146, R147, R149, R153). -/

namespace Sys2Proof.Machine

theorem execAll_cons {i : Instr} {is : List Instr} {s t : State} (h : exec i s = .next t) :
    execAll (i :: is) s = execAll is t := by
  simp only [execAll, h]

theorem execAll_append {is js : List Instr} {s t : State} (h : execAll is s = .next t) :
    execAll (is ++ js) s = execAll js t := by
  induction is generalizing s with
  | nil => cases h; rfl
  | cons i is ih =>
    cases hi : exec i s with
    | next u =>
      rw [execAll_cons hi] at h
      exact (execAll_cons hi).trans (ih h)
    | fault r => simp [execAll, hi] at h
    | refused r => simp [execAll, hi] at h

theorem execAll_snoc {i : Instr} {is : List Instr} {s t u : State} (h : execAll is s = .next t)
    (hi : exec i t = .next u) : execAll (is ++ [i]) s = .next u :=
  (execAll_append h).trans (execAll_cons hi)

/-- A payload's bytes, and as many unspecified ones as are missing to `n`. -/
theorem padTo_eq_append {n : Nat} (k : Nat) {bs : List Byte} (h : bs.length ≤ n) :
    ∃ pad, pad.length + bs.length = n ∧ padTo n k bs = bs ++ pad :=
  ⟨unspecifiedBytes k (n - bs.length), by simp only [unspecifiedBytes, List.length_map, List.length_range]; omega, rfl⟩

/-! ### A write acknowledged throughout (R142, R144) -/

/-- Each acknowledge sends the next byte, up to the `n`th. -/
theorem execAll_dataAcks {k : Nat} {n : Byte} {s : State} (hs : s.state = .masterTransmit)
    (hk : s.idx.toNat + k = n.toNat) (hn : n.toNat ≤ s.len.toNat) (hN : s.len.toNat ≤ s.N) :
    execAll (List.replicate k .dataAck) s =
      .next { s with idx := n, pc := s.pc ++ ((s.buf.drop s.idx.toNat).take k).map sendWord } := by
  induction k generalizing s with
  | zero =>
    obtain rfl : s.idx = n := BitVec.eq_of_toNat_eq hk
    simp [execAll]
  | succ k ih =>
    have hb : s.idx.toNat < s.buf.length := lt_of_lt_of_le (by omega) hN
    have hsucc : (s.idx + 1#8).toNat = s.idx.toNat + 1 := toNat_succ_of_lt (n := n) (by omega)
    have htake : (s.buf.drop s.idx.toNat).take (k + 1) =
        s.buf[s.idx.toNat] :: (s.buf.drop (s.idx.toNat + 1)).take k := by
      rw [List.drop_eq_getElem_cons hb, List.take_succ_cons]
    have hsend := sendNext_of_more (s := s) (by omega) (List.getElem?_eq_getElem hb)
    rw [List.replicate_succ, execAll_cons ((acknowledge_masterTransmit hs).2.trans hsend),
      ih (s := issue _ { s with idx := s.idx + 1#8 }) hs (by simp only [issue_idx, hsucc]; omega) hn hN]
    simp only [issue, hsucc, htake, List.map_cons, List.append_assoc, List.singleton_append]

/-- A write with its `len` bytes sent and nothing ended yet. -/
def allSent (s : State) : State := { s with idx := s.len, pc := s.pc ++ (s.buf.take s.len.toNat).map sendWord }

/-- ADDR_ACK and `len` DATA_ACKs: all bytes are sent and the last acknowledge ends the write. -/
theorem execAll_acknowledged {s : State} (hs : s.state = .masterTransmit) (hi : s.idx = 0#8) (hN : s.len.toNat ≤ s.N)
    (hq : QueueEmpty s.queue) :
    execAll (.addrAck :: List.replicate s.len.toNat .dataAck) s = .next (endedBy s.err stopWord (allSent s)) := by
  have hsame : execAll (.addrAck :: List.replicate s.len.toNat .dataAck) s =
      execAll (List.replicate s.len.toNat .dataAck ++ [.dataAck]) s := by
    rw [← List.replicate_succ', List.replicate_succ]
    simp only [execAll, acknowledge_masterTransmit hs]
  have hsent : execAll (List.replicate s.len.toNat .dataAck) s = .next (allSent s) := by
    rw [execAll_dataAcks (n := s.len) hs (by simp [hi]) le_rfl hN, hi]
    rfl
  have hend : sendNext (allSent s) = .next (dispatch (endedBy s.err stopWord (allSent s))) :=
    sendNext_of_all_sent (s := allSent s) le_rfl hN
  rw [dispatch_endedBy (s := allSent s) _ _ hq] at hend
  rw [hsame]
  exact execAll_snoc hsent ((acknowledge_masterTransmit (s := allSent s) hs).2.trans hend)

/-- What the claim of a WRITE leaves: the host held, or already answered (R191). -/
def claimedWrite (wait : Bool) (sla : DevAddr) (len : Byte) (wdata : List Byte) (s : State) : State :=
  { beginWrite sla len wdata (noteUse s) with
    hostWait := if wait then .waitDone (.write wait sla len wdata) else s.hostWait
    hr := if wait then s.hr else s.hr ++ [⟨0#8, 0#8, []⟩] }

theorem exec_write_claims {s : State} (wait : Bool) (sla : DevAddr) {len : Byte} {wdata : List Byte}
    (hs : s.state = .ready) (h1 : 1 ≤ len.toNat) (hN : len.toNat ≤ s.N) (hp : len.toNat ≤ wdata.length) :
    exec (.write wait sla len wdata) s = .next (claimedWrite wait sla len wdata s) :=
  writeClaimsAtReady s wait sla len wdata hs h1 hN hp

/-- Settles O55: the claim, the acknowledged run, and the end of the write with nothing queued. -/
theorem acknowledgedWriteSendsItsPayload : Obligations.AcknowledgedWriteSendsItsPayload := by
  intro s wait sla len wdata hs hq hw _ h1 hN hp
  have hNc : (claimedWrite wait sla len wdata s).N = s.N := (sameBuild_beginWrite sla hN hp).1
  have hlen : (wdata.take len.toNat).length = len.toNat := List.length_take_of_le hp
  have hbuf : (wdata.take len.toNat ++ s.buf.drop len.toNat).take len.toNat = wdata.take len.toNat :=
    List.take_left' hlen
  have hrun := execAll_acknowledged (s := claimedWrite wait sla len wdata s) rfl rfl (hNc.symm ▸ hN) hq
  obtain ⟨pad, hpad, hdata⟩ := padTo_eq_append s.draws (hlen.trans_le hN)
  refine ⟨_, (execAll_cons (exec_write_claims wait sla hs h1 hN hp)).trans hrun, rfl, rfl, ?_, ?_,
    ⟨pad, hlen ▸ hpad, ?_⟩, ?_, rfl⟩
  · cases wait <;> simp [endedBy, allSent, heldResponses, claimedWrite, hw]
  · cases wait <;> simp [endedBy, allSent, heldResponses, claimedWrite, hw, status]
  · rw [← hdata, ← hbuf, ← hNc]
    rfl
  · simp [endedBy, allSent, claimedWrite, hbuf]

/-! ### A read, byte by byte (R142, R146) -/

/-- The RECVs that ask for `k` bytes of a read of `len`, from byte `i` on: acknowledged while two or more are still to
come. -/
def recvWords (len i k : Nat) : List PhyWord := (List.range' i k).map fun j => recvWord (decide (j + 2 ≤ len))

theorem recvWords_snoc (len i k : Nat) :
    recvWords len i (k + 1) = recvWords len i k ++ [recvWord (decide (i + k + 2 ≤ len))] := by
  simp [recvWords, List.range'_concat]

/-- A read of `n + 1` bytes acknowledges all but the last. -/
theorem recvWords_whole (n : Nat) :
    recvWords (n + 1) 0 (n + 1) = List.replicate n (recvWord true) ++ [recvWord false] := by
  have hall : recvWords (n + 1) 0 n = List.replicate n (recvWord true) := by
    refine List.eq_replicate_iff.mpr ⟨by simp [recvWords], fun w hw => ?_⟩
    obtain ⟨j, hj, rfl⟩ := List.mem_map.mp hw
    rw [decide_eq_true (by simp at hj; omega)]
  rw [recvWords_snoc, hall, decide_eq_false (by omega)]

/-- A read that began in `s`, once `bytes` are received and stored and the commands `ws` are issued for them. -/
def received (bytes : List Byte) (ws : List PhyWord) (s : State) : State :=
  { s with
    idx := BitVec.ofNat 8 bytes.length, buf := bytes ++ s.buf.drop bytes.length, pc := s.pc ++ ws }

section
variable {s : State} {bytes : List Byte} (ws : List PhyWord)

theorem received_N (hN : bytes.length ≤ s.N) : (received bytes ws s).N = s.N := by
  simp only [State.N] at hN ⊢
  simp only [received, List.length_append, List.length_drop]
  omega

/-- The count of bytes received does not wrap around (R26). -/
theorem received_idx {n : Byte} (hl : bytes.length ≤ n.toNat) : (received bytes ws s).idx.toNat = bytes.length :=
  Nat.mod_eq_of_lt (hl.trans_lt n.isLt)

theorem issue_received (w : PhyWord) : issue w (received bytes ws s) = received bytes (ws ++ [w]) s := by
  simp [issue, received]

theorem storeByte_received {n : Byte} (b : Byte) (hl : bytes.length ≤ n.toNat) (hN : bytes.length < s.N) :
    storeByte b (received bytes ws s) = received (bytes ++ [b]) ws s := by
  have hbuf : (bytes ++ s.buf.drop bytes.length).set bytes.length b =
      bytes ++ [b] ++ s.buf.drop (bytes.length + 1) := by
    rw [List.set_append_right _ _ le_rfl, Nat.sub_self, List.drop_eq_getElem_cons hN, List.set_cons_zero,
      List.append_assoc, List.singleton_append]
  have hidx : BitVec.ofNat 8 bytes.length + 1#8 = BitVec.ofNat 8 (bytes.length + 1) := (BitVec.ofNat_add ..).symm
  rw [storeByte, received_idx ws hl]
  simp only [received, hbuf, hidx, List.length_append, List.length_singleton]

variable (hs : s.state = .masterReceive) (hN : s.len.toNat ≤ s.N)
include hs hN

/-- R146 with two or more bytes to come. -/
theorem exec_rxAck_received (b : Byte) (hk : bytes.length + 1 < s.len.toNat) :
    exec (.rxAck b) (received bytes ws s) =
      .next (received (bytes ++ [b]) (ws ++ [recvWord (decide (bytes.length + 3 ≤ s.len.toNat))]) s) := by
  have hlen : (received bytes ws s).len = s.len := rfl
  have hidx : (received bytes ws s).idx.toNat = bytes.length := received_idx ws (n := s.len) (by omega)
  have hcap : (received bytes ws s).N = s.N := received_N ws (by omega)
  have hrx := execRxAck_more (s := received bytes ws s) b hs (by rw [hidx, hlen]; omega)
  rw [if_pos (by omega), moreExpected_storeByte b (by rw [hidx, hlen]; omega), hidx, hlen,
    storeByte_received ws (n := s.len) b (by omega) (by omega), issue_received] at hrx
  exact hrx

variable (hq : QueueEmpty s.queue)
include hq

/-- R147 with one byte to come. -/
theorem exec_rxNack_received (b : Byte) (hk : bytes.length + 1 = s.len.toNat) :
    exec (.rxNack b) (received bytes ws s) = .next (endedBy s.err stopWord (received (bytes ++ [b]) ws s)) := by
  have hlen : (received bytes ws s).len = s.len := rfl
  have hidx : (received bytes ws s).idx.toNat = bytes.length := received_idx ws (n := s.len) (by omega)
  have hcap : (received bytes ws s).N = s.N := received_N ws (by omega)
  have hrx := execRxNack_last (s := received bytes ws s) b hs (by rw [hidx, hlen]; exact hk)
  have hidx' : (received (bytes ++ [b]) ws s).idx.toNat = (bytes ++ [b]).length :=
    received_idx ws (n := s.len) (by simp [hk])
  have hcap' : (received (bytes ++ [b]) ws s).N = s.N := received_N ws (by simp; omega)
  rw [if_pos (by omega), storeByte_received ws (n := s.len) b (by omega) (by omega),
    complete_issue stopWord (by simp [hidx', hcap']; omega)] at hrx
  exact hrx.trans (congrArg _ (dispatch_endedBy (s := received (bytes ++ [b]) ws s) _ _ hq))

/-- R149 with any number of bytes received. -/
theorem exec_busError_received (hk : bytes.length ≤ s.len.toNat) :
    exec .busError (received bytes ws s) = .next (endedBy .busProtocolError stopWord (received bytes ws s)) := by
  have hbusy : (received bytes ws s).state ≠ .ready := by simp [received, hs]
  have hidx : (received bytes ws s).idx.toNat = bytes.length := received_idx ws hk
  have hcap : (received bytes ws s).N = s.N := received_N ws (by omega)
  refine (execBusError_busy hbusy).trans ((fail_eq .busProtocolError (by omega)).trans ?_)
  exact congrArg _ (dispatch_endedBy (s := received bytes ws s) _ _ hq)

end

/-- ADDR_ACK and RX_ACKs of a read: the bytes stored in order, and one RECV more asked for than bytes received. -/
theorem execAll_rxAcks {s : State} {bytes : List Byte} (hs : s.state = .masterReceive) (hi : s.idx = 0#8)
    (hN : s.len.toNat ≤ s.N) (hk : bytes.length < s.len.toNat) :
    execAll (.addrAck :: bytes.map .rxAck) s =
      .next (received bytes (recvWords s.len.toNat 0 (bytes.length + 1)) s) := by
  induction bytes using List.reverseRecOn with
  | nil =>
    refine (execAll_cons (i := .addrAck) (execAddrAck_receives hs)).trans ?_
    simp [execAll, issue, received, recvWords, moreExpected, hi]
  | append_singleton bytes b ih =>
    rw [List.length_append, List.length_singleton] at hk ⊢
    have hrx := exec_rxAck_received (recvWords s.len.toNat 0 (bytes.length + 1)) hs hN b hk
    rw [List.map_append, ← List.cons_append, recvWords_snoc _ _ (bytes.length + 1), Nat.zero_add]
    exact execAll_snoc (ih (by omega)) hrx

/-! ### The end of a blocking read (R134, R190 (c), R192) -/

/-- What the host, channel CR and DEST get of the bytes in BUF when a read the host waits for ends. -/
theorem endedBy_heldRead {s : State} {bytes rest : List Byte} {sla : DevAddr} {len dest : Byte} (e : ErrRec)
    (w : PhyWord) (hs : s.state = .masterReceive) (hw : s.hostWait = .waitDone (.readInto sla len dest))
    (hbuf : s.buf = bytes ++ rest) (hi : s.idx.toNat = bytes.length) (h255 : s.N ≤ 255) :
    (endedBy e w s).hostWait = .idle ∧
    (∃ pad pad', pad.length + bytes.length = s.N ∧ pad'.length + bytes.length = s.N ∧
      (endedBy e w s).hr = s.hr ++ [⟨0#8, s.idx, bytes ++ pad⟩] ∧
      (endedBy e w s).cr = s.cr ++ [⟨.masterReceive, e, s.dest, s.idx, bytes ++ pad'⟩]) ∧
    destCount (endedBy e w s) s.dest = some s.idx ∧
    ∀ i, i < bytes.length → destData (endedBy e w s) s.dest i = bytes[i]? := by
  have htake : s.buf.take s.idx.toNat = bytes := by rw [hbuf, hi, List.take_left]
  have hN : bytes.length ≤ s.N := by simp [State.N, hbuf]
  obtain ⟨hcount, hdata, -, -⟩ := endOfAReadDeliversCountAndBytes s e w (hi.trans_le hN) h255 (.inl hs)
  obtain ⟨pad, hpad, hresp⟩ := padTo_eq_append (s.draws + 1) hN
  obtain ⟨pad', hpad', hrec⟩ := padTo_eq_append s.draws hN
  refine ⟨?_, ⟨pad, pad', hpad, hpad', ?_, ?_⟩, hcount, fun i hlt => ?_⟩
  · simp [endedBy, heldResponses, hw]
  · simp [endedBy, heldResponses, hw, htake, hresp]
  · simp [endedBy, hs, htake, hrec]
  · rw [hdata i (hi ▸ hlt), hbuf, List.getElem?_append_left hlt]

/-- What the claim of a READ_INTO leaves: the host held for the end of its transaction (R192). -/
def claimedRead (sla : DevAddr) (len dest : Byte) (s : State) : State :=
  { beginRead sla dest len (noteUse s) with hostWait := .waitDone (.readInto sla len dest) }

/-- READ_INTO claimed, its address acknowledged and `bytes` received. -/
theorem execAll_readInto {s : State} {bytes : List Byte} (sla : DevAddr) {len : Byte} (dest : Byte)
    (hs : s.state = .ready) (hk : bytes.length < len.toNat) (hN : len.toNat ≤ s.N) :
    execAll (.readInto sla len dest :: .addrAck :: bytes.map .rxAck) s =
      .next (received bytes (recvWords len.toNat 0 (bytes.length + 1)) (claimedRead sla len dest s)) :=
  (execAll_cons ((readIntoClaimsRejectsOrWaits s sla len dest).1 (by omega) hN hs)).trans
    (execAll_rxAcks (s := claimedRead sla len dest s) rfl rfl hN hk)

/-- Settles O56: the last byte is stored like the others and ends the read, with nothing queued. -/
theorem completeReadDeliversItsBytes : Obligations.CompleteReadDeliversItsBytes := by
  intro s sla len dest bytes last hs hq _ h255 hlen hN
  set ws := recvWords len.toNat 0 (bytes.length + 1) with hws
  have hwhole : (bytes ++ [last]).length = len.toNat := by simp [hlen]
  have hcap : (received (bytes ++ [last]) ws (claimedRead sla len dest s)).N = s.N :=
    received_N (s := claimedRead sla len dest s) ws (hwhole.trans_le hN)
  have hidx : (received (bytes ++ [last]) ws (claimedRead sla len dest s)).idx = len :=
    BitVec.eq_of_toNat_eq ((received_idx ws hwhole.le).trans hwhole)
  have hend := exec_rxNack_received (s := claimedRead sla len dest s) ws rfl hN hq last hlen.symm
  have hrun := execAll_snoc (execAll_readInto sla dest hs (by omega) hN) hend
  obtain ⟨hidle, hwords, hdest⟩ := endedBy_heldRead (s := received (bytes ++ [last]) ws (claimedRead sla len dest s))
    .noErr stopWord rfl rfl rfl (hidx ▸ hwhole.symm) (hcap.symm ▸ h255)
  rw [hwhole, hidx] at hwords hdest
  refine ⟨_, hrun, rfl, rfl, hidle, hcap ▸ hwords, ?_, hdest⟩
  rw [hws, hlen, recvWords_whole]
  simp [endedBy, received, claimedRead]

/-- Settles O57: the bus error ends the read with the bytes received so far, with nothing queued. -/
theorem shortReadDeliversTheBytesReceived : Obligations.ShortReadDeliversTheBytesReceived := by
  intro s sla len dest bytes hs hq _ h255 hk hN
  set ws := recvWords len.toNat 0 (bytes.length + 1)
  have hcap : (received bytes ws (claimedRead sla len dest s)).N = s.N :=
    received_N (s := claimedRead sla len dest s) ws (hk.le.trans hN)
  have hend := exec_busError_received (s := claimedRead sla len dest s) ws rfl hN hq hk.le
  have hrun := execAll_snoc (execAll_readInto sla dest hs hk hN) hend
  obtain ⟨hidle, hwords, hdest⟩ := endedBy_heldRead (s := received bytes ws (claimedRead sla len dest s))
    .busProtocolError stopWord rfl rfl rfl (received_idx ws hk.le) (hcap.symm ▸ h255)
  exact ⟨_, hrun, rfl, rfl, hidle, hcap ▸ hwords, hdest⟩

end Sys2Proof.Machine
end

section
/-! PROOFS. The register read-modify-write: its claim, the merge law, and the sequence from the claim to the record of
the write-back (R220 to R224, R131, R142, R144, R147). -/

namespace Sys2Proof.Machine

/-! ### The claim and the merge law (R220, R221) -/

/-- Settles O33, by whether the engine is busy. -/
theorem rmwRegClaimsOrAnswersBusy : Obligations.RmwRegClaimsOrAnswersBusy :=
  fun _ _ _ _ _ => ⟨fun hs => if_neg (not_not.mpr hs), fun hs => if_pos hs⟩

/-- Settles O34, by the mask's bit; beyond bit 7 all four bytes have 0. -/
theorem mergeTakesMaskedBitsFromData : Obligations.MergeTakesMaskedBitsFromData := by
  intro old data mask i
  by_cases hi : i < 8
  · have hbit : (merge old data mask).getLsbD i =
        (old.getLsbD i && !mask.getLsbD i || data.getLsbD i && mask.getLsbD i) := by
      simp [merge, hi, -BitVec.getLsbD_eq_getElem]
    cases hm : mask.getLsbD i <;> simp [hbit, hm]
  · have hzero (b : Byte) : b.getLsbD i = false := BitVec.getLsbD_of_ge b i (not_lt.mp hi)
    simp only [hzero, ite_self]

/-! ### Runs without an end on the way (R223) -/

/-- The operations `is` run from `s` to `t`, and each of them leaves the engine busy and CR as it was. -/
inductive RunsBusy : List Instr → State → State → Prop where
  | nil (s : State) : RunsBusy [] s s
  | cons {i : Instr} {is : List Instr} {s u t : State} (hi : exec i s = .next u) (hb : u.state ≠ .ready)
      (hc : u.cr = s.cr) (h : RunsBusy is u t) : RunsBusy (i :: is) s t

section
variable {is js : List Instr} {s u t : State}

theorem RunsBusy.append (h : RunsBusy is s u) (h' : RunsBusy js u t) : RunsBusy (is ++ js) s t := by
  induction h with
  | nil => exact h'
  | cons hi hb hc _ ih => exact .cons hi hb hc (ih h')

theorem RunsBusy.execAll (h : RunsBusy is s t) : execAll is s = .next t := by
  induction h with
  | nil => rfl
  | cons hi _ _ _ ih => exact (execAll_cons hi).trans ih

/-- On the way, from the first operation on, the engine is busy and CR is the one of the start. -/
theorem RunsBusy.execAll_take (h : RunsBusy is s t) {k : Nat} (h1 : 1 ≤ k) (hk : k ≤ is.length) :
    ∃ v, Machine.execAll (is.take k) s = .next v ∧ v.state ≠ .ready ∧ v.cr = s.cr := by
  induction h generalizing k with
  | nil => exact absurd (h1.trans hk) (by simp)
  | @cons i is s u t hi hb hc _ ih =>
    obtain ⟨k, rfl⟩ := Nat.exists_eq_add_of_le' h1
    rw [List.take_succ_cons, execAll_cons hi]
    rcases Nat.eq_zero_or_pos k with rfl | hpos
    · exact ⟨u, rfl, hb, hc⟩
    · obtain ⟨v, hv, hvb, hvc⟩ := ih hpos (Nat.le_of_succ_le_succ hk)
      exact ⟨v, hv, hvb, hvc.trans hc⟩

end

/-! ### The phases of the sequence (R224) -/

/-- What the claim of RMW_REG leaves (R220). -/
def claimedRmw (sla : DevAddr) (reg data mask : Byte) (s : State) : State :=
  respond codeOk 0#8 [] (beginRmw sla reg data mask (noteUse s))

/-- A read-modify-write with its register address sent and the old byte asked for. -/
def oldAskedFor (s : State) : State := issue (recvWord false) (turnAround (issue (sendWord s.reg) s))

theorem runsBusy_rmwReg (sla : DevAddr) (reg data mask : Byte) {s : State} (hs : s.state = .ready) :
    RunsBusy [.rmwReg sla reg data mask] s (claimedRmw sla reg data mask s) :=
  .cons ((rmwRegClaimsOrAnswersBusy s sla reg data mask).1 hs) nofun rfl (.nil _)

/-- Register address out, bus turned around, old byte asked for (R142, R144). -/
theorem runsBusy_oldAskedFor {s : State} (hs : s.state = .masterReadModifyWrite) (hd : s.dir = 0#1) :
    RunsBusy [.addrAck, .dataAck, .addrAck] s (oldAskedFor s) := by
  have hbusy : s.state ≠ .ready := by simp [hs]
  have hreg : exec .addrAck s = .next (issue (sendWord s.reg) s) := execAddrAck_sendsRegister (.inr ⟨hs, hd⟩)
  have hturn : exec .dataAck (issue (sendWord s.reg) s) = .next (turnAround (issue (sendWord s.reg) s)) :=
    execDataAck_turnsToReadOld hs hd
  have hask : exec .addrAck (turnAround (issue (sendWord s.reg) s)) = .next (oldAskedFor s) :=
    execAddrAck_readsOld hs rfl
  exact .cons hreg hbusy rfl (.cons hturn hbusy rfl (.cons hask hbusy rfl (.nil _)))

/-- The old byte received becomes the merged one in BUF, and the write-back starts (R147, R221, R222). -/
theorem runsBusy_rxNack {s : State} (old : Byte) (hs : s.state = .masterReadModifyWrite) (hd : s.dir = 1#1)
    (hN : 2 ≤ s.N) : RunsBusy [.rxNack old] s (mergeAndWriteBack old s) :=
  .cons ((execRxNack_merges old hs hd).trans (if_pos hN)) nofun rfl (.nil _)

theorem mergeAndWriteBack_buf {s : State} (old : Byte) (hN : 2 ≤ s.N) :
    (mergeAndWriteBack old s).buf = s.reg :: merge old s.rmwData s.rmwMask :: s.buf.drop 2 := by
  rw [mergeAndWriteBack_eq old hN, issue_buf]

/-- The address acknowledge and the first data acknowledge of a write of two bytes send both (R142, R144). -/
theorem runsBusy_twoSent {s : State} {a b : Byte} {rest : List Byte} (hs : s.state = .masterTransmit) (hi : s.idx = 0#8)
    (hl : s.len = 2#8) (hbuf : s.buf = a :: b :: rest) : RunsBusy [.addrAck, .dataAck] s (allSent s) := by
  have hbusy : s.state ≠ .ready := by simp [hs]
  have ha : exec .addrAck s = .next (issue (sendWord a) { s with idx := 1#8 }) := by
    rw [(acknowledge_masterTransmit hs).1, sendNext_of_more (b := a) (by simp [hi, hl]) (by simp [hi, hbuf]), hi]
    rfl
  have hb : exec .dataAck (issue (sendWord a) { s with idx := 1#8 }) = .next (allSent s) := by
    rw [(acknowledge_masterTransmit (by simp [hs])).2, sendNext_of_more (b := b) (by simp [hl]) (by simp [hbuf])]
    simp [allSent, issue, hl, hbuf]
  exact .cons ha hbusy rfl (.cons hb hbusy rfl (.nil _))

/-- Settles O58: seven operations run without an end, and the last acknowledge ends the write-back, with nothing
queued. -/
theorem readModifyWriteCommitsTheMergedByte : Obligations.ReadModifyWriteCommitsTheMergedByte := by
  intro s sla reg data mask old hs hq _ hN ops merged
  set r := oldAskedFor (claimedRmw sla reg data mask s) with hr
  have hbuf : (mergeAndWriteBack old r).buf = reg :: merged :: s.buf.drop 2 := mergeAndWriteBack_buf old hN
  have hcap : (mergeAndWriteBack old r).N = s.N := (sameBuild_mergeAndWriteBack old r).1
  have hmerged : RunsBusy (ops.take 5) s (mergeAndWriteBack old r) :=
    ((runsBusy_rmwReg sla reg data mask hs).append (runsBusy_oldAskedFor rfl rfl)).append
      (runsBusy_rxNack old rfl rfl hN)
  have hsent : RunsBusy (ops.take 7) s (allSent (mergeAndWriteBack old r)) :=
    hmerged.append (runsBusy_twoSent rfl rfl rfl hbuf)
  have hend := execAll_acknowledged (s := mergeAndWriteBack old r) rfl rfl (hcap.symm ▸ hN) hq
  obtain ⟨pad, hpad, hdata⟩ := padTo_eq_append (n := s.N) s.draws (bs := [reg, merged]) hN
  refine ⟨⟨_, (execAll_append hmerged.execAll).trans hend, rfl, rfl, ⟨pad, hpad, ?_⟩, ?_, rfl⟩, fun k h1 hk => ?_⟩
  · have htake : (mergeAndWriteBack old r).buf.take 2 = [reg, merged] := by rw [hbuf]; rfl
    rw [← hdata, ← htake, ← hcap]
    rfl
  · simp only [endedBy, allSent, hbuf]
    simp [hr, oldAskedFor, claimedRmw, turnAround, mergeAndWriteBack]
  · have hk7 : k ≤ 7 := Nat.le_of_lt_succ hk
    have hway := hsent.execAll_take h1 hk7
    rwa [List.take_take, min_eq_left hk7] at hway

end Sys2Proof.Machine
end

section
/-! PROOFS. The queue commands and the dispatcher (R240 to R248). -/

namespace Sys2Proof.Machine

/-! ### The scan finds the first level that holds a request (R243) -/

theorem Level.eq_empty {l : Level} (h : l.rq = none ∧ l.wq = none) : l = Level.empty := by
  obtain ⟨rq, wq⟩ := l
  obtain ⟨rfl, rfl⟩ := h
  rfl

/-- Within a level the read goes first, and its slot is emptied. -/
theorem takeFirst_read {l : Level} {r : ReadReq} (hr : l.rq = some r) (ls : List Level) :
    takeFirst (l :: ls) = some (.read r, ⟨none, l.wq⟩ :: ls) := by
  obtain ⟨rq, wq⟩ := l
  obtain rfl : rq = some r := hr
  rfl

theorem takeFirst_maskedWrite {l : Level} {w : WriteReq} (hr : l.rq = none) (hw : l.wq = some w) (ls : List Level) :
    takeFirst (l :: ls) = some (.maskedWrite w, ⟨none, none⟩ :: ls) := by
  obtain ⟨rq, wq⟩ := l
  obtain rfl : rq = none := hr
  obtain rfl : wq = some w := hw
  rfl

/-- Empty levels are passed over and stay. -/
theorem takeFirst_append {before ls rest : List Level} {x : Request} (he : QueueEmpty before)
    (h : takeFirst ls = some (x, rest)) : takeFirst (before ++ ls) = some (x, before ++ rest) := by
  induction before with
  | nil => exact h
  | cons l before ih =>
    obtain ⟨hl, hbefore⟩ := List.forall_mem_cons.mp he
    obtain rfl := Level.eq_empty hl
    simp only [List.cons_append, Level.empty, takeFirst, ih hbefore]

section
variable {s : State} {p : Nat} {l l' : Level} {x : Request}

/-- With every level above `p` empty, `dispatch()` starts the request that the scan takes from level `p`. -/
theorem dispatch_of_first (hx : ∀ ls, takeFirst (l :: ls) = some (x, l' :: ls)) (hl : s.queue[p]? = some l)
    (he : QueueEmpty (s.queue.take p)) : dispatch s = startRequest x { s with queue := s.queue.set p l' } := by
  obtain ⟨hp, rfl⟩ := List.getElem?_eq_some_iff.mp hl
  have htake : takeFirst s.queue = some (x, s.queue.set p l') := by
    rw [List.set_eq_take_append_cons_drop, if_pos hp, ← takeFirst_append he (hx _), List.getElem_cons_drop,
      List.take_append_drop]
  rw [dispatch, htake]

/-- With nothing queued, a request put in any slot is started at once, and the queue is what it was (R248). -/
theorem dispatch_fill (hx : ∀ ls, takeFirst (l :: ls) = some (x, Level.empty :: ls)) (hp : p < s.queue.length)
    (hq : QueueEmpty s.queue) : dispatch { s with queue := s.queue.set p l } = startRequest x s := by
  have hempty : s.queue[p] = Level.empty := Level.eq_empty (hq _ (List.getElem_mem hp))
  have habove : QueueEmpty ((s.queue.set p l).take p) := by
    rw [List.take_set_of_le le_rfl]
    exact fun k hk => hq k (List.mem_of_mem_take hk)
  rw [dispatch_of_first hx (List.getElem?_set_self hp) habove]
  simp only [List.set_set, ← hempty, List.set_getElem_self]

end

/-- Settles O38, by what the first level that is not empty holds. -/
theorem dispatchIsPriorityMajor : Obligations.DispatchIsPriorityMajor :=
  fun _ => ⟨dispatch_of_empty, fun _ _ hl he =>
    ⟨fun _ hr => dispatch_of_first (takeFirst_read hr) hl he,
      fun _ hr hw => dispatch_of_first (takeFirst_maskedWrite hr hw) hl he⟩⟩

/-! ### The enqueue commands, check by check (R240, R241) -/

section
variable {s : State}

theorem levelAt_eq_none {prio : Prio} (h : s.NPRIO ≤ prio.toNat) : levelAt s prio = none :=
  List.getElem?_eq_none h

theorem lenValid_eq_false {len : Byte} (h : len = 0#8 ∨ s.N < len.toNat) : lenValid s len = false :=
  decide_eq_false (by bv_omega)

/-- An accepted enqueue that finds the engine busy changes the queue and is answered. -/
theorem respond_enqueued_busy (hs : s.state ≠ .ready) (q : List Level) :
    respond codeOk 0#8 [] (dispatchIfReady { noteUse s with queue := q }) =
      { noteUse s with queue := q, hr := s.hr ++ [⟨0#8, 0#8, []⟩] } := by
  rw [dispatchIfReady, if_neg (by exact hs)]
  rfl

/-- `dispatch()` writes no response, so the answer of an accepted enqueue follows those before it. -/
theorem respond_enqueued_ready (hs : s.state = .ready) (q : List Level) :
    respond codeOk 0#8 [] (dispatchIfReady { noteUse s with queue := q }) =
      { dispatch { noteUse s with queue := q } with hr := s.hr ++ [⟨0#8, 0#8, []⟩] } := by
  rw [dispatchIfReady, if_pos (by exact hs), respond, dispatch_hr]
  rfl

variable {prio : Prio} {l : Level} (hl : s.queue[prio.toNat]? = some l) (sla : DevAddr) (reg : Byte)
include hl

/-- ENQ_READ with a valid priority: the length, then the slot. -/
theorem execEnqRead_at (len dest : Byte) :
    execEnqRead prio sla reg len dest s =
      if !lenValid s len then .next (respond codeOther 0#8 [] (noteUse s))
      else if l.rq ≠ none then .next (respond codeBusy 0#8 [] (noteUse s))
      else .next (respond codeOk 0#8 [] (dispatchIfReady
        { noteUse s with queue := s.queue.set prio.toNat ⟨some ⟨sla, reg, dest, len⟩, l.wq⟩ })) := by
  simp only [execEnqRead, levelAt, hl]

/-- ENQ_MWRITE with a valid priority: the slot alone. -/
theorem execEnqMwrite_at (data mask : Byte) :
    execEnqMwrite prio sla reg data mask s =
      if l.wq ≠ none then .next (respond codeBusy 0#8 [] (noteUse s))
      else .next (respond codeOk 0#8 [] (dispatchIfReady
        { noteUse s with queue := s.queue.set prio.toNat ⟨l.rq, some ⟨sla, reg, data, mask⟩⟩ })) := by
  simp only [execEnqMwrite, levelAt, hl]

end

/-- Settles O35, check by check. -/
theorem enqReadStoresOrRejects : Obligations.EnqReadStoresOrRejects := by
  intro s prio sla reg len dest
  have hat {l : Level} (hl : s.queue[prio.toNat]? = some l) := execEnqRead_at hl sla reg len dest
  have hpass (h1 : 1 ≤ len.toNat) (hN : len.toNat ≤ s.N) : ¬(!lenValid s len) = true := by
    simp [lenValid_iff.mpr ⟨h1, hN⟩]
  refine ⟨fun hp => ?_, fun hp hlen => ?_, fun l hl h1 hN hr => ?_, fun l hl h1 hN hr hs => ?_,
    fun l hl h1 hN hr hs => ?_⟩
  · rw [exec, execEnqRead, levelAt_eq_none hp]
    rfl
  · exact (hat (List.getElem?_eq_getElem hp)).trans (if_pos (by simp [lenValid_eq_false hlen]))
  · exact (hat hl).trans ((if_neg (hpass h1 hN)).trans (if_pos hr))
  · refine (hat hl).trans ((if_neg (hpass h1 hN)).trans ((if_neg (not_not.mpr hr)).trans ?_))
    exact congrArg _ (respond_enqueued_busy hs _)
  · refine (hat hl).trans ((if_neg (hpass h1 hN)).trans ((if_neg (not_not.mpr hr)).trans ?_))
    exact congrArg _ (respond_enqueued_ready hs _)

/-- Settles O36, check by check. -/
theorem enqMwriteStoresOrRejects : Obligations.EnqMwriteStoresOrRejects := by
  intro s prio sla reg data mask
  have hat {l : Level} (hl : s.queue[prio.toNat]? = some l) := execEnqMwrite_at hl sla reg data mask
  refine ⟨fun hp => ?_, fun l hl hw => ?_, fun l hl hw hs => ?_, fun l hl hw hs => ?_⟩
  · rw [exec, execEnqMwrite, levelAt_eq_none hp]
    rfl
  · exact (hat hl).trans (if_pos hw)
  · refine (hat hl).trans ((if_neg (not_not.mpr hw)).trans ?_)
    exact congrArg _ (respond_enqueued_busy hs _)
  · refine (hat hl).trans ((if_neg (not_not.mpr hw)).trans ?_)
    exact congrArg _ (respond_enqueued_ready hs _)

/-- Settles O37: ENQ_READ checks the length as NB_READ_REG does, and what an accepted enqueue stores in the empty queue
is begun as the non-blocking command begins it. -/
theorem enqueueWhileIdleStartsAtOnce : Obligations.EnqueueWhileIdleStartsAtOnce := by
  intro s prio sla reg len dest data mask hs hq hp
  have hl : s.queue[prio.toNat]? = some Level.empty := by
    rw [List.getElem?_eq_getElem hp, Level.eq_empty (hq _ (List.getElem_mem hp))]
  obtain ⟨-, hreject, -, -, hread⟩ := enqReadStoresOrRejects s prio sla reg len dest
  obtain ⟨-, -, -, hwrite⟩ := enqMwriteStoresOrRejects s prio sla reg data mask
  obtain ⟨hclaim, -, hreject'⟩ := nbReadRegClaimsOrAnswersBusy s sla reg len dest
  have answered {t u : State} (h : t = u) : (.next { t with hr := s.hr ++ [⟨0#8, 0#8, []⟩] } : Result) =
      .next { u with hr := s.hr ++ [⟨0#8, 0#8, []⟩] } := by rw [h]
  constructor
  · by_cases hlen : 1 ≤ len.toNat ∧ len.toNat ≤ s.N
    · obtain ⟨h1, hN⟩ := hlen
      have hbegin := dispatch_fill (s := noteUse s) (l := ⟨some ⟨sla, reg, dest, len⟩, none⟩)
        (takeFirst_read rfl) hp hq
      exact (hread _ hl h1 hN rfl hs).trans ((answered hbegin).trans (hclaim h1 hN hs).symm)
    · have hbad : len = 0#8 ∨ s.N < len.toNat := by bv_omega
      exact (hreject hp hbad).trans (hreject' hbad).symm
  · have hbegin := dispatch_fill (s := noteUse s) (l := ⟨none, some ⟨sla, reg, data, mask⟩⟩)
      (takeFirst_maskedWrite rfl rfl) hp hq
    exact (hwrite _ hl rfl hs).trans
      ((answered hbegin).trans ((rmwRegClaimsOrAnswersBusy s sla reg data mask).1 hs).symm)

end Sys2Proof.Machine
end

section
/-! PROOFS. Starvation: a run without end in which level 0's masked write and level 1's read wait for ever (R246, R329).
The host refills level 0's read slot during every transaction; the peripheral is absent, so each of them ends after its
address. -/

namespace Sys2Proof.Machine

/-! ### The inputs (R12) -/

/-- ENQ_READ of the read that keeps level 0 busy, `refillRead`. -/
def refill : HostCommand := ⟨hostWord 0x6#4 false 0#3 0x20#7 0x13#8 1#8 7#8, []⟩

/-- INIT, a first read of level 0, and the two requests that starve; then the read of level 0 over and over. -/
def starvationProgram : Feed HostCommand where
  now :=
    [⟨hostWord 0x0#4 false 0#3 0#7 0#8 0#8 0#8, []⟩, refill,
      ⟨hostWord 0x7#4 false 0#3 0x20#7 0x14#8 1#8 1#8, []⟩, ⟨hostWord 0x6#4 false 1#3 0x20#7 0x15#8 1#8 9#8, []⟩]
  again := [refill]

/-- Every address is answered by ADDR_NACK. -/
def addressNacks : Feed EventWord := ⟨[], [shortWord 0x1#4 0#8]⟩

/-- The turns of one round: the host sends and runs a command, then the PHY performs a START, raises its answer and
performs the STOP. -/
def roundTurns : List Agent := [.host, .host, .phy, .phy, .phy]

/-- The host sends and runs INIT, the PHY performs its ENABLE, the host sends and runs three commands; then rounds. -/
def starvationTurns : Feed Agent := ⟨[.host, .host, .phy, .host, .host, .host, .host, .host, .host], roundTurns⟩

/-! ### One round -/

def refillRead : ReadReq := ⟨0x20#7, 0x13#8, 7#8, 1#8⟩

/-- The masked write of level 0 that is never served. -/
def starvedWrite : WriteReq := ⟨0x20#7, 0x14#8, 1#8, 1#8⟩

/-- The read of level 1 that is never served. -/
def starvedRead : ReadReq := ⟨0x20#7, 0x15#8, 9#8, 1#8⟩

/-- The queue with the starved requests, by what level 0's read slot holds. -/
def starvingQueue (rq : Option ReadReq) : List Level := [⟨rq, some starvedWrite⟩, ⟨some starvedRead, none⟩]

/-- How far a round has come. -/
inductive RoundPhase where
  /-- A read of level 0 is begun, its START in PC; its slot is empty. -/
  | begun
  /-- The next read of level 0 is on HC. -/
  | sent
  /-- The slot is full again. -/
  | refilled
  /-- The START is performed. -/
  | addressed
  /-- ADDR_NACK is pending. -/
  | refused
  /-- The read has ended and the one from the slot is begun, the STOP still before its START in PC. -/
  | ended

def RoundPhase.next : RoundPhase → RoundPhase
  | .begun => .sent
  | .sent => .refilled
  | .refilled => .addressed
  | .addressed => .refused
  | .refused => .ended
  | .ended => .begun

/-- What all phases of a round share: the read of level 0 on the bus, and the inputs that repeat. `k` turns of the round
are used up. -/
def inRound (k : Nat) (rq : Option ReadReq) (pc : List PhyWord) (phy : Phy) : State :=
  { State.reset with
    state := .masterTransmitThenReceive, sla := 0x20#7, reg := 0x13#8, len := 1#8, dest := 7#8, inited := true
    queue := starvingQueue rq, pc := pc, phy := phy
    program := ⟨[], [refill]⟩, answers := addressNacks, turns := ⟨roundTurns.drop k, roundTurns⟩ }

/-- The state in each phase of a round, but for what only grows from round to round. -/
def roundState : RoundPhase → State
  | .begun => inRound 5 none [startWord 0x20#7 0#1] ⟨true, none, .free⟩
  | .sent => { inRound 1 none [startWord 0x20#7 0#1] ⟨true, none, .free⟩ with hc := [refill] }
  | .refilled => inRound 2 (some refillRead) [startWord 0x20#7 0#1] ⟨true, none, .free⟩
  | .addressed => inRound 3 (some refillRead) [] ⟨true, some .address, .held⟩
  | .refused => { inRound 4 (some refillRead) [] ⟨true, none, .held⟩ with evtPending := some (shortWord 0x1#4 0#8) }
  | .ended => inRound 4 none [stopWord, startWord 0x20#7 0#1] ⟨true, none, .held⟩

/-- A state in a phase of a round, whatever stands on HR, CR, in DEST and on the wires, and was drawn. -/
def InPhase (p : RoundPhase) (s : State) : Prop :=
  ∃ hr cr mem wire draws, s = { roundState p with hr := hr, cr := cr, destMem := mem, wire := wire, draws := draws }

/-- In every phase the two requests wait and no contract is broken. -/
theorem InPhase.starves {p : RoundPhase} {s : State} (h : InPhase p s) :
    Sound s ∧ s.queue[0]?.bind Level.wq = some starvedWrite ∧ s.queue[1]?.bind Level.rq = some starvedRead := by
  obtain ⟨hr, cr, mem, wire, draws, rfl⟩ := h
  cases p <;> exact ⟨rfl, rfl, rfl⟩

/-- Each step leads from one phase to the next: the model run on each of them. -/
theorem InPhase.step {p : RoundPhase} {s : State} (h : InPhase p s) : ∃ t, step s = .next t ∧ InPhase p.next t := by
  obtain ⟨hr, cr, mem, wire, draws, rfl⟩ := h
  cases p <;> exact ⟨_, rfl, _, _, _, _, _, rfl⟩

/-- A round leaves one record and comes back to its beginning. -/
theorem InPhase.round {s : State} (h : InPhase .begun s) :
    ∃ t, runSteps 6 s = .next t ∧ InPhase .begun t ∧ t.cr.length = s.cr.length + 1 := by
  obtain ⟨hr, cr, mem, wire, draws, rfl⟩ := h
  exact ⟨_, rfl, ⟨_, _, _, _, _, rfl⟩, List.length_append⟩

/-! ### Rounds without end -/

theorem runSteps_succ {s t : State} (h : step s = .next t) (n : Nat) : runSteps (n + 1) s = runSteps n t := by
  simp only [runSteps, h]

theorem runSteps_add {m : Nat} {s t : State} (h : runSteps m s = .next t) (n : Nat) :
    runSteps (m + n) s = runSteps n t := by
  induction m generalizing s with
  | zero => cases h; rw [Nat.zero_add]
  | succ m ih =>
    rw [Nat.add_right_comm]
    cases hs : step s with
    | next u => rw [runSteps_succ hs] at h ⊢; exact ih h
    | fault r => simp [runSteps, hs] at h
    | refused r => simp [runSteps, hs] at h

theorem InPhase.runSteps {p : RoundPhase} {s : State} (h : InPhase p s) (n : Nat) :
    ∃ t q, runSteps n s = .next t ∧ InPhase q t := by
  induction n generalizing p s with
  | zero => exact ⟨s, p, rfl, h⟩
  | succ n ih =>
    obtain ⟨u, hu, hp⟩ := h.step
    obtain ⟨t, q, ht, hq⟩ := ih hp
    exact ⟨t, q, (runSteps_succ hu n).trans ht, hq⟩

/-- `k` rounds leave `k` records. -/
theorem InPhase.rounds {s : State} (h : InPhase .begun s) (k : Nat) :
    ∃ n t, Machine.runSteps n s = .next t ∧ s.cr.length + k ≤ t.cr.length := by
  induction k generalizing s with
  | zero => exact ⟨0, s, rfl, le_rfl⟩
  | succ k ih =>
    obtain ⟨u, hu, hp, hcr⟩ := h.round
    obtain ⟨n, t, ht, hle⟩ := ih hp
    exact ⟨6 + n, t, (runSteps_add hu n).trans ht, by omega⟩

/-- Nine steps bring the machine from reset to the beginning of a round. -/
theorem reset_reaches_round :
    ∃ s, runSteps 9
        { State.reset with program := starvationProgram, answers := addressNacks, turns := starvationTurns } = .next s ∧
      InPhase .begun s :=
  ⟨_, rfl, _, _, _, _, _, rfl⟩

/-- Settles O59: from the beginning of the first round on the machine never leaves the cycle of phases. -/
theorem lowerLevelsCanStarve : Obligations.LowerLevelsCanStarve := by
  obtain ⟨s, hreach, hs⟩ := reset_reaches_round
  refine ⟨starvationProgram, addressNacks, starvationTurns, 9, s, starvedWrite, starvedRead, hreach, fun n => ?_,
    hs.rounds⟩
  obtain ⟨t, q, ht, hq⟩ := hs.runSteps n
  exact ⟨t, ht, hq.starves⟩

end Sys2Proof.Machine
end

section
/-! PROOFS. INIT, the reserved host commands and the PHY that is not enabled (R270, R272, R273). -/

namespace Sys2Proof.Machine

/-- Settles O24: INIT tests nothing, so one effect holds in every state; the word it issues is `enableWord`, 0x500. -/
theorem initSetsTheEngineIdle : Obligations.InitSetsTheEngineIdle := fun _ => rfl

/-- A host word whose number is reserved has the effect of `reservedCommand`, whatever else stands in it (R92, R272). -/
theorem runHostCommand_reserved {c : HostCommand} (h : 9 ≤ (HostHeader.op c.header).toNat) (s : State) :
    runHostCommand c s = reservedCommand s := by
  have hd := decode_hc_by_number c.header c.wdata
  rw [if_neg h.not_gt] at hd
  rw [runHostCommand, hd]

/-- Settles O27: the response is the one `reservedCommand` gives. -/
theorem reservedCommandIsAnsweredOtherError : Obligations.ReservedCommandIsAnsweredOtherError :=
  fun s _ h => runHostCommand_reserved h s

/-- Settles O53: the branch of each command for a PHY that is not enabled. -/
theorem disabledPhyDoesNothing : Obligations.DisabledPhyDoesNothing := by
  intro s sla dir b ack hdis
  have hoff : ¬ s.phy.enabled = true := Bool.eq_false_iff.mp hdis
  simp only [List.forall_mem_cons]
  exact ⟨if_neg hoff, if_neg hoff, if_neg hoff, if_neg hoff, if_neg hoff, List.forall_mem_nil _⟩

end Sys2Proof.Machine
end

section
/-! PROOFS. From a state that meets the invariant no step stops (R61, R103, R290): the handler accesses BUF below `len`, a
WRITE brings as many bytes as BUF has, and the PHY finds only words the engine issues. -/

namespace Sys2Proof.Machine

/-- Where both branches answer a next state, so does the choice. -/
theorem exists_next_ite {p : Prop} [Decidable p] {a b : Result} (ha : ∃ t, a = .next t) (hb : ∃ t, b = .next t) :
    ∃ t, (if p then a else b) = .next t := by
  split
  · exact ha
  · exact hb

/-! ### The handler (R61, R290) -/

/-- R40: a transaction on the bus fits into BUF; the one byte of a read-modify-write by R5. -/
theorem Inv.len_le {s : State} (h : Inv s) (hs : s.state ≠ .ready) : s.len.toNat ≤ s.N := by
  obtain ⟨hN, -⟩ := h.legalN
  have hp := h.phase
  unfold PhaseOk at hp
  split at hp
  · contradiction
  · omega
  · omega
  · omega
  · obtain ⟨hlen, -⟩ := hp
    rw [hlen]
    exact Nat.le_of_succ_le hN

theorem Inv.event_next {s : State} {i : Instr} (h : Inv s) (hc : i.channel = .ev) : ∃ t, exec i s = .next t := by
  by_cases hs : s.state = .ready
  · exact ⟨_, exec_event_ready hc hs⟩
  · exact exec_event_next h.idxRange hc (h.len_le hs) h.legalN.1

theorem Inv.runEventWord_next {s : State} (h : Inv s) (w : EventWord) : ∃ t, runEventWord w s = .next t := by
  unfold runEventWord
  split
  · next i hi => exact h.event_next (decode_ev_channel hi)
  · exact reservedEvent_next h.idxRange

/-! ### The PHY (R103) -/

theorem exec_phy_next {i : Instr} (hc : i.channel = .pc) (s : State) : ∃ t, exec i s = .next t := by
  cases i with
  | start | send | recv | stop | release | enable => exact exists_next_ite ⟨_, rfl⟩ ⟨_, rfl⟩
  | init | write | readInto | nbReadInto | nbReadReg | rmwReg | enqRead | enqMwrite | poll => nomatch hc
  | addrAck | addrNack | dataAck | dataNack | rxAck | rxNack | arbLost | busError => nomatch hc

theorem runPhyWord_next {w : PhyWord} (hw : IssuedWord w) (s : State) : ∃ t, runPhyWord w s = .next t := by
  have hd := decode_pc_by_number w
  rw [if_pos hw] at hd
  obtain ⟨i, hi⟩ := hd
  rw [runPhyWord, hi]
  exact exec_phy_next (decode_pc_channel hi) s

theorem Inv.phyTurn_next {s : State} {r : Result} (h : Inv s) (hr : phyTurn s = some r) : ∃ t, r = .next t := by
  rcases phyTurn_cases hr with ⟨before, w, rest, hp, -, -, rfl⟩ | ⟨-, -, ⟨_, _, _, -, -, rfl⟩ | ⟨w, rest, -, hp, rfl⟩⟩
  · exact runPhyWord_next (h.issued w (by simp [hp])) _
  · exact ⟨_, rfl⟩
  · exact runPhyWord_next (h.issued w (by simp [hp])) _

/-! ### The host (R90, R93) -/

/-- A claim with a valid length finds in `wdata` every byte it reads. -/
theorem execWrite_next {s : State} {p : List Byte} (hp : p.length = s.N) (wait : Bool) (a : DevAddr) (l : Byte) :
    ∃ t, execWrite wait a l p s = .next t := by
  by_cases hl : lenValid s l = true
  · obtain ⟨-, hN⟩ := lenValid_iff.mp hl
    rw [execWrite, if_neg (c := p.length < l.toNat) (by omega)]
    exact exists_next_ite ⟨_, rfl⟩ (exists_next_ite ⟨_, rfl⟩ (exists_next_ite ⟨_, rfl⟩ ⟨_, rfl⟩))
  · rw [execWrite, if_pos (by simpa using hl)]
    exact ⟨_, rfl⟩

theorem execEnqRead_next (p : Prio) (a : DevAddr) (r l d : Byte) (s : State) :
    ∃ t, execEnqRead p a r l d s = .next t := by
  unfold execEnqRead
  split
  · exact ⟨_, rfl⟩
  · exact exists_next_ite ⟨_, rfl⟩ (exists_next_ite ⟨_, rfl⟩ ⟨_, rfl⟩)

theorem execEnqMwrite_next (p : Prio) (a : DevAddr) (r d m : Byte) (s : State) :
    ∃ t, execEnqMwrite p a r d m s = .next t := by
  unfold execEnqMwrite
  split
  · exact ⟨_, rfl⟩
  · exact exists_next_ite ⟨_, rfl⟩ ⟨_, rfl⟩

/-- A well-formed host command is always answered, held or started. -/
theorem exec_host_next {i : Instr} {s : State} (hc : i.channel = .hc) (hw : i.wellFormed s.N = true) :
    ∃ t, exec i s = .next t := by
  cases i with
  | init | poll => exact ⟨_, rfl⟩
  | write wait a l p => exact execWrite_next (beq_iff_eq.mp hw) wait a l
  | readInto | nbReadInto | nbReadReg => exact exists_next_ite ⟨_, rfl⟩ (exists_next_ite ⟨_, rfl⟩ ⟨_, rfl⟩)
  | rmwReg => exact exists_next_ite ⟨_, rfl⟩ ⟨_, rfl⟩
  | enqRead p a r l d => exact execEnqRead_next p a r l d s
  | enqMwrite p a r d m => exact execEnqMwrite_next p a r d m s
  | addrAck | addrNack | dataAck | dataNack | rxAck | rxNack | arbLost | busError => nomatch hc
  | start | send | recv | stop | release | enable => nomatch hc

theorem wellFormed_of_payloadOk {n : Nat} {c : HostCommand} {i : Instr} (hp : PayloadOk n c)
    (hd : decode (.hc c.header c.wdata) = .ok i) : i.wellFormed n = true := by
  unfold Instr.wellFormed
  split
  · obtain ⟨hop, rfl⟩ := decode_hc_write hd
    exact beq_iff_eq.mpr (hp hop)
  · rfl

theorem Holdable.wellFormed {s : State} {i : Instr} (h : Holdable s i) : i.wellFormed s.N = true := by
  unfold Holdable at h
  split at h
  · exact beq_iff_eq.mpr h.2
  · rfl
  · exact h.elim

theorem runHostCommand_next {s : State} {c : HostCommand} (hp : PayloadOk s.N c) :
    ∃ t, runHostCommand c s = .next t := by
  unfold runHostCommand
  split
  · next i hi => exact exec_host_next (decode_hc_channel hi) (wellFormed_of_payloadOk hp hi)
  · exact ⟨_, rfl⟩

theorem Inv.hostTurn_next {s : State} {r : Result} (h : Inv s) (hr : hostTurn s = some r) : ∃ t, r = .next t := by
  rcases hostTurn_cases hr with ⟨c, rest, -, hc, rfl⟩ | ⟨_, _, -, -, -, rfl⟩ | ⟨cmd, hw, -, rfl⟩
  · exact runHostCommand_next (h.payloads c (by simp [hc]))
  · exact ⟨_, rfl⟩
  · have hh := h.hold.holdable hw
    exact exec_host_next hh.channel hh.wellFormed

/-! ### One step -/

/-- Settles O16: reset and latching always answer, and so does every agent's move. -/
theorem noStepStopsTheMachine : Obligations.NoStepStopsTheMachine := by
  intro s hi
  have hhandled : Inv { s with evtPending := none } := { hi with }
  have hturn (ts : Feed Agent) : Inv { s with turns := ts } := { hi with }
  rcases step_cases s with ⟨-, h⟩ | ⟨-, w, -, h⟩ | ⟨-, _, _, -, -, h⟩ | ⟨-, -, -, ts, h | ⟨r, hr, h⟩ | ⟨r, hr, h⟩⟩
  · exact ⟨_, h⟩
  · exact h ▸ hhandled.runEventWord_next w
  · exact ⟨_, h⟩
  · exact ⟨_, h⟩
  · exact h ▸ (hturn ts).phyTurn_next hr
  · exact h ▸ (hturn ts).hostTurn_next hr

end Sys2Proof.Machine
end

section
/-! PROOFS. The values reset leaves, whether built in or asked for by `rst` (R41, R320); who writes the transaction of a busy
engine (R326); and the end of a run (R336). -/

namespace Sys2Proof.Machine

/-! ### Reset (R41, R320) -/

/-- Settles O5: `N` and `NPRIO` are the lengths reset gives to BUF and the queue, whose slots are empty; every other register
is at its value by definition. -/
theorem resetLeavesTheSpecifiedValues : Obligations.ResetLeavesTheSpecifiedValues :=
  fun n nprio => ⟨resetOf_N n nprio, resetOf_NPRIO n nprio, rfl, rfl, queueEmpty_replicate nprio,
    rfl, rfl, rfl, rfl, rfl, rfl, rfl, rfl, rfl, rfl, rfl⟩

/-- R320: the reset input goes before every agent. -/
theorem step_of_rst {s : State} (hr : s.rst = true) : step s = .next (hardReset s) := by
  rw [step, if_pos hr]

/-- Settles O6: the step is `hardReset`, which builds the engine anew with the same `N` and `NPRIO`. -/
theorem resetInputResetsTheMachine : Obligations.ResetInputResetsTheMachine := by
  intro s hr
  obtain ⟨hN, hNPRIO⟩ := sameBuild_hardReset s
  exact ⟨hardReset s, step_of_rst hr, hN, hNPRIO, rfl, rfl, queueEmpty_replicate s.NPRIO,
    rfl, rfl, rfl, rfl, rfl, rfl, rfl, rfl, rfl, rfl, rfl, rfl, rfl, rfl⟩

/-! ### The transaction of a busy engine (R77, R326) -/

/-- BUF and the transaction registers stand as they were. -/
def TransactionKept (s t : State) : Prop :=
  t.buf = s.buf ∧ t.len = s.len ∧ t.sla = s.sla ∧ t.dir = s.dir ∧ t.reg = s.reg ∧ t.rmwData = s.rmwData ∧
    t.rmwMask = s.rmwMask ∧ t.dest = s.dest

theorem transactionKept_refl (s : State) : TransactionKept s s := ⟨rfl, rfl, rfl, rfl, rfl, rfl, rfl, rfl⟩

/-- A host command starts no transaction on a busy engine, and INIT, which ends the one on the bus, writes none of its
registers (R270). -/
theorem transactionKept_runHostCommand {c : HostCommand} {s t : State} (h : runHostCommand c s = .next t)
    (hs : s.state ≠ .ready) : TransactionKept s t := by
  rcases runHostCommand_busy h hs with ⟨-, hinit⟩ | ⟨_, _, _, _, _, rfl, -⟩
  · cases hinit
    exact transactionKept_refl s
  · exact transactionKept_refl s

/-- Outside reset and handler no effect of a step on a busy engine writes the transaction. -/
theorem StepEffect.transactionKept {s t : State} (h : StepEffect s t) (hr : s.rst = false) (he : s.evtPending = none)
    (hs : s.state ≠ .ready) : TransactionKept s t := by
  have same := transactionKept_refl s
  cases h with
  | reset h => simp [h] at hr
  | handled _ _ _ h => simp [h] at he
  | latched | stood | sent => exact same
  | enabled _ _ _ _ _ _ _ _ _ _ _ hx =>
    obtain ⟨bus, wire, rfl⟩ := enable_frame hx
    exact same
  | raised ts q w rest _ _ hv =>
    rw [raiseEvent_eq (s := { s with turns := ts, answers := rest }) q w he hv]
    exact same
  | performed _ _ _ _ _ _ _ _ _ _ _ _ hd hx =>
    obtain ⟨phy, wire, draws, rfl⟩ := exec_phy_frame (decode_pc_channel hd) hx
    exact same
  | commanded _ ts _ rest _ _ _ _ _ hx =>
    exact transactionKept_runHostCommand (s := { s with turns := ts, hc := rest }) hx hs
  | claimed _ _ _ _ _ _ _ hready => exact absurd hready hs

/-- Settles O20: with the handler and reset excluded, no effect of the step writes the transaction. -/
theorem onlyTheHandlerWritesTheBusyTransaction : Obligations.OnlyTheHandlerWritesTheBusyTransaction :=
  fun _ _ h hr he hs => (step_effect h).transactionKept hr he hs

/-! ### The end of a run (R336) -/

/-- With no answer owed nothing is raised on EV. -/
theorem ev_of_nothing_owed {s : State} (h : answersOwed s = 0) : s.ev = [] := by
  simp only [answersOwed, Nat.add_eq_zero_iff, List.length_eq_zero_iff] at h
  obtain ⟨⟨-, hev⟩, -⟩ := h
  exact hev

/-- With no answer owed nothing is outstanding at the PHY, unless an ENABLE in PC is to abandon it (R140). -/
theorem outstanding_of_nothing_owed {s : State} (h : answersOwed s = 0) (hb : ∀ v ∈ s.pc, isEnable v = false) :
    s.phy.outstanding = none := by
  simp only [answersOwed, owedRequests, owedAfter_of_no_enable _ hb, Nat.add_eq_zero_iff, List.length_eq_zero_iff,
    List.append_eq_nil_iff] at h
  obtain ⟨⟨⟨hout, -⟩, -⟩, -⟩ := h
  exact Option.toList_eq_nil_iff.mp hout

/-- A PHY move that keeps the number of answers owed keeps quiescence. -/
theorem Quiescent.of_phy {s : State} (h : Quiescent s) {ts : Feed Agent} {pc : List PhyWord} {phy : Phy}
    {wire : List WireSym} {draws : Nat}
    (ho : answersOwed { s with turns := ts, pc := pc, phy := phy, wire := wire, draws := draws } = answersOwed s) :
    Quiescent { s with turns := ts, pc := pc, phy := phy, wire := wire, draws := draws } := by
  obtain ⟨hs, hq, he, hw, hc, h0⟩ := h
  exact ⟨hs, hq, he, hw, hc, ho.trans h0⟩

theorem quiescent_hardReset (s : State) : Quiescent (hardReset s) :=
  ⟨rfl, queueEmpty_replicate s.NPRIO, rfl, rfl, rfl, rfl⟩

/-- Of a quiescent machine whose program has ended only the PHY or a reset moves, and the program stays. -/
theorem StepEffect.quiescent {s t : State} (h : StepEffect s t) (hq : Quiescent s) (hp : takeNext s.program = none) :
    Quiescent t ∧ t.program = s.program := by
  obtain ⟨-, -, he, hw, hc, ho⟩ := id hq
  cases h with
  | reset => exact ⟨quiescent_hardReset s, rfl⟩
  | handled _ _ _ h => simp [h] at he
  | latched _ _ _ _ hv => simp [ev_of_nothing_owed ho] at hv
  | stood => exact ⟨hq, rfl⟩
  | enabled _ ts before rest w _ _ _ hpc hb hen hx =>
    obtain ⟨bus, wire, rfl⟩ := enable_frame hx
    refine ⟨hq.of_phy ?_, rfl⟩
    simp [answersOwed, owedRequests, hpc, owedAfter_enable _ hb hen]
  | raised _ _ _ _ _ _ _ hb _ hout => simp [outstanding_of_nothing_owed ho hb] at hout
  | performed _ ts w rest _ _ _ _ hb hen hout hpc hd hx =>
    have hasked := exec_phy_outstanding (s := { s with turns := ts, pc := rest }) hd hen hout hx
    obtain ⟨phy, wire, draws, rfl⟩ := exec_phy_frame (decode_pc_channel hd) hx
    refine ⟨hq.of_phy ?_, rfl⟩
    have hne : isEnable w = false := hb w (by simp [hpc])
    simp only at hasked
    simp [answersOwed, owedRequests, owedAfter, hpc, hne, hout, hasked]
  | commanded _ _ _ _ _ _ _ _ h => simp [h] at hc
  | sent _ _ _ _ _ _ _ _ h => simp [h] at hp
  | claimed _ _ _ _ _ _ h => simp [h] at hw

/-- Settles O23: neither the PHY nor a reset makes the machine owe anything or gives the program a command. -/
theorem quiescentMachineStaysQuiescent : Obligations.QuiescentMachineStaysQuiescent := by
  intro s t hq hp h
  obtain ⟨ht, hprog⟩ := (step_effect h).quiescent hq hp
  exact ⟨ht, hprog ▸ hp⟩

end Sys2Proof.Machine
end
